-- ==== Sys2Proof/Word.lean ====
section
/-! DEFINITION. The word types of the block and nothing else: bytes, 64-bit words, 128-bit vectors and
register selectors (00_scope.md rules R7, R8; 10_state.md rules R20, R21, R31). -/

namespace Sys2Proof

/-- One byte of memory or of an instruction. -/
abbrev Byte := BitVec 8

/-- A general register, the instruction pointer, or an address while it is computed (R7, R29, R42). -/
abbrev Word := BitVec 64

/-- A vector register (R31). -/
abbrev Vec := BitVec 128

/-- A register selector, 0 to 15 (R21, R31); in M32 only 0 to 7 occur (R76). -/
abbrev Reg := Fin 16

/-- rAX: the length of operand A of the explicit-length compares (R26). -/
abbrev Reg.rax : Reg := 0
/-- rCX: the destination of the index of the string compares (R26). -/
abbrev Reg.rcx : Reg := 1
/-- rDX: the second factor of MULX and the length of operand B (R26). -/
abbrev Reg.rdx : Reg := 2

end Sys2Proof
end

