-- ==== Sys2Proof/Machine/Bits.lean ====
section
/-! DEFINITION. Bit strings as lists and functions, for the instructions whose rules are written bit by bit
(PEXT, PDEP, the string compares). Bit 0 is the least significant (00_scope.md R8). -/

namespace Sys2Proof.Machine

/-- The `n`-bit value whose bit i is `f i`. -/
def ofBits : (n : Nat) → (Nat → Bool) → BitVec n
  | 0, _ => 0#0
  | n + 1, f => BitVec.cons (f n) (ofBits n f)

/-- The bits of a value, bit 0 first. -/
def bitList {n : Nat} (v : BitVec n) : List Bool := (List.range n).map v.getLsbD

/-- The `n`-bit value whose bits, bit 0 first, are those of the list, then zeros. -/
def ofBitList (n : Nat) (l : List Bool) : BitVec n := ofBits n fun i => l.getD i false

/-- `popcount` of a bit list (R8). -/
def countBits : List Bool → Nat
  | [] => 0
  | b :: l => (if b then 1 else 0) + countBits l

/-- `popcount(v)` (R8). -/
def popcount {n : Nat} (v : BitVec n) : Nat := countBits (bitList v)

/-- `mask_k` at width `n`: bits k−1..0 set (R8); all ones when k ≥ n. -/
def maskBits (n k : Nat) : BitVec n := BitVec.ofNat n (2 ^ k - 1)

/-- Little-endian value of a byte string (20_memory.md R45). -/
def leNat : List Byte → Nat
  | [] => 0
  | b :: bs => b.toNat + 256 * leNat bs

end Sys2Proof.Machine
end

