-- ==== Sys2Proof/Machine/BmiValues.lean ====
section
/-! DEFINITION. The results of the BMI instructions as functions of their operands at any width `n` (40_bmi.md R113
to R125). `s` is the source S, `v` the vvvv operand V. -/

namespace Sys2Proof.Machine

/-- D of BLSR (R113). -/
def blsrValue {n : Nat} (s : BitVec n) : BitVec n := s &&& (s - 1)

/-- D of BLSMSK (R114). -/
def blsmskValue {n : Nat} (s : BitVec n) : BitVec n := s ^^^ (s - 1)

/-- D of BLSI (R115). -/
def blsiValue {n : Nat} (s : BitVec n) : BitVec n := -s &&& s

/-- D of ANDN (R116). -/
def andnValue {n : Nat} (v s : BitVec n) : BitVec n := ~~~v &&& s

/-- The index `n` of BZHI: V[7:0] (R117). -/
def bzhiIndex {n : Nat} (v : BitVec n) : Nat := v.toNat % 256

/-- D of BZHI (R117). -/
def bzhiValue {n : Nat} (s v : BitVec n) : BitVec n :=
  if bzhiIndex v ≤ n - 1 then s &&& maskBits n (bzhiIndex v) else s

/-- The loop of PEXT over the bits of mask and source, bit 0 first: a source bit under a mask bit goes to the next
place of the result (R118). -/
def pextBits : List Bool → List Bool → List Bool
  | m :: ms, b :: bs => if m then b :: pextBits ms bs else pextBits ms bs
  | _, _ => []

/-- D of PEXT: mask V, source S (R118, D13). -/
def pextValue {n : Nat} (v s : BitVec n) : BitVec n := ofBitList n (pextBits (bitList v) (bitList s))

/-- The loop of PDEP over the bits of the mask, bit 0 first: under a mask bit the result takes the next source bit,
elsewhere 0 (R119). -/
def pdepBits : List Bool → List Bool → List Bool
  | [], _ => []
  | true :: ms, b :: bs => b :: pdepBits ms bs
  | true :: ms, [] => false :: pdepBits ms []
  | false :: ms, bs => false :: pdepBits ms bs

/-- D of PDEP: mask V, source S (R119, D13). -/
def pdepValue {n : Nat} (v s : BitVec n) : BitVec n := ofBitList n (pdepBits (bitList v) (bitList s))

/-- P of MULX, the exact product (R120). -/
def mulxProduct {n : Nat} (s rdx : BitVec n) : Nat := s.toNat * rdx.toNat

/-- The low half of MULX (R120). -/
def mulxLow {n : Nat} (s rdx : BitVec n) : BitVec n := BitVec.ofNat n (mulxProduct s rdx)

/-- The high half of MULX (R120). -/
def mulxHigh {n : Nat} (s rdx : BitVec n) : BitVec n := BitVec.ofNat n (mulxProduct s rdx / 2 ^ n)

/-- D of BEXTR: start = V[7:0], length = V[15:8] (R121). -/
def bextrValue {n : Nat} (s v : BitVec n) : BitVec n :=
  if n ≤ v.toNat % 256 then 0
  else (s >>> (v.toNat % 256)) &&& maskBits n (min (v.toNat / 256 % 256) n)

/-- The count of SHLX, SARX and SHRX: V mod W (R122 to R124). -/
def shiftCount {n : Nat} (v : BitVec n) : Nat := v.toNat % n

/-- D of SHLX (R122). -/
def shlxValue {n : Nat} (s v : BitVec n) : BitVec n := s <<< shiftCount v

/-- D of SARX (R123). -/
def sarxValue {n : Nat} (s v : BitVec n) : BitVec n := s.sshiftRight (shiftCount v)

/-- D of SHRX (R124). -/
def shrxValue {n : Nat} (s v : BitVec n) : BitVec n := s >>> shiftCount v

/-- D of RORX, rotating by imm mod W (R125). -/
def rorxValue {n : Nat} (s : BitVec n) (imm : Byte) : BitVec n :=
  (s >>> (imm.toNat % n)) ||| (s <<< (n - imm.toNat % n))

end Sys2Proof.Machine
end

