-- ==== Sys2Proof/Config.lean ====
section
/-! DEFINITION. What the spec fixes as a number, what it leaves open as a parameter, and the free values.
A constant declared `opaque` has no body: nothing can be proved of its value. -/

namespace Sys2Proof.Config

/-- Bytes in the instruction window (10_state.md R36). -/
def windowBytes : Nat := 15

/-- The three settings of the open parameter `ymm_upper_effect` (92_eei_decisions.md D20). -/
inductive YmmUpperEffect where
  | zeroed
  | preserved
  | any
  deriving DecidableEq, Repr, Inhabited

/-- The open parameter `ymm_upper_effect` (00_scope.md R7, D20). FREE: assumption log 5. -/
opaque ymmUpperEffect : YmmUpperEffect

/-- The draws of AF and PF after the flag-writing BMI instructions (40_bmi.md R112, D12).
FREE: assumption log 4. -/
opaque freeBit : Nat → Bool

/-- The draws of the upper half of the register that aliases xmm0 when `ymmUpperEffect` is `any` (D20).
FREE: assumption log 5. -/
opaque freeHalf : Nat → BitVec 128

end Sys2Proof.Config
end

