-- ==== Sys2Proof/Syntax.lean ====
section
/-! DEFINITION. The instructions of the block as syntax: the descriptor that decoding yields
(30_encoding.md R97), one constructor of `Instr` per row of spec/opcode_table.json. -/

namespace Sys2Proof

/-- `ip_mode` (10_state.md R20, R32): 64-bit or 32-bit mode, an input of every invocation. -/
inductive IpMode where
  | m64
  | m32
  deriving DecidableEq, Repr

/-- The operand width of a BMI instruction (30_encoding.md R79). -/
inductive Width where
  | w32
  | w64
  deriving DecidableEq, Repr

/-- `W` as a number of bits. -/
abbrev Width.bits : Width → Nat
  | .w32 => 32
  | .w64 => 64

/-- `W/8`: the bytes a memory operand of width `W` has (20_memory.md R46). -/
abbrev Width.bytes : Width → Nat
  | .w32 => 4
  | .w64 => 8

/-- The displacement of an address with a base register (30_encoding.md R88). -/
inductive Disp where
  | none
  | d8 (d : BitVec 8)
  | d32 (d : BitVec 32)
  deriving DecidableEq, Repr

/-- The index part of a SIB byte: a register and the scale code (30_encoding.md R84). -/
structure Index where
  reg : Reg
  scale : BitVec 2
  deriving DecidableEq, Repr

/-- An effective-address recipe (30_encoding.md R83 to R89). -/
inductive Addr where
  /-- A base register without SIB byte (R83). -/
  | base (b : Reg) (d : Disp)
  /-- A SIB byte with a base register (R84). -/
  | sib (b : Reg) (i : Option Index) (d : Disp)
  /-- A SIB byte in the no-base encoding (R85a). -/
  | sibNoBase (i : Option Index) (d : BitVec 32)
  /-- Relative to the address after the instruction, M64 only (R86). -/
  | ripRel (d : BitVec 32)
  /-- An absolute 32-bit address, M32 only (R87). -/
  | abs (d : BitVec 32)
  deriving DecidableEq, Repr

/-- The ModRM.rm operand: a register (mod = 3, R82) or memory (R83). -/
inductive Operand where
  | reg (r : Reg)
  | mem (a : Addr)
  deriving DecidableEq, Repr

/-- The instructions (00_scope.md R2; operand order of 30_encoding.md R98). `w` is the operand width, `d` the
destination, `v` the vvvv operand, `src` the ModRM.rm operand, `a` the ModRM.reg vector register; `rex` says
whether the legacy form carries a REX byte, which counts in the length (R95). -/
inductive Instr where
  | blsr (w : Width) (d : Reg) (src : Operand)
  | blsmsk (w : Width) (d : Reg) (src : Operand)
  | blsi (w : Width) (d : Reg) (src : Operand)
  | andn (w : Width) (d v : Reg) (src : Operand)
  | bzhi (w : Width) (d : Reg) (src : Operand) (v : Reg)
  | pext (w : Width) (d v : Reg) (src : Operand)
  | pdep (w : Width) (d v : Reg) (src : Operand)
  | mulx (w : Width) (dhi dlo : Reg) (src : Operand)
  | bextr (w : Width) (d : Reg) (src : Operand) (v : Reg)
  | shlx (w : Width) (d : Reg) (src : Operand) (v : Reg)
  | sarx (w : Width) (d : Reg) (src : Operand) (v : Reg)
  | shrx (w : Width) (d : Reg) (src : Operand) (v : Reg)
  | rorx (w : Width) (d : Reg) (src : Operand) (imm : Byte)
  | pcmpestrm (rex : Bool) (a : Reg) (b : Operand) (imm : Byte)
  | pcmpestri (rex : Bool) (a : Reg) (b : Operand) (imm : Byte)
  | pcmpistrm (rex : Bool) (a : Reg) (b : Operand) (imm : Byte)
  | pcmpistri (rex : Bool) (a : Reg) (b : Operand) (imm : Byte)
  | vpcmpestrm (a : Reg) (b : Operand) (imm : Byte)
  | vpcmpestri (a : Reg) (b : Operand) (imm : Byte)
  | vpcmpistrm (a : Reg) (b : Operand) (imm : Byte)
  | vpcmpistri (a : Reg) (b : Operand) (imm : Byte)
  deriving DecidableEq, Repr

end Sys2Proof
end

