-- ==== Sys2Proof/WellFormed.lean ====
section
/-! DEFINITION. Which instruction terms the encoding admits in a mode (30_encoding.md R73, R76, R79, R83, R85 to
R87): exactly the descriptors that decoding can yield. -/

namespace Sys2Proof

/-- The selectors a mode has: 0 to 15 in M64, 0 to 7 in M32 (R76). -/
def Reg.wf (m : IpMode) (r : Reg) : Bool :=
  match m with
  | .m64 => true
  | .m32 => decide (r.val < 8)

/-- The low three bits of a selector, on which R83 and R85 test. -/
def Reg.low3 (r : Reg) : Nat := r.val % 8

/-- W = 64 only in M64 (R79). -/
def Width.wf (m : IpMode) (w : Width) : Bool :=
  match m, w with
  | .m32, .w64 => false
  | _, _ => true

/-- mod = 0 with low bits 101 is another form (R85a, R86, R87), so such a base needs a displacement. -/
def Disp.wf (b : Reg) (d : Disp) : Bool :=
  match d with
  | .none => decide (b.low3 ≠ 5)
  | _ => true

/-- An index names any register the mode has but 4, which means "no index" (R85b). -/
def Index.wf (m : IpMode) (i : Index) : Bool :=
  i.reg.wf m && decide (i.reg ≠ 4)

/-- No index, or a well-formed one. -/
def Index.wfOpt (m : IpMode) (i : Option Index) : Bool :=
  match i with
  | none => true
  | some i => i.wf m

/-- R83 (low bits 100 need a SIB byte), R85, R86 (M64), R87 (M32). -/
def Addr.wf (m : IpMode) (a : Addr) : Bool :=
  match a with
  | .base b d => b.wf m && decide (b.low3 ≠ 4) && d.wf b
  | .sib b i d => b.wf m && Index.wfOpt m i && d.wf b
  | .sibNoBase i _ => Index.wfOpt m i
  | .ripRel _ => decide (m = .m64)
  | .abs _ => decide (m = .m32)

/-- A register the mode has, or a well-formed address. -/
def Operand.wf (m : IpMode) (o : Operand) : Bool :=
  match o with
  | .reg r => r.wf m
  | .mem a => a.wf m

/-- The registers an address names. -/
def Addr.regs (a : Addr) : List Reg :=
  match a with
  | .base b _ => [b]
  | .sib b i _ => b :: (i.map Index.reg).toList
  | .sibNoBase i _ => (i.map Index.reg).toList
  | .ripRel _ => []
  | .abs _ => []

/-- The registers an operand names. -/
def Operand.regs (o : Operand) : List Reg :=
  match o with
  | .reg r => [r]
  | .mem a => a.regs

/-- A legacy form without REX byte names registers 0 to 7 only, and M32 has no REX (R70, R73). -/
def legacyWf (m : IpMode) (rex : Bool) (a : Reg) (b : Operand) : Bool :=
  a.wf m && b.wf m &&
    (if rex then decide (m = .m64) else a.wf .m32 && b.regs.all (Reg.wf .m32))

/-- The instruction terms of mode `m`. -/
def Instr.wf (m : IpMode) (i : Instr) : Bool :=
  match i with
  | .blsr w d src => w.wf m && d.wf m && src.wf m
  | .blsmsk w d src => w.wf m && d.wf m && src.wf m
  | .blsi w d src => w.wf m && d.wf m && src.wf m
  | .andn w d v src => w.wf m && d.wf m && v.wf m && src.wf m
  | .bzhi w d src v => w.wf m && d.wf m && v.wf m && src.wf m
  | .pext w d v src => w.wf m && d.wf m && v.wf m && src.wf m
  | .pdep w d v src => w.wf m && d.wf m && v.wf m && src.wf m
  | .mulx w dhi dlo src => w.wf m && dhi.wf m && dlo.wf m && src.wf m
  | .bextr w d src v => w.wf m && d.wf m && v.wf m && src.wf m
  | .shlx w d src v => w.wf m && d.wf m && v.wf m && src.wf m
  | .sarx w d src v => w.wf m && d.wf m && v.wf m && src.wf m
  | .shrx w d src v => w.wf m && d.wf m && v.wf m && src.wf m
  | .rorx w d src _ => w.wf m && d.wf m && src.wf m
  | .pcmpestrm rex a b _ => legacyWf m rex a b
  | .pcmpestri rex a b _ => legacyWf m rex a b
  | .pcmpistrm rex a b _ => legacyWf m rex a b
  | .pcmpistri rex a b _ => legacyWf m rex a b
  | .vpcmpestrm a b _ => a.wf m && b.wf m
  | .vpcmpestri a b _ => a.wf m && b.wf m
  | .vpcmpistrm a b _ => a.wf m && b.wf m
  | .vpcmpistri a b _ => a.wf m && b.wf m

end Sys2Proof
end

