-- ==== Sys2Proof/Decode.lean ====
section
/-! DEFINITION. Decoding (30_encoding.md R65 to R100): a total function from bytes to an instruction and the bytes
that follow it, or a named rejection. After it, in the same file, the encoder, written from the same tables, and
the instruction length (R95). -/

namespace Sys2Proof

/-- Why bytes are no instruction of the block (R94); the outcome itself records nothing (60_exceptions.md R201). -/
inductive Reject where
  /-- `win[0]` is not C4, C5 or 66 (R75). -/
  | firstByte
  /-- C4 or C5 in M32 without `win[1][7:6] = 11` (R76a). -/
  | notVexInM32
  /-- A map field other than 1, 2, 3 (R71). -/
  | mapField
  /-- VEX.L = 1 (R77). -/
  | vexL
  /-- No row of R91 or R93 has this map, pp, opcode and /reg (R94). -/
  | noRow
  /-- A vvvv field that must be 1111 and is not (R78). -/
  | unusedVvvv
  /-- The legacy form without `0F 3A` where it must stand (R74). -/
  | noEscape
  /-- A legacy opcode other than 60 to 63 (R74). -/
  | legacyOpcode
  /-- The bytes end inside the instruction; never with the 15 bytes of the window (R96). -/
  | truncated
  deriving DecidableEq, Repr

/-- The leading opcode map (R71). -/
inductive OpMap where
  | map0F
  | map0F38
  | map0F3A
  deriving DecidableEq, Repr

/-- The SIMD prefix selector (R72). -/
inductive Simd where
  | none
  | p66
  | pF3
  | pF2
  deriving DecidableEq, Repr

/-- `m-mmmm` (R71). -/
def opMapOfField (f : BitVec 5) : Option OpMap :=
  if f = 1 then some .map0F
  else if f = 2 then some .map0F38
  else if f = 3 then some .map0F3A
  else none

/-- The field value of a map (R71). -/
def opMapField (m : OpMap) : BitVec 5 :=
  match m with
  | .map0F => 1
  | .map0F38 => 2
  | .map0F3A => 3

/-- `pp` (R72). -/
def simdOfField (f : BitVec 2) : Simd :=
  if f = 0 then .none else if f = 1 then .p66 else if f = 2 then .pF3 else .pF2

/-- The field value of a SIMD prefix (R72). -/
def simdField (p : Simd) : BitVec 2 :=
  match p with
  | .none => 0
  | .p66 => 1
  | .pF3 => 2
  | .pF2 => 3

/-- The instructions that have a VEX encoding (R91, R93). -/
inductive VexOp where
  | blsr | blsmsk | blsi | andn | bzhi | pext | pdep | mulx | bextr | shlx | sarx | shrx | rorx
  | pcmpestrm | pcmpestri | pcmpistrm | pcmpistri
  deriving DecidableEq, Repr

/-- A row of the VEX opcode map: the tuple that selects it, whether its vvvv field is unused and must be 1111
(R78), and whether an immediate byte follows (R90). -/
structure VexRow where
  map : OpMap
  pp : Simd
  opcode : Byte
  /-- The /reg value of the /reg-extended trio, `none` for "any". -/
  ext : Option (BitVec 3)
  vvvvFixed : Bool
  imm8 : Bool
  deriving DecidableEq, Repr

/-- The admitted VEX tuples: the table of R91 (BLSR by 90_conflicts.md C1) and R93. -/
def vexRow (o : VexOp) : VexRow :=
  match o with
  | .blsr => ⟨.map0F38, .none, 0xF3, some 1, false, false⟩
  | .blsmsk => ⟨.map0F38, .none, 0xF3, some 2, false, false⟩
  | .blsi => ⟨.map0F38, .none, 0xF3, some 3, false, false⟩
  | .andn => ⟨.map0F38, .none, 0xF2, none, false, false⟩
  | .bzhi => ⟨.map0F38, .none, 0xF5, none, false, false⟩
  | .pext => ⟨.map0F38, .pF3, 0xF5, none, false, false⟩
  | .pdep => ⟨.map0F38, .pF2, 0xF5, none, false, false⟩
  | .mulx => ⟨.map0F38, .pF2, 0xF6, none, false, false⟩
  | .bextr => ⟨.map0F38, .none, 0xF7, none, false, false⟩
  | .shlx => ⟨.map0F38, .p66, 0xF7, none, false, false⟩
  | .sarx => ⟨.map0F38, .pF3, 0xF7, none, false, false⟩
  | .shrx => ⟨.map0F38, .pF2, 0xF7, none, false, false⟩
  | .rorx => ⟨.map0F3A, .pF2, 0xF0, none, true, true⟩
  | .pcmpestrm => ⟨.map0F3A, .p66, 0x60, none, true, true⟩
  | .pcmpestri => ⟨.map0F3A, .p66, 0x61, none, true, true⟩
  | .pcmpistrm => ⟨.map0F3A, .p66, 0x62, none, true, true⟩
  | .pcmpistri => ⟨.map0F3A, .p66, 0x63, none, true, true⟩

/-- Every VEX instruction once. -/
def vexOps : List VexOp :=
  [.blsr, .blsmsk, .blsi, .andn, .bzhi, .pext, .pdep, .mulx, .bextr, .shlx, .sarx, .shrx, .rorx,
   .pcmpestrm, .pcmpestri, .pcmpistrm, .pcmpistri]

/-- Does this tuple select the row? `ModRM.reg` counts only for the /reg-extended trio (R91). -/
def vexRowMatches (row : VexRow) (map : OpMap) (pp : Simd) (opcode : Byte) (reg : BitVec 3) : Bool :=
  decide (row.map = map) && decide (row.pp = pp) && decide (row.opcode = opcode) &&
    (match row.ext with
     | none => true
     | some e => decide (e = reg))

/-- The dispatcher, "a pure function of (leading-opcode-map, SIMD-prefix, primary-opcode, optionally ModRM.reg)"
(R91, R93, R94). -/
def vexDispatch (map : OpMap) (pp : Simd) (opcode : Byte) (reg : BitVec 3) : Option VexOp :=
  vexOps.find? fun o => vexRowMatches (vexRow o) map pp opcode reg

/-! ### Fields of registers and bytes -/

/-- A selector from its extension bit and its 3-bit field (R70, R81, R82, R84). -/
def mkReg (hi : BitVec 1) (lo : BitVec 3) : Reg := (hi ++ lo).toFin

/-- The extension bit of a selector. -/
def regHi (r : Reg) : BitVec 1 := (BitVec.ofFin (w := 4) r).extractLsb' 3 1

/-- The 3-bit field of a selector. -/
def regLo (r : Reg) : BitVec 3 := (BitVec.ofFin (w := 4) r).extractLsb' 0 3

/-- An extension bit as the mode takes it: 0 in M32 whatever the bit (R76b). -/
def extBit (m : IpMode) (b : BitVec 1) : BitVec 1 :=
  match m with
  | .m64 => b
  | .m32 => 0

/-- The vvvv operand from its raw field: inverted (R69), and without its bit 3 in M32 (R76c). -/
def vvvvReg (m : IpMode) (raw : BitVec 4) : Reg :=
  mkReg (extBit m ((~~~raw).extractLsb' 3 1)) ((~~~raw).extractLsb' 0 3)

/-- W_op (R79). -/
def widthOf (m : IpMode) (w : BitVec 1) : Width :=
  match m with
  | .m64 => if w = 1 then .w64 else .w32
  | .m32 => .w32

/-- Four bytes, least significant first (R66). -/
def le32 (b0 b1 b2 b3 : Byte) : BitVec 32 := b3 ++ b2 ++ b1 ++ b0

/-- The four bytes of a displacement in instruction order (R66). -/
def bytesOf32 (d : BitVec 32) : List Byte :=
  [d.extractLsb' 0 8, d.extractLsb' 8 8, d.extractLsb' 16 8, d.extractLsb' 24 8]

/-! ### ModRM, SIB, displacement -/

/-- A 32-bit displacement and the bytes after it. -/
def takeDisp32 (bs : List Byte) : Option (BitVec 32 × List Byte) :=
  match bs with
  | b0 :: b1 :: b2 :: b3 :: rest => some (le32 b0 b1 b2 b3, rest)
  | _ => none

/-- The displacement that mod selects (R88). -/
def takeDisp (mod : BitVec 2) (bs : List Byte) : Option (Disp × List Byte) :=
  if mod = 0 then some (.none, bs)
  else if mod = 1 then
    match bs with
    | b :: rest => some (.d8 b, rest)
    | [] => none
  else
    match takeDisp32 bs with
    | some (d, rest) => some (.d32 d, rest)
    | none => none

/-- The index part of a SIB byte: `index_full = 0100` means none (R84, R85b). -/
def decodeIndex (x : BitVec 1) (sib : Byte) : Option Index :=
  if mkReg x (sib.extractLsb' 3 3) = 4 then none
  else some ⟨mkReg x (sib.extractLsb' 3 3), sib.extractLsb' 6 2⟩

/-- The memory operand of a SIB byte (R84, R85, R88). -/
def decodeSib (mod : BitVec 2) (x b : BitVec 1) (sib : Byte) (bs : List Byte) : Option (Addr × List Byte) :=
  if mod = 0 ∧ sib.extractLsb' 0 3 = 5 then
    match takeDisp32 bs with
    | some (d, rest) => some (.sibNoBase (decodeIndex x sib) d, rest)
    | none => none
  else
    match takeDisp mod bs with
    | some (d, rest) => some (.sib (mkReg b (sib.extractLsb' 0 3)) (decodeIndex x sib) d, rest)
    | none => none

/-- The memory operand of a ModRM byte with mod ≠ 3 (R83 to R88). -/
def decodeAddr (m : IpMode) (x b : BitVec 1) (mod : BitVec 2) (rm : BitVec 3) (bs : List Byte) :
    Option (Addr × List Byte) :=
  if rm = 4 then
    match bs with
    | sib :: rest => decodeSib mod x b sib rest
    | [] => none
  else if mod = 0 ∧ rm = 5 then
    match takeDisp32 bs with
    | some (d, rest) =>
      some (match m with
        | .m64 => .ripRel d
        | .m32 => .abs d, rest)
    | none => none
  else
    match takeDisp mod bs with
    | some (d, rest) => some (.base (mkReg b rm) d, rest)
    | none => none

/-- The ModRM.rm operand (R80, R82, R83). -/
def decodeOperand (m : IpMode) (x b : BitVec 1) (modrm : Byte) (bs : List Byte) : Option (Operand × List Byte) :=
  if modrm.extractLsb' 6 2 = 3 then some (.reg (mkReg b (modrm.extractLsb' 0 3)), bs)
  else
    match decodeAddr m x b (modrm.extractLsb' 6 2) (modrm.extractLsb' 0 3) bs with
    | some (a, rest) => some (.mem a, rest)
    | none => none

/-- The immediate byte, where the instruction has one (R90). -/
def takeImm (has : Bool) (bs : List Byte) : Option (Byte × List Byte) :=
  if has then
    match bs with
    | b :: rest => some (b, rest)
    | [] => none
  else some (0, bs)

/-! ### The VEX forms -/

/-- What a VEX prefix yields (R70), with vvvv as the raw, still inverted field and R, X, B inverted back and
taken as the mode takes them (R69, R76). -/
structure PrefixContext where
  w : BitVec 1
  map : OpMap
  pp : Simd
  raw : BitVec 4
  l : BitVec 1
  r : BitVec 1
  x : BitVec 1
  b : BitVec 1
  deriving DecidableEq, Repr

/-- The operands a VEX instruction was decoded with. -/
structure VexFields where
  w : Width
  reg : Reg
  vvvv : Reg
  rm : Operand
  imm : Byte
  deriving DecidableEq, Repr

/-- The instruction with its operand roles (R91, R93). -/
def vexInstr (o : VexOp) (f : VexFields) : Instr :=
  match o with
  | .blsr => .blsr f.w f.vvvv f.rm
  | .blsmsk => .blsmsk f.w f.vvvv f.rm
  | .blsi => .blsi f.w f.vvvv f.rm
  | .andn => .andn f.w f.reg f.vvvv f.rm
  | .bzhi => .bzhi f.w f.reg f.rm f.vvvv
  | .pext => .pext f.w f.reg f.vvvv f.rm
  | .pdep => .pdep f.w f.reg f.vvvv f.rm
  | .mulx => .mulx f.w f.reg f.vvvv f.rm
  | .bextr => .bextr f.w f.reg f.rm f.vvvv
  | .shlx => .shlx f.w f.reg f.rm f.vvvv
  | .sarx => .sarx f.w f.reg f.rm f.vvvv
  | .shrx => .shrx f.w f.reg f.rm f.vvvv
  | .rorx => .rorx f.w f.reg f.rm f.imm
  | .pcmpestrm => .vpcmpestrm f.reg f.rm f.imm
  | .pcmpestri => .vpcmpestri f.reg f.rm f.imm
  | .pcmpistrm => .vpcmpistrm f.reg f.rm f.imm
  | .pcmpistri => .vpcmpistri f.reg f.rm f.imm

/-- The operand and the immediate of a VEX instruction whose row is known. -/
def decodeVexOperands (m : IpMode) (p : PrefixContext) (o : VexOp) (modrm : Byte) (bs : List Byte) :
    Except Reject (Instr × List Byte) :=
  match decodeOperand m p.x p.b modrm bs with
  | none => .error .truncated
  | some (rm, bs) =>
    match takeImm (vexRow o).imm8 bs with
    | none => .error .truncated
    | some (imm, bs) =>
      .ok (vexInstr o ⟨widthOf m p.w, mkReg p.r (modrm.extractLsb' 3 3), vvvvReg m p.raw, rm, imm⟩, bs)

/-- Opcode, ModRM and what follows, after a VEX prefix (R77, R78, R91, R93, R97). -/
def decodeVexBody (m : IpMode) (p : PrefixContext) (bs : List Byte) : Except Reject (Instr × List Byte) :=
  match bs with
  | op :: modrm :: rest =>
    if p.l = 1 then .error .vexL
    else
      match vexDispatch p.map p.pp op (modrm.extractLsb' 3 3) with
      | none => .error .noRow
      | some o =>
        if (vexRow o).vvvvFixed ∧ p.raw ≠ 15 then .error .unusedVvvv
        else decodeVexOperands m p o modrm rest
  | _ => .error .truncated

/-- The bytes after C4 (R67, R69, R76). -/
def decodeVex3 (m : IpMode) (bs : List Byte) : Except Reject (Instr × List Byte) :=
  match bs with
  | b1 :: b2 :: rest =>
    if m = .m32 ∧ b1.extractLsb' 6 2 ≠ 3 then .error .notVexInM32
    else
      match opMapOfField (b1.extractLsb' 0 5) with
      | none => .error .mapField
      | some map =>
        decodeVexBody m
          { w := b2.extractLsb' 7 1
            map := map
            pp := simdOfField (b2.extractLsb' 0 2)
            raw := b2.extractLsb' 3 4
            l := b2.extractLsb' 2 1
            r := extBit m (~~~b1.extractLsb' 7 1)
            x := extBit m (~~~b1.extractLsb' 6 1)
            b := extBit m (~~~b1.extractLsb' 5 1) } rest
  | _ => .error .truncated

/-- The bytes after C5: map 0F, X = B = W = 0 (R68, R69, R76). No row has this map (R100). -/
def decodeVex2 (m : IpMode) (bs : List Byte) : Except Reject (Instr × List Byte) :=
  match bs with
  | b1 :: rest =>
    if m = .m32 ∧ b1.extractLsb' 6 2 ≠ 3 then .error .notVexInM32
    else
      decodeVexBody m
        { w := 0
          map := .map0F
          pp := simdOfField (b1.extractLsb' 0 2)
          raw := b1.extractLsb' 3 4
          l := b1.extractLsb' 2 1
          r := extBit m (~~~b1.extractLsb' 7 1)
          x := 0
          b := 0 } rest
  | _ => .error .truncated

/-! ### The legacy form -/

/-- The four instructions of the legacy form. -/
inductive LegacyOp where
  | pcmpestrm | pcmpestri | pcmpistrm | pcmpistri
  deriving DecidableEq, Repr

/-- The opcode of a legacy form (R92). -/
def legacyOpcode (o : LegacyOp) : Byte :=
  match o with
  | .pcmpestrm => 0x60
  | .pcmpestri => 0x61
  | .pcmpistrm => 0x62
  | .pcmpistri => 0x63

/-- The legacy form of an opcode (R74, R92). -/
def legacyDispatch (op : Byte) : Option LegacyOp :=
  [LegacyOp.pcmpestrm, .pcmpestri, .pcmpistrm, .pcmpistri].find? fun o => decide (legacyOpcode o = op)

/-- The instruction with its operands (R92). -/
def legacyInstr (o : LegacyOp) (rex : Bool) (a : Reg) (b : Operand) (imm : Byte) : Instr :=
  match o with
  | .pcmpestrm => .pcmpestrm rex a b imm
  | .pcmpestri => .pcmpestri rex a b imm
  | .pcmpistrm => .pcmpistrm rex a b imm
  | .pcmpistri => .pcmpistri rex a b imm

/-- `0F 3A op` and what follows (R74, R92). -/
def decodeEscape (m : IpMode) (rex : Bool) (r x b : BitVec 1) (bs : List Byte) : Except Reject (Instr × List Byte) :=
  match bs with
  | e1 :: e2 :: op :: modrm :: rest =>
    if e1 ≠ 0x0F ∨ e2 ≠ 0x3A then .error .noEscape
    else
      match legacyDispatch op with
      | none => .error .legacyOpcode
      | some o =>
        match decodeOperand m x b modrm rest with
        | none => .error .truncated
        | some (rm, rest) =>
          match takeImm true rest with
          | none => .error .truncated
          | some (imm, rest) => .ok (legacyInstr o rex (mkReg r (modrm.extractLsb' 3 3)) rm imm, rest)
  | _ => .error .truncated

/-- The bytes after 66: a REX byte 40 to 4F in M64 only, whose W is ignored (R73). -/
def decodeLegacy (m : IpMode) (bs : List Byte) : Except Reject (Instr × List Byte) :=
  match bs with
  | b1 :: rest =>
    if m = .m64 ∧ b1.extractLsb' 4 4 = 4 then
      decodeEscape m true (b1.extractLsb' 2 1) (b1.extractLsb' 1 1) (b1.extractLsb' 0 1) rest
    else decodeEscape m false 0 0 0 (b1 :: rest)
  | [] => .error .truncated

/-! ### Decoding -/

/-- One instruction and the bytes after it (R65, R75, R97). -/
def decodeBytes (m : IpMode) (bs : List Byte) : Except Reject (Instr × List Byte) :=
  match bs with
  | b0 :: rest =>
    if b0 = 0xC4 then decodeVex3 m rest
    else if b0 = 0xC5 then decodeVex2 m rest
    else if b0 = 0x66 then decodeLegacy m rest
    else .error .firstByte
  | [] => .error .truncated

/-- The instruction that the window holds (R97). -/
def decode (m : IpMode) (bs : List Byte) : Except Reject Instr :=
  match decodeBytes m bs with
  | .ok (i, _) => .ok i
  | .error e => .error e

/-! ### Encoding -/

/-- The fields that an operand puts into the instruction: X, B, mod, rm, and the SIB and displacement bytes. -/
structure OperandBits where
  x : BitVec 1
  b : BitVec 1
  mod : BitVec 2
  rm : BitVec 3
  tail : List Byte
  deriving DecidableEq, Repr

/-- The mod value of a displacement (R88). -/
def dispMod (d : Disp) : BitVec 2 :=
  match d with
  | .none => 0
  | .d8 _ => 1
  | .d32 _ => 2

/-- The bytes of a displacement (R66, R88). -/
def dispBytes (d : Disp) : List Byte :=
  match d with
  | .none => []
  | .d8 d => [d]
  | .d32 d => bytesOf32 d

/-- The X bit of an index; 0 for "no index" (R85b). -/
def indexHi (i : Option Index) : BitVec 1 :=
  match i with
  | none => 0
  | some i => regHi i.reg

/-- A SIB byte; "no index" is index 100 (R84, R85b). -/
def sibByte (i : Option Index) (base : BitVec 3) : Byte :=
  match i with
  | none => (0#2 ++ 4#3 ++ base : BitVec 8)
  | some i => (i.scale ++ regLo i.reg ++ base : BitVec 8)

/-- The encoding of an operand (R82 to R88). -/
def encodeOperand (o : Operand) : OperandBits :=
  match o with
  | .reg r => ⟨0, regHi r, 3, regLo r, []⟩
  | .mem (.base b d) => ⟨0, regHi b, dispMod d, regLo b, dispBytes d⟩
  | .mem (.sib b i d) => ⟨indexHi i, regHi b, dispMod d, 4, sibByte i (regLo b) :: dispBytes d⟩
  | .mem (.sibNoBase i d) => ⟨indexHi i, 0, 0, 4, sibByte i 5 :: bytesOf32 d⟩
  | .mem (.ripRel d) => ⟨0, 0, 0, 5, bytesOf32 d⟩
  | .mem (.abs d) => ⟨0, 0, 0, 5, bytesOf32 d⟩

/-- The ModRM byte (R80). -/
def modrmByte (mod : BitVec 2) (reg rm : BitVec 3) : Byte := (mod ++ reg ++ rm : BitVec 8)

/-- The W bit of a width (R79). -/
def widthBit (w : Width) : BitVec 1 :=
  match w with
  | .w32 => 0
  | .w64 => 1

/-- A VEX instruction (R65, R67, R69): the fields of its row, its operands, and `reg` or the row's /reg value. -/
def encodeVex (o : VexOp) (w : Width) (reg vvvv : Reg) (rm : Operand) (imm : List Byte) : List Byte :=
  let row := vexRow o
  let f := encodeOperand rm
  let r := if row.ext.isSome then 0 else regHi reg
  let lo := row.ext.getD (regLo reg)
  0xC4 :: (~~~r ++ ~~~f.x ++ ~~~f.b ++ opMapField row.map : BitVec 8) ::
    (widthBit w ++ ~~~BitVec.ofFin (w := 4) vvvv ++ 0#1 ++ simdField row.pp : BitVec 8) ::
    row.opcode :: modrmByte f.mod lo f.rm :: (f.tail ++ imm)

/-- A legacy string compare (R65, R73, R74, R92). -/
def encodeLegacy (o : LegacyOp) (rex : Bool) (a : Reg) (b : Operand) (imm : Byte) : List Byte :=
  let f := encodeOperand b
  let body := [0x0F, 0x3A, legacyOpcode o, modrmByte f.mod (regLo a) f.rm] ++ (f.tail ++ [imm])
  if rex then 0x66 :: (4#4 ++ 0#1 ++ regHi a ++ f.x ++ f.b : BitVec 8) :: body else 0x66 :: body

/-- The bytes of an instruction, in the one form the model writes where the encoding leaves bits ignored (W of the
VEX compares and REX.W are 0, the scale of "no index" is 0, unused extension bits are 0). -/
def encode (i : Instr) : List Byte :=
  match i with
  | .blsr w d src => encodeVex .blsr w 0 d src []
  | .blsmsk w d src => encodeVex .blsmsk w 0 d src []
  | .blsi w d src => encodeVex .blsi w 0 d src []
  | .andn w d v src => encodeVex .andn w d v src []
  | .bzhi w d src v => encodeVex .bzhi w d v src []
  | .pext w d v src => encodeVex .pext w d v src []
  | .pdep w d v src => encodeVex .pdep w d v src []
  | .mulx w dhi dlo src => encodeVex .mulx w dhi dlo src []
  | .bextr w d src v => encodeVex .bextr w d v src []
  | .shlx w d src v => encodeVex .shlx w d v src []
  | .sarx w d src v => encodeVex .sarx w d v src []
  | .shrx w d src v => encodeVex .shrx w d v src []
  | .rorx w d src imm => encodeVex .rorx w d 0 src [imm]
  | .pcmpestrm rex a b imm => encodeLegacy .pcmpestrm rex a b imm
  | .pcmpestri rex a b imm => encodeLegacy .pcmpestri rex a b imm
  | .pcmpistrm rex a b imm => encodeLegacy .pcmpistrm rex a b imm
  | .pcmpistri rex a b imm => encodeLegacy .pcmpistri rex a b imm
  | .vpcmpestrm a b imm => encodeVex .pcmpestrm .w32 a 0 b [imm]
  | .vpcmpestri a b imm => encodeVex .pcmpestri .w32 a 0 b [imm]
  | .vpcmpistrm a b imm => encodeVex .pcmpistrm .w32 a 0 b [imm]
  | .vpcmpistri a b imm => encodeVex .pcmpistri .w32 a 0 b [imm]

/-! ### Length -/

/-- `d` of R95 for an address with a displacement of its own size. -/
def dispLength (d : Disp) : Nat :=
  match d with
  | .none => 0
  | .d8 _ => 1
  | .d32 _ => 4

/-- `s + d` of R95: the SIB and displacement bytes of an operand. -/
def operandLength (o : Operand) : Nat :=
  match o with
  | .reg _ => 0
  | .mem (.base _ d) => dispLength d
  | .mem (.sib _ _ d) => 1 + dispLength d
  | .mem (.sibNoBase _ _) => 1 + 4
  | .mem (.ripRel _) => 4
  | .mem (.abs _) => 4

/-- The length of a VEX form: prefix 3, opcode 1, ModRM 1, SIB and displacement, immediate (R95). -/
def vexLength (src : Operand) (imm8 : Bool) : Nat :=
  3 + 1 + 1 + operandLength src + (if imm8 then 1 else 0)

/-- The length of a legacy form: prefix and escape bytes 3, or 4 with REX, then as above with an immediate (R95). -/
def legacyLength (rex : Bool) (b : Operand) : Nat :=
  (if rex then 4 else 3) + 1 + 1 + operandLength b + 1

/-- The length of an instruction (R95). -/
def instrLength (i : Instr) : Nat :=
  match i with
  | .blsr _ _ src => vexLength src false
  | .blsmsk _ _ src => vexLength src false
  | .blsi _ _ src => vexLength src false
  | .andn _ _ _ src => vexLength src false
  | .bzhi _ _ src _ => vexLength src false
  | .pext _ _ _ src => vexLength src false
  | .pdep _ _ _ src => vexLength src false
  | .mulx _ _ _ src => vexLength src false
  | .bextr _ _ src _ => vexLength src false
  | .shlx _ _ src _ => vexLength src false
  | .sarx _ _ src _ => vexLength src false
  | .shrx _ _ src _ => vexLength src false
  | .rorx _ _ src _ => vexLength src true
  | .pcmpestrm rex _ b _ => legacyLength rex b
  | .pcmpestri rex _ b _ => legacyLength rex b
  | .pcmpistrm rex _ b _ => legacyLength rex b
  | .pcmpistri rex _ b _ => legacyLength rex b
  | .vpcmpestrm _ b _ => vexLength b true
  | .vpcmpestri _ b _ => vexLength b true
  | .vpcmpistrm _ b _ => vexLength b true
  | .vpcmpistri _ b _ => vexLength b true

/-! ### Words of the opcode table -/

/-- The window of an instruction whose first `nbits` bits are `w`, byte k being bits 8k+7..8k, and every later
bit 0. -/
def tableBytes (nbits w : Nat) : List Byte :=
  (List.range Config.windowBytes).map fun k => BitVec.ofNat 8 (w % 2 ^ nbits / 2 ^ (8 * k))

/-- The instruction the decoder reads from such a window, in the mode of State.reset (M64). -/
def decodeTableWord (nbits w : Nat) : Option Instr :=
  match decode .m64 (tableBytes nbits w) with
  | .ok i => some i
  | .error _ => none

end Sys2Proof
end

