-- ==== Sys2Proof/Machine/State.lean ====
section
/-! DEFINITION. The state of the machine as plain data: the snapshot, the vector registers, the mode and the
window the block is given (10_state.md R20, R31, R36; 70_reset_and_hazards.md R230), the thread's memory as the
accessor answers it (20_memory.md R42, R45), and what other agents are about to do to it (R50). -/

namespace Sys2Proof.Machine

/-- The flags register as far as the spec names its bits (10_state.md R27). The block writes the first six and
touches none of the others. -/
structure Flags where
  cf : Bool
  pf : Bool
  af : Bool
  zf : Bool
  sf : Bool
  of : Bool
  tf : Bool
  ifl : Bool
  df : Bool
  rf : Bool
  deriving DecidableEq, Repr

/-- Memory: the mapped bytes, addresses strictly rising; an address not listed is unmapped, and a read of it
fails (20_memory.md R45). -/
abbrev Memory := List Host.Cell

/-- What another agent does to one byte of the address space (R50): it stores, mapping the address if it was not,
or it unmaps. -/
inductive MemEvent where
  | store (addr : Word) (byte : Byte)
  | unmap (addr : Word)
  deriving DecidableEq, Repr

/-- The machine. -/
structure State where
  /-- The general registers (R20, R21). -/
  x : Vector Word 16
  /-- FLAGS (R27). -/
  flags : Flags
  /-- The instruction pointer (R29). -/
  rip : Word
  /-- The vector registers (R31). -/
  xmm : Vector Vec 16
  /-- Bits 255:128 of the register that aliases `xmm[0]`, the object of `ymm_upper_effect` (92_eei_decisions.md D20). -/
  ymm0Upper : BitVec 128
  /-- `ip_mode` (R32). -/
  mode : IpMode
  /-- `win[0..14]`, as last captured (R36). -/
  win : Vector Byte 15
  /-- The address space of the thread (20_memory.md R42). -/
  mem : Memory
  /-- What other agents do to memory: the head of the list at their next turn, and so on (R50, R57). -/
  others : List (List MemEvent)
  /-- The model's own: the index of the next free value (assumption log 4). -/
  draws : Nat
  deriving DecidableEq, Repr

/-- Why the machine stops with a fault. -/
inductive Fault where
  /-- The one memory read of an instruction failed (60_exceptions.md R202); it records the effective address and
  the size. Raised by every meaning with a memory operand. Safe: the spec ends the invocation here (R209). -/
  | accessFault (addr : Word) (size : Nat)
  /-- The bytes of the instruction at this address cannot all be captured, so the caller cannot call the block
  (70_reset_and_hazards.md R231). Raised by `step` alone. Safe: the run stops. -/
  | windowUnreadable (addr : Word)
  deriving DecidableEq, Repr

/-- Why the machine refuses. -/
inductive Refusal where
  /-- The outcome Unrecognized (R201, R208): the bytes are no instruction of the block. Raised by `emulate` alone.
  Safe: the spec ends the invocation here and leaves the delivery of the original fault to the caller. -/
  | unrecognized
  /-- An instruction whose meaning is not written; raised by an arm of `exec` alone. Safe. -/
  | notModelled (mnemonic : String)
  deriving DecidableEq, Repr

/-- All named flags clear. -/
def Flags.clear : Flags :=
  { cf := false, pf := false, af := false, zf := false, sf := false, of := false
    tf := false, ifl := false, df := false, rf := false }

/-- The state after reset. The block has no reset (R41, R230): every value here is the model's choice
(assumption log 1), and memory has nothing mapped (log 7). -/
def State.reset : State :=
  { x := Vector.replicate 16 0
    flags := Flags.clear
    rip := 0
    xmm := Vector.replicate 16 0
    ymm0Upper := 0
    mode := .m64
    win := Vector.replicate 15 0
    mem := []
    others := []
    draws := 0 }

end Sys2Proof.Machine
end

