-- ==== Sys2Proof/Machine/Ops.lean ====
section
/-! DEFINITION. The named operations over registers and memory: the primitives of 00_scope.md R10, the memory
accessor (20_memory.md R45), the turns of other agents (R50), and what the caller does around an invocation:
capturing the window (70_reset_and_hazards.md R231, R232) and advancing the instruction pointer (10_state.md R30).
The block takes no trap and has no return instruction (60_exceptions.md R206, R207), so these two stand where
another machine has exception entry and return. -/

namespace Sys2Proof.Machine

/-! ### Registers -/

/-- `read_W` (R22). -/
def readReg (w : Width) (r : Reg) (s : State) : BitVec w.bits := s.x[r].setWidth w.bits

/-- `write_W` (R23: at width 32 the upper half becomes zero; R24). -/
def writeReg (w : Width) (r : Reg) (v : BitVec w.bits) (s : State) : State :=
  { s with x := s.x.set r (v.setWidth 64) }

/-- `xmm[r]` (R31). -/
def readXmm (r : Reg) (s : State) : Vec := s.xmm[r]

/-- `xmm[r] <- v` (R31). -/
def writeXmm (r : Reg) (v : Vec) (s : State) : State := { s with xmm := s.xmm.set r v }

/-! ### Addresses -/

/-- `trunc_AW` (30_encoding.md R89): 64-bit addresses in M64, 32-bit in M32. -/
def truncAddr (m : IpMode) (a : Word) : Word :=
  match m with
  | .m64 => a
  | .m32 => (a.setWidth 32).setWidth 64

/-! ### Memory -/

/-- The byte at an address, `none` where nothing is mapped. -/
def Memory.get : Memory → Nat → Option Byte
  | [], _ => none
  | (k, b) :: m, a => if k = a then some b else Memory.get m a

/-- Memory with a byte stored, keeping the addresses rising. -/
def Memory.put : Memory → Nat → Byte → Memory
  | [], a, v => [(a, v)]
  | (k, b) :: m, a, v =>
    if a < k then (a, v) :: (k, b) :: m
    else if a = k then (a, v) :: m
    else (k, b) :: Memory.put m a v

/-- Memory with an address unmapped. -/
def Memory.remove : Memory → Nat → Memory
  | [], _ => []
  | (k, b) :: m, a => if k = a then Memory.remove m a else (k, b) :: Memory.remove m a

/-- Addresses rise strictly from `lo` on and are 64-bit addresses. -/
def Memory.risesFrom : Nat → Memory → Bool
  | _, [] => true
  | lo, (k, _) :: m => decide (lo ≤ k) && decide (k < 2 ^ 64) && Memory.risesFrom (k + 1) m

/-- The canonical form: addresses strictly rising, each below 2^64. Every listed byte is mapped and an unlisted
address is not, so no entry equals what an unlisted address reads as. -/
def Memory.wf (m : Memory) : Bool := Memory.risesFrom 0 m

/-- The `n` bytes at `a, a+1, …`, each address modulo the address width; `none` if any is unmapped: one request
that succeeds or fails as a whole (R45, R47). -/
def Memory.read (m : IpMode) (mem : Memory) (a : Word) : Nat → Option (List Byte)
  | 0 => some []
  | n + 1 =>
    match Memory.get mem (truncAddr m a).toNat, Memory.read m mem (a + 1) n with
    | some b, some bs => some (b :: bs)
    | _, _ => none

/-- The leading bytes of the `n` at `a, a+1, …` that are mapped, up to the first that is not. DESIGN CHOICE: each address
is taken modulo the address width, so a window at the top of the address space goes on at address 0; the spec states
the modulo for MemRead, the effective address and the advance, and not for the capture of the window (assumption log
15, unsafe). -/
def Memory.readable (m : IpMode) (mem : Memory) (a : Word) : Nat → List Byte
  | 0 => []
  | n + 1 =>
    match Memory.get mem (truncAddr m a).toNat with
    | some b => b :: Memory.readable m mem (a + 1) n
    | none => []

/-- Bytes stored at `a, a+1, …`. -/
def Memory.store (m : IpMode) (mem : Memory) (a : Word) : List Byte → Memory
  | [] => mem
  | b :: bs => Memory.store m (Memory.put mem (truncAddr m a).toNat b) (a + 1) bs

/-- The bytes of `MemRead(addr, n)` (R10, R45). -/
def memRead (a : Word) (n : Nat) (s : State) : Option (List Byte) := Memory.read s.mode s.mem a n

/-- `MemWrite(addr, n, v)` (R10, R48): the write direction of the accessor, which fails as a whole unless all the
bytes are mapped. No instruction of the block calls it. -/
def memWrite (a : Word) (bs : List Byte) (s : State) : Option State :=
  match memRead a bs.length s with
  | some _ => some { s with mem := Memory.store s.mode s.mem a bs }
  | none => none

/-! ### Other agents -/

/-- One event of another agent (R50). -/
def applyEvent (mem : Memory) (e : MemEvent) : Memory :=
  match e with
  | .store a b => Memory.put mem a.toNat b
  | .unmap a => Memory.remove mem a.toNat

/-- The next turn of the other agents: everything they do to memory until the block or the caller looks at it
again (R50, R57). With no turn pending nothing happens. -/
def othersTurn (s : State) : State :=
  match s.others with
  | [] => s
  | es :: rest => { s with mem := es.foldl applyEvent s.mem, others := rest }

/-! ### The caller: window and advance -/

/-- The mapped bytes at the instruction pointer, at most 15 (R231), wrapping at the top of the address space (DESIGN
CHOICE, assumption log 15). -/
def bytesAtRip (s : State) : List Byte := Memory.readable s.mode s.mem s.rip Config.windowBytes

/-- A captured window as its 15 bytes; a place past the readable bytes holds 0, and no instruction is decoded
from it (assumption log 9). -/
def padWindow (bs : List Byte) : Vector Byte 15 := Vector.ofFn fun i => bs.getD i.val 0

/-- Can the block be called on these bytes: all 15 are there (R231), or a whole instruction lies in the ones that
are (R96: the decoder needs no byte past it; assumption log 9). -/
def callable (m : IpMode) (bs : List Byte) : Bool :=
  decide (bs.length = Config.windowBytes) ||
    (match decodeBytes m bs with
     | .ok _ => true
     | .error _ => false)

/-- The caller captures the window at the instruction pointer (R36, R232 step 2). -/
def captureWindow (s : State) : Option State :=
  if callable s.mode (bytesAtRip s) then some { s with win := padWindow (bytesAtRip s) } else none

/-- The caller advances the instruction pointer by the consumed bytes (R30). -/
def advance (n : Nat) (s : State) : State :=
  { s with rip := truncAddr s.mode (s.rip + BitVec.ofNat 64 n) }

/-- Bytes placed where the next window is captured, wrapping as the capture does (assumption log 15). -/
def placeAtRip (bs : List Byte) (s : State) : State :=
  { s with mem := Memory.store s.mode s.mem s.rip bs }

end Sys2Proof.Machine
end

