-- ==== Sys2Proof/Machine/Flags.lean ====
section
/-! DEFINITION. The flag computations (10_state.md R28, 40_bmi.md R112, 45_pcmpstr.md R180) and the positions of the
six arithmetic flags (10_state.md R27). -/

namespace Sys2Proof.Machine

/-- The six arithmetic flags at their positions in RFLAGS: CF 0, PF 2, AF 4, ZF 6, SF 7, OF 11 (R27); the other
places of this view are 0. -/
def arithFlags (f : Flags) : BitVec 12 :=
  BitVec.ofBool f.of ++ 0#3 ++ BitVec.ofBool f.sf ++ BitVec.ofBool f.zf ++ 0#1 ++ BitVec.ofBool f.af ++ 0#1 ++
    BitVec.ofBool f.pf ++ 0#1 ++ BitVec.ofBool f.cf

/-- The flags of BLSR, BLSMSK, BLSI, ANDN, BZHI and BEXTR: CF, ZF, SF as the rule says, OF = 0, and AF and PF each a
fresh free value (R112, D12; assumption log 4). -/
def writeBmiFlags (cf zf sf : Bool) (s : State) : State :=
  { s with
    flags := { s.flags with
      cf := cf
      zf := zf
      sf := sf
      of := false
      af := Config.freeBit s.draws
      pf := Config.freeBit (s.draws + 1) }
    draws := s.draws + 2 }

/-- The flags of every string compare: AF = PF = 0 and the other four as given (R180). -/
def writePcmpFlags (cf zf sf of : Bool) (s : State) : State :=
  { s with
    flags := { s.flags with
      cf := cf
      zf := zf
      sf := sf
      of := of
      af := false
      pf := false } }

end Sys2Proof.Machine
end

