-- ==== Sys2Proof/Machine/Operands.lean ====
section
/-! DEFINITION. Operands: the effective address (30_encoding.md R83 to R89) and the fetch of a general or vector
operand (40_bmi.md R110, 45_pcmpstr.md R162). `len` is the length of the whole instruction, which the RIP-relative
form needs (R86). -/

namespace Sys2Proof.Machine

/-- A displacement, sign-extended (R88). -/
def dispValue (d : Disp) : Word :=
  match d with
  | .none => 0
  | .d8 d => d.signExtend 64
  | .d32 d => d.signExtend 64

/-- `x[r][AW-1:0]` (R89). -/
def addrReg (r : Reg) (s : State) : Word := truncAddr s.mode s.x[r]

/-- The scaled index, or 0 without one (R89). -/
def scaledIndex (i : Option Index) (s : State) : Word :=
  match i with
  | none => 0
  | some i => addrReg i.reg s <<< i.scale.toNat

/-- The effective address (R86, R87, R89). -/
def effAddr (len : Nat) (a : Addr) (s : State) : Word :=
  match a with
  | .base b d => truncAddr s.mode (addrReg b s + dispValue d)
  | .sib b i d => truncAddr s.mode (addrReg b s + scaledIndex i s + dispValue d)
  | .sibNoBase i d => truncAddr s.mode (scaledIndex i s + d.signExtend 64)
  | .ripRel d => truncAddr s.mode (s.rip + BitVec.ofNat 64 len + d.signExtend 64)
  | .abs d => d.setWidth 64

/-- `MemRead(a, n)` or the AccessFault it raises (20_memory.md R45, 60_exceptions.md R202). -/
def loadBytes (a : Word) (n : Nat) (s : State) : Except Fault (List Byte) :=
  match memRead a n s with
  | some bs => .ok bs
  | none => .error (.accessFault a n)

/-- S: the register, or the W/8 bytes at the effective address (R110). -/
def readOperand (w : Width) (len : Nat) (o : Operand) (s : State) : Except Fault (BitVec w.bits) :=
  match o with
  | .reg r => .ok (readReg w r s)
  | .mem a =>
    match loadBytes (effAddr len a s) w.bytes s with
    | .ok bs => .ok (BitVec.ofNat w.bits (leNat bs))
    | .error f => .error f

/-- B: the vector register, or the 16 bytes at the effective address (R162). -/
def readVecOperand (len : Nat) (o : Operand) (s : State) : Except Fault Vec :=
  match o with
  | .reg r => .ok (readXmm r s)
  | .mem a =>
    match loadBytes (effAddr len a s) 16 s with
    | .ok bs => .ok (BitVec.ofNat 128 (leNat bs))
    | .error f => .error f

/-- An instruction that fetched its operand and commits `k` of it, or ends with the fault of the fetch and
commits nothing (60_exceptions.md R203, R205). -/
def withOperand {α : Type} (e : Except Fault α) (k : α → State) : Host.Outcome State Fault Refusal :=
  match e with
  | .ok v => .next (k v)
  | .error f => .fault f

end Sys2Proof.Machine
end

