-- ==== Sys2Proof/Machine/Bmi.lean ====
section
/-! DEFINITION. The meanings of the 13 BMI instructions (40_bmi.md R110 to R125): fetch S, compute, write the
destination, write the flags the rule names. -/

namespace Sys2Proof.Machine

/-- BLSR D, S (R113). -/
def execBlsr (w : Width) (d : Reg) (src : Operand) (s : State) : Host.Outcome State Fault Refusal :=
  withOperand (readOperand w (vexLength src false) src s) fun a =>
    writeBmiFlags (a == 0) (blsrValue a == 0) (blsrValue a).msb (writeReg w d (blsrValue a) s)

/-- BLSMSK D, S: ZF is 0 always (R114). -/
def execBlsmsk (w : Width) (d : Reg) (src : Operand) (s : State) : Host.Outcome State Fault Refusal :=
  withOperand (readOperand w (vexLength src false) src s) fun a =>
    writeBmiFlags (a == 0) false (blsmskValue a).msb (writeReg w d (blsmskValue a) s)

/-- BLSI D, S: CF is set when S is not 0 (R115). -/
def execBlsi (w : Width) (d : Reg) (src : Operand) (s : State) : Host.Outcome State Fault Refusal :=
  withOperand (readOperand w (vexLength src false) src s) fun a =>
    writeBmiFlags (a != 0) (blsiValue a == 0) (blsiValue a).msb (writeReg w d (blsiValue a) s)

/-- ANDN D, V, S (R116). -/
def execAndn (w : Width) (d v : Reg) (src : Operand) (s : State) : Host.Outcome State Fault Refusal :=
  withOperand (readOperand w (vexLength src false) src s) fun a =>
    writeBmiFlags false (andnValue (readReg w v s) a == 0) (andnValue (readReg w v s) a).msb
      (writeReg w d (andnValue (readReg w v s) a) s)

/-- BZHI D, S, V: CF says the index is past the width (R117). -/
def execBzhi (w : Width) (d : Reg) (src : Operand) (v : Reg) (s : State) : Host.Outcome State Fault Refusal :=
  withOperand (readOperand w (vexLength src false) src s) fun a =>
    writeBmiFlags (decide (w.bits - 1 < bzhiIndex (readReg w v s))) (bzhiValue a (readReg w v s) == 0)
      (bzhiValue a (readReg w v s)).msb (writeReg w d (bzhiValue a (readReg w v s)) s)

/-- PEXT D, V, S (R118). -/
def execPext (w : Width) (d v : Reg) (src : Operand) (s : State) : Host.Outcome State Fault Refusal :=
  withOperand (readOperand w (vexLength src false) src s) fun a =>
    writeReg w d (pextValue (readReg w v s) a) s

/-- PDEP D, V, S (R119). -/
def execPdep (w : Width) (d v : Reg) (src : Operand) (s : State) : Host.Outcome State Fault Refusal :=
  withOperand (readOperand w (vexLength src false) src s) fun a =>
    writeReg w d (pdepValue (readReg w v s) a) s

/-- MULX Dhi, Dlo, S with implicit rDX; one register for both takes the high half (R120). -/
def execMulx (w : Width) (dhi dlo : Reg) (src : Operand) (s : State) : Host.Outcome State Fault Refusal :=
  withOperand (readOperand w (vexLength src false) src s) fun a =>
    if dhi = dlo then writeReg w dhi (mulxHigh a (readReg w Reg.rdx s)) s
    else writeReg w dhi (mulxHigh a (readReg w Reg.rdx s)) (writeReg w dlo (mulxLow a (readReg w Reg.rdx s)) s)

/-- BEXTR D, S, V (R121). -/
def execBextr (w : Width) (d : Reg) (src : Operand) (v : Reg) (s : State) : Host.Outcome State Fault Refusal :=
  withOperand (readOperand w (vexLength src false) src s) fun a =>
    writeBmiFlags false (bextrValue a (readReg w v s) == 0) (bextrValue a (readReg w v s)).msb
      (writeReg w d (bextrValue a (readReg w v s)) s)

/-- SHLX D, S, V (R122). -/
def execShlx (w : Width) (d : Reg) (src : Operand) (v : Reg) (s : State) : Host.Outcome State Fault Refusal :=
  withOperand (readOperand w (vexLength src false) src s) fun a =>
    writeReg w d (shlxValue a (readReg w v s)) s

/-- SARX D, S, V (R123). -/
def execSarx (w : Width) (d : Reg) (src : Operand) (v : Reg) (s : State) : Host.Outcome State Fault Refusal :=
  withOperand (readOperand w (vexLength src false) src s) fun a =>
    writeReg w d (sarxValue a (readReg w v s)) s

/-- SHRX D, S, V (R124). -/
def execShrx (w : Width) (d : Reg) (src : Operand) (v : Reg) (s : State) : Host.Outcome State Fault Refusal :=
  withOperand (readOperand w (vexLength src false) src s) fun a =>
    writeReg w d (shrxValue a (readReg w v s)) s

/-- RORX D, S, imm8 (R125). -/
def execRorx (w : Width) (d : Reg) (src : Operand) (imm : Byte) (s : State) : Host.Outcome State Fault Refusal :=
  withOperand (readOperand w (vexLength src true) src s) fun a => writeReg w d (rorxValue a imm) s

end Sys2Proof.Machine
end

