-- ==== Sys2Proof/Machine/PcmpCore.lean ====
section
/-! DEFINITION. The shared core of the packed string compares (45_pcmpstr.md R160 to R175, R180): control byte,
elements, lengths, the cells of the compare matrix with their overrides, aggregation, polarity, and the two
outputs. Index i is a position in B, index j a position in A (R166, 90_conflicts.md C3). -/

namespace Sys2Proof.Machine

/-- The aggregation mode, IMM8[3:2] (R160). -/
inductive Aggregation where
  | equalAny
  | ranges
  | equalEach
  | equalOrdered
  deriving DecidableEq, Repr

/-- The polarity, IMM8[5:4]; 00 and 10 are both no-negate (R160, R172). -/
inductive Polarity where
  | noNegate
  | negate
  | maskNegate
  deriving DecidableEq, Repr

/-- The control byte by its fields (R160); bit 7 is ignored (D31). -/
structure PcmpControl where
  /-- IMM8[0]: 16-bit words instead of bytes. -/
  words : Bool
  /-- IMM8[1]: elements are signed. -/
  signed : Bool
  agg : Aggregation
  pol : Polarity
  /-- IMM8[6]: most significant set bit, or element mask. -/
  out : Bool
  deriving DecidableEq, Repr

/-- The aggregation code (R160). -/
def aggregationOf (f : BitVec 2) : Aggregation :=
  if f = 0 then .equalAny else if f = 1 then .ranges else if f = 2 then .equalEach else .equalOrdered

/-- The polarity code (R160). -/
def polarityOf (f : BitVec 2) : Polarity :=
  if f = 1 then .negate else if f = 3 then .maskNegate else .noNegate

/-- The fields of IMM8 (R160). -/
def pcmpControl (imm : Byte) : PcmpControl :=
  { words := imm.getLsbD 0
    signed := imm.getLsbD 1
    agg := aggregationOf (imm.extractLsb' 2 2)
    pol := polarityOf (imm.extractLsb' 4 2)
    out := imm.getLsbD 6 }

/-- `n`, the element count (R160). -/
def PcmpControl.count (c : PcmpControl) : Nat := if c.words then 8 else 16

/-- `w`, the element width in bits (R160). -/
def PcmpControl.elemBits (c : PcmpControl) : Nat := if c.words then 16 else 8

/-- The bits of element k (R160). -/
def pcmpElemBits (c : PcmpControl) (v : Vec) (k : Nat) : BitVec c.elemBits := v.extractLsb' (c.elemBits * k) c.elemBits

/-- Element k as the integer that the comparisons compare (R161). -/
def pcmpElem (c : PcmpControl) (v : Vec) (k : Nat) : Int :=
  if c.signed then (pcmpElemBits c v k).toInt else (pcmpElemBits c v k).toNat

/-- An explicit length: the magnitude of the low 32 bits of the register, saturated to the element count (R163). -/
def explicitLength (c : PcmpControl) (r : Reg) (s : State) : Nat :=
  min (readReg .w32 r s).toInt.natAbs c.count

/-- An implicit length: the index of the first zero element, or the element count (R164). -/
def implicitLength (c : PcmpControl) (v : Vec) : Nat :=
  ((List.range c.count).find? fun k => pcmpElemBits c v k == 0).getD c.count

/-- The raw value of the cell that compares b[i] with a[j] (R166). -/
def pcmpRaw (c : PcmpControl) (a b : Vec) (i j : Nat) : Bool :=
  match c.agg with
  | .ranges =>
    if j % 2 = 0 then decide (pcmpElem c a j ≤ pcmpElem c b i) else decide (pcmpElem c b i ≤ pcmpElem c a j)
  | _ => decide (pcmpElem c b i = pcmpElem c a j)

/-- `C(i, j)`: the raw value, or the override when a[j] or b[i] is invalid (R165, R167). -/
def pcmpCell (c : PcmpControl) (a b : Vec) (la lb : Nat) (i j : Nat) : Bool :=
  match decide (j < la), decide (i < lb) with
  | true, true => pcmpRaw c a b i j
  | false, true =>
    match c.agg with
    | .equalOrdered => true
    | _ => false
  | true, false => false
  | false, false =>
    match c.agg with
    | .equalEach => true
    | .equalOrdered => true
    | _ => false

/-- Bit i of IntRes1 (R168 to R171). -/
def pcmpAggregate (c : PcmpControl) (a b : Vec) (la lb : Nat) (i : Nat) : Bool :=
  match c.agg with
  | .equalAny => (List.range c.count).any fun j => pcmpCell c a b la lb i j
  | .ranges =>
    (List.range (c.count / 2)).any fun p => pcmpCell c a b la lb i (2 * p) && pcmpCell c a b la lb i (2 * p + 1)
  | .equalEach => pcmpCell c a b la lb i i
  | .equalOrdered => (List.range (c.count - i)).all fun j => pcmpCell c a b la lb (i + j) j

/-- IntRes1, one bit per element of B (R168 to R171). -/
def pcmpIntRes1 (c : PcmpControl) (a b : Vec) (la lb : Nat) : BitVec c.count :=
  ofBits c.count (pcmpAggregate c a b la lb)

/-- The polarity step (R172). -/
def pcmpPolarity (c : PcmpControl) (lb : Nat) (r : BitVec c.count) : BitVec c.count :=
  match c.pol with
  | .noNegate => r
  | .negate => r ^^^ maskBits c.count c.count
  | .maskNegate => r ^^^ maskBits c.count lb

/-- IntRes2 (R172, R175). -/
def pcmpIntRes2 (c : PcmpControl) (a b : Vec) (la lb : Nat) : BitVec c.count :=
  pcmpPolarity c lb (pcmpIntRes1 c a b la lb)

/-- The index output: the least or the greatest set bit of IntRes2, or the element count (R173). -/
def pcmpIndex (c : PcmpControl) (r : BitVec c.count) : Nat :=
  if c.out then ((List.range c.count).reverse.find? fun k => r.getLsbD k).getD c.count
  else ((List.range c.count).find? fun k => r.getLsbD k).getD c.count

/-- The mask output: IntRes2 zero-extended, or each bit broadcast over its element (R174). -/
def pcmpMask (c : PcmpControl) (r : BitVec c.count) : Vec :=
  if c.out then ofBits 128 fun i => r.getLsbD (i / c.elemBits) else r.setWidth 128

/-- The flags of every string compare (R180). -/
def pcmpFlags (c : PcmpControl) (la lb : Nat) (r : BitVec c.count) (s : State) : State :=
  writePcmpFlags (r != 0) (decide (lb < c.count)) (decide (la < c.count)) (r.getLsbD 0) s

/-- Commit an index form: ECX and the flags (R173, R180, R182). -/
def commitIndex (c : PcmpControl) (la lb : Nat) (r : BitVec c.count) (s : State) : State :=
  pcmpFlags c la lb r (writeReg .w32 Reg.rcx (BitVec.ofNat 32 (pcmpIndex c r)) s)

/-- Commit a mask form: xmm[0] and the flags (R174, R180, R182). -/
def commitMask (c : PcmpControl) (la lb : Nat) (r : BitVec c.count) (s : State) : State :=
  pcmpFlags c la lb r (writeXmm 0 (pcmpMask c r) s)

/-- The explicit-length index form of operands A and B (R176). -/
def pcmpEstri (c : PcmpControl) (a b : Vec) (s : State) : State :=
  let la := explicitLength c Reg.rax s
  let lb := explicitLength c Reg.rdx s
  commitIndex c la lb (pcmpIntRes2 c a b la lb) s

/-- The explicit-length mask form (R177). -/
def pcmpEstrm (c : PcmpControl) (a b : Vec) (s : State) : State :=
  let la := explicitLength c Reg.rax s
  let lb := explicitLength c Reg.rdx s
  commitMask c la lb (pcmpIntRes2 c a b la lb) s

/-- The implicit-length index form (R178). -/
def pcmpIstri (c : PcmpControl) (a b : Vec) (s : State) : State :=
  let la := implicitLength c a
  let lb := implicitLength c b
  commitIndex c la lb (pcmpIntRes2 c a b la lb) s

/-- The implicit-length mask form (R179). -/
def pcmpIstrm (c : PcmpControl) (a b : Vec) (s : State) : State :=
  let la := implicitLength c a
  let lb := implicitLength c b
  commitMask c la lb (pcmpIntRes2 c a b la lb) s

/-- What a VEX mask form does above bit 127 of its destination: the open parameter `ymm_upper_effect` (R185, D20;
assumption log 5). -/
def vexUpper (s : State) : State :=
  match Config.ymmUpperEffect with
  | .zeroed => { s with ymm0Upper := 0 }
  | .preserved => s
  | .any => { s with ymm0Upper := Config.freeHalf s.draws, draws := s.draws + 1 }

end Sys2Proof.Machine
end

