-- ==== Sys2Proof/Machine/Pcmpstr.lean ====
section
/-! DEFINITION. The meanings of the four packed string compares in their legacy form (45_pcmpstr.md R176 to R179):
fetch A and B, then the shared core. `rex` counts only in the length (30_encoding.md R95). -/

namespace Sys2Proof.Machine

/-- PCMPESTRM (R177). -/
def execPcmpestrm (rex : Bool) (a : Reg) (b : Operand) (imm : Byte) (s : State) : Host.Outcome State Fault Refusal :=
  withOperand (readVecOperand (legacyLength rex b) b s) fun bv => pcmpEstrm (pcmpControl imm) (readXmm a s) bv s

/-- PCMPESTRI (R176). -/
def execPcmpestri (rex : Bool) (a : Reg) (b : Operand) (imm : Byte) (s : State) : Host.Outcome State Fault Refusal :=
  withOperand (readVecOperand (legacyLength rex b) b s) fun bv => pcmpEstri (pcmpControl imm) (readXmm a s) bv s

/-- PCMPISTRM (R179). -/
def execPcmpistrm (rex : Bool) (a : Reg) (b : Operand) (imm : Byte) (s : State) : Host.Outcome State Fault Refusal :=
  withOperand (readVecOperand (legacyLength rex b) b s) fun bv => pcmpIstrm (pcmpControl imm) (readXmm a s) bv s

/-- PCMPISTRI (R178). -/
def execPcmpistri (rex : Bool) (a : Reg) (b : Operand) (imm : Byte) (s : State) : Host.Outcome State Fault Refusal :=
  withOperand (readVecOperand (legacyLength rex b) b s) fun bv => pcmpIstri (pcmpControl imm) (readXmm a s) bv s

end Sys2Proof.Machine
end

