-- ==== Sys2Proof/Machine/Vpcmpstr.lean ====
section
/-! DEFINITION. The meanings of the four packed string compares in their VEX.128 form (45_pcmpstr.md R185): those of
the legacy form, and for the mask forms the open parameter above bit 127 of the destination (D20). -/

namespace Sys2Proof.Machine

/-- VPCMPESTRM (R177, R185). -/
def execVpcmpestrm (a : Reg) (b : Operand) (imm : Byte) (s : State) : Host.Outcome State Fault Refusal :=
  withOperand (readVecOperand (vexLength b true) b s) fun bv =>
    vexUpper (pcmpEstrm (pcmpControl imm) (readXmm a s) bv s)

/-- VPCMPESTRI (R176, R185). -/
def execVpcmpestri (a : Reg) (b : Operand) (imm : Byte) (s : State) : Host.Outcome State Fault Refusal :=
  withOperand (readVecOperand (vexLength b true) b s) fun bv => pcmpEstri (pcmpControl imm) (readXmm a s) bv s

/-- VPCMPISTRM (R179, R185). -/
def execVpcmpistrm (a : Reg) (b : Operand) (imm : Byte) (s : State) : Host.Outcome State Fault Refusal :=
  withOperand (readVecOperand (vexLength b true) b s) fun bv =>
    vexUpper (pcmpIstrm (pcmpControl imm) (readXmm a s) bv s)

/-- VPCMPISTRI (R178, R185). -/
def execVpcmpistri (a : Reg) (b : Operand) (imm : Byte) (s : State) : Host.Outcome State Fault Refusal :=
  withOperand (readVecOperand (vexLength b true) b s) fun bv => pcmpIstri (pcmpControl imm) (readXmm a s) bv s

end Sys2Proof.Machine
end

