-- ==== Sys2Proof/Machine/Dispatch.lean ====
section
/-! DEFINITION. The dispatch of an instruction to its meaning: what the block does to the snapshot it is handed. The
instruction pointer is not advanced here; the caller does that (10_state.md R29, R30). -/

namespace Sys2Proof.Machine

def exec (i : Instr) (s : State) : Host.Outcome State Fault Refusal :=
  match i with
  | .blsr w d src => Sys2Proof.Machine.execBlsr w d src s
  | .blsmsk w d src => Sys2Proof.Machine.execBlsmsk w d src s
  | .blsi w d src => Sys2Proof.Machine.execBlsi w d src s
  | .andn w d v src => Sys2Proof.Machine.execAndn w d v src s
  | .bzhi w d src v => Sys2Proof.Machine.execBzhi w d src v s
  | .pext w d v src => Sys2Proof.Machine.execPext w d v src s
  | .pdep w d v src => Sys2Proof.Machine.execPdep w d v src s
  | .mulx w dhi dlo src => Sys2Proof.Machine.execMulx w dhi dlo src s
  | .bextr w d src v => Sys2Proof.Machine.execBextr w d src v s
  | .shlx w d src v => Sys2Proof.Machine.execShlx w d src v s
  | .sarx w d src v => Sys2Proof.Machine.execSarx w d src v s
  | .shrx w d src v => Sys2Proof.Machine.execShrx w d src v s
  | .rorx w d src imm => Sys2Proof.Machine.execRorx w d src imm s
  | .pcmpestrm rex a b imm => Sys2Proof.Machine.execPcmpestrm rex a b imm s
  | .pcmpestri rex a b imm => Sys2Proof.Machine.execPcmpestri rex a b imm s
  | .pcmpistrm rex a b imm => Sys2Proof.Machine.execPcmpistrm rex a b imm s
  | .pcmpistri rex a b imm => Sys2Proof.Machine.execPcmpistri rex a b imm s
  | .vpcmpestrm a b imm => Sys2Proof.Machine.execVpcmpestrm a b imm s
  | .vpcmpestri a b imm => Sys2Proof.Machine.execVpcmpestri a b imm s
  | .vpcmpistrm a b imm => Sys2Proof.Machine.execVpcmpistrm a b imm s
  | .vpcmpistri a b imm => Sys2Proof.Machine.execVpcmpistri a b imm s

end Sys2Proof.Machine
end

