-- ==== Sys2Proof/Machine/Block.lean ====
section
/-! DEFINITION. The entry port of the block (10_state.md R36, R40; 60_exceptions.md R200 to R204): one invocation on the
snapshot, window and mode that the state holds. -/

namespace Sys2Proof.Machine

/-- `emulate`: decode the window; Unrecognized if it holds no instruction of the block, whatever its operand would
be (R204); else execute, and report the consumed bytes with the new snapshot, or the AccessFault. -/
def emulate (s : State) : Host.Outcome (Nat × State) Fault Refusal :=
  match decode s.mode s.win.toList with
  | .error _ => .refused .unrecognized
  | .ok i =>
    match exec i s with
    | .next t => .next (instrLength i, t)
    | .fault f => .fault f
    | .refused r => .refused r

/-- `consumed_bytes`: the bytes to advance by after Emulated, 0 after Unrecognized, none after AccessFault (R36,
R200). -/
def consumedBytes (o : Host.Outcome (Nat × State) Fault Refusal) : Option Nat :=
  match o with
  | .next (n, _) => some n
  | .refused _ => some 0
  | .fault _ => none

end Sys2Proof.Machine
end

