-- ==== Sys2Proof/Machine/Step.lean ====
section
/-! DEFINITION. One step of the emulated machine (70_reset_and_hazards.md R232): the caller captures the window, the
other agents have their turn, the block is invoked, the caller advances the instruction pointer, the other agents
have a turn before the next capture. -/

namespace Sys2Proof.Machine

/-- One instruction of the thread. -/
def step (s : State) : Host.Outcome State Fault Refusal :=
  match captureWindow s with
  | none => .fault (.windowUnreadable (truncAddr s.mode s.rip))
  | some c =>
    match emulate (othersTurn c) with
    | .next (n, t) => .next (othersTurn (advance n t))
    | .fault f => .fault f
    | .refused r => .refused r

/-- The state with an instruction of the opcode table in memory at the instruction pointer, where the next step
captures its window: 15 bytes, those above `nbits` zero. -/
def State.withFetchWord (s : State) (nbits w : Nat) : State := placeAtRip (tableBytes nbits w) s

end Sys2Proof.Machine
end

