-- ==== Sys2Proof/Safety.lean ====
section
/-! DEFINITION. The terms in which claims are stated: what a safe step is, the invariant that every step keeps, what
"unchanged" means for each kind of state, and small readings of the spec's tables that name an instruction's
destinations, flag group and memory request. -/

namespace Sys2Proof.Safety

open Sys2Proof.Machine

/-- The invocation ended with Emulated (60_exceptions.md R203). -/
def Completes (o : Host.Outcome State Fault Refusal) : Prop := ∃ t, o = .next t

/-- A step that neither faults nor refuses: what a claim about a run must assume (R208, R209). -/
def SafeStep (s : State) : Prop := Completes (step s)

/-- AW: the address width of a mode (20_memory.md R42, 92_eei_decisions.md D3). -/
def addrBits (m : IpMode) : Nat :=
  match m with
  | .m64 => 64
  | .m32 => 32

/-- The invariant of the machine: memory is in its canonical form, and in M32 the instruction pointer is
zero-extended from 32 bits (10_state.md R29, R30). -/
def Inv (s : State) : Prop :=
  s.mem.wf = true ∧ (s.mode = .m32 → s.rip.toNat < 2 ^ 32)

/-! ### Unchanged -/

/-- Every general register but those listed is unchanged. -/
def RegsSameBut (ds : List Reg) (s t : State) : Prop := ∀ r : Reg, r ∉ ds → t.x[r] = s.x[r]

/-- Every vector register, and the half above xmm0, is unchanged. -/
def VecsSame (s t : State) : Prop := (∀ r : Reg, t.xmm[r] = s.xmm[r]) ∧ t.ymm0Upper = s.ymm0Upper

/-- Every byte of memory reads as before. -/
def MemSame (s t : State) : Prop := ∀ a, Memory.get t.mem a = Memory.get s.mem a

/-- The flags that are not arithmetic flags are unchanged (10_state.md R27). -/
def SystemFlagsSame (s t : State) : Prop :=
  t.flags.tf = s.flags.tf ∧ t.flags.ifl = s.flags.ifl ∧ t.flags.df = s.flags.df ∧ t.flags.rf = s.flags.rf

/-- Instruction pointer, mode, window and the other agents' pending turns are unchanged. -/
def ContextSame (s t : State) : Prop :=
  t.rip = s.rip ∧ t.mode = s.mode ∧ t.win = s.win ∧ t.others = s.others

/-- What a BMI instruction leaves alone: all but its destinations and the arithmetic flags. -/
def BmiFrame (ds : List Reg) (s t : State) : Prop :=
  RegsSameBut ds s t ∧ VecsSame s t ∧ MemSame s t ∧ SystemFlagsSame s t ∧ ContextSame s t

/-- What an index form leaves alone: all but rCX and the arithmetic flags (45_pcmpstr.md R182). -/
def IndexFrame (s t : State) : Prop := BmiFrame [Reg.rcx] s t

/-- What a mask form leaves alone: all but xmm[0] and the arithmetic flags (45_pcmpstr.md R182). -/
def MaskFrame (s t : State) : Prop :=
  RegsSameBut [] s t ∧ (∀ r : Reg, r ≠ 0 → t.xmm[r] = s.xmm[r]) ∧ MemSame s t ∧ SystemFlagsSame s t ∧
    ContextSame s t

/-! ### The spec's tables, read off the instruction -/

/-- The general registers an instruction writes (30_encoding.md R91, 45_pcmpstr.md R182). -/
def destRegs (i : Instr) : List Reg :=
  match i with
  | .blsr _ d _ => [d]
  | .blsmsk _ d _ => [d]
  | .blsi _ d _ => [d]
  | .andn _ d _ _ => [d]
  | .bzhi _ d _ _ => [d]
  | .pext _ d _ _ => [d]
  | .pdep _ d _ _ => [d]
  | .mulx _ dhi dlo _ => [dhi, dlo]
  | .bextr _ d _ _ => [d]
  | .shlx _ d _ _ => [d]
  | .sarx _ d _ _ => [d]
  | .shrx _ d _ _ => [d]
  | .rorx _ d _ _ => [d]
  | .pcmpestrm _ _ _ _ => []
  | .pcmpestri _ _ _ _ => [Reg.rcx]
  | .pcmpistrm _ _ _ _ => []
  | .pcmpistri _ _ _ _ => [Reg.rcx]
  | .vpcmpestrm _ _ _ => []
  | .vpcmpestri _ _ _ => [Reg.rcx]
  | .vpcmpistrm _ _ _ => []
  | .vpcmpistri _ _ _ => [Reg.rcx]

/-- Does the instruction write its general destinations with `write_32` (10_state.md R23)? -/
def writes32 (i : Instr) : Bool :=
  match i with
  | .blsr w _ _ => w == .w32
  | .blsmsk w _ _ => w == .w32
  | .blsi w _ _ => w == .w32
  | .andn w _ _ _ => w == .w32
  | .bzhi w _ _ _ => w == .w32
  | .pext w _ _ _ => w == .w32
  | .pdep w _ _ _ => w == .w32
  | .mulx w _ _ _ => w == .w32
  | .bextr w _ _ _ => w == .w32
  | .shlx w _ _ _ => w == .w32
  | .sarx w _ _ _ => w == .w32
  | .shrx w _ _ _ => w == .w32
  | .rorx w _ _ _ => w == .w32
  | .pcmpestrm _ _ _ _ => true
  | .pcmpestri _ _ _ _ => true
  | .pcmpistrm _ _ _ _ => true
  | .pcmpistri _ _ _ _ => true
  | .vpcmpestrm _ _ _ => true
  | .vpcmpestri _ _ _ => true
  | .vpcmpistrm _ _ _ => true
  | .vpcmpistri _ _ _ => true

/-- The three flag groups of the table of 10_state.md R28. -/
inductive FlagGroup where
  /-- CF, ZF, SF, OF written, AF and PF any value. -/
  | bmi
  /-- All six unchanged. -/
  | unchanged
  /-- All six written. -/
  | pcmp
  deriving DecidableEq, Repr

/-- The row of R28 an instruction stands in. -/
def flagGroup (i : Instr) : FlagGroup :=
  match i with
  | .blsr _ _ _ => .bmi
  | .blsmsk _ _ _ => .bmi
  | .blsi _ _ _ => .bmi
  | .andn _ _ _ _ => .bmi
  | .bzhi _ _ _ _ => .bmi
  | .pext _ _ _ _ => .unchanged
  | .pdep _ _ _ _ => .unchanged
  | .mulx _ _ _ _ => .unchanged
  | .bextr _ _ _ _ => .bmi
  | .shlx _ _ _ _ => .unchanged
  | .sarx _ _ _ _ => .unchanged
  | .shrx _ _ _ _ => .unchanged
  | .rorx _ _ _ _ => .unchanged
  | .pcmpestrm _ _ _ _ => .pcmp
  | .pcmpestri _ _ _ _ => .pcmp
  | .pcmpistrm _ _ _ _ => .pcmp
  | .pcmpistri _ _ _ _ => .pcmp
  | .vpcmpestrm _ _ _ => .pcmp
  | .vpcmpestri _ _ _ => .pcmp
  | .vpcmpistrm _ _ _ => .pcmp
  | .vpcmpistri _ _ _ => .pcmp

/-- The ModRM.rm operand of an instruction and the bytes a memory operand of it has (20_memory.md R46). -/
def rmOperand (i : Instr) : Operand × Nat :=
  match i with
  | .blsr w _ src => (src, w.bytes)
  | .blsmsk w _ src => (src, w.bytes)
  | .blsi w _ src => (src, w.bytes)
  | .andn w _ _ src => (src, w.bytes)
  | .bzhi w _ src _ => (src, w.bytes)
  | .pext w _ _ src => (src, w.bytes)
  | .pdep w _ _ src => (src, w.bytes)
  | .mulx w _ _ src => (src, w.bytes)
  | .bextr w _ src _ => (src, w.bytes)
  | .shlx w _ src _ => (src, w.bytes)
  | .sarx w _ src _ => (src, w.bytes)
  | .shrx w _ src _ => (src, w.bytes)
  | .rorx w _ src _ => (src, w.bytes)
  | .pcmpestrm _ _ b _ => (b, 16)
  | .pcmpestri _ _ b _ => (b, 16)
  | .pcmpistrm _ _ b _ => (b, 16)
  | .pcmpistri _ _ b _ => (b, 16)
  | .vpcmpestrm _ b _ => (b, 16)
  | .vpcmpestri _ b _ => (b, 16)
  | .vpcmpistrm _ b _ => (b, 16)
  | .vpcmpistri _ b _ => (b, 16)

/-- The one memory request of an instruction: effective address and size, none for a register operand (R49). -/
def memRequest (i : Instr) (s : State) : Option (Word × Nat) :=
  match rmOperand i with
  | (.reg _, _) => none
  | (.mem a, n) => some (effAddr (instrLength i) a s, n)

/-- The request, where there is one, succeeds. -/
def RequestReadable (i : Instr) (s : State) : Prop :=
  ∀ a n, memRequest i s = some (a, n) → memRead a n s ≠ none

/-- The number of set bits of `v` below bit i: the value of `k` at step i of the loops of PEXT and PDEP (40_bmi.md
R118, R119). -/
def rankBelow {n : Nat} (v : BitVec n) (i : Nat) : Nat := (List.range i).countP v.getLsbD

/-- The value of bytes read from memory: byte k counts 2^(8k) (20_memory.md R45). -/
def littleEndianSum (bs : List Byte) : Nat := ((List.range bs.length).map fun k => (bs.getD k 0).toNat * 2 ^ (8 * k)).sum

/-- The invocation executes this instruction: its outcome is the instruction's, with its length as the consumed bytes
(60_exceptions.md R202, R203). -/
def InvocationRuns (i : Instr) (s : State) : Prop :=
  emulate s = (match exec i s with
    | .next t => .next (instrLength i, t)
    | .fault f => .fault f
    | .refused r => .refused r)

/-- The signed value of a displacement (30_encoding.md R88). -/
def dispInt (d : Disp) : Int :=
  match d with
  | .none => 0
  | .d8 d => d.toInt
  | .d32 d => d.toInt

/-- `x[r][AW-1:0]` as a number (30_encoding.md R89). -/
def addrRegNat (r : Reg) (s : State) : Nat := s.x[r].toNat % 2 ^ addrBits s.mode

/-- The scaled index as a number, 0 without an index (30_encoding.md R89). -/
def scaledIndexNat (i : Option Index) (s : State) : Nat :=
  match i with
  | none => 0
  | some i => addrRegNat i.reg s * 2 ^ i.scale.toNat

/-- Two states that 32-bit code cannot tell apart (10_state.md R25, R29, R31): the low halves of registers 0 to 7, the
low half of the instruction pointer, xmm[0..7] and everything else agree, but for the other registers and for the
window, which a step captures anew. -/
def M32Same (s t : State) : Prop :=
  s.mode = .m32 ∧ t.mode = .m32 ∧
  (∀ r : Reg, r.val < 8 → (s.x[r]).setWidth 32 = (t.x[r]).setWidth 32) ∧
  (∀ r : Reg, r.val < 8 → s.xmm[r] = t.xmm[r]) ∧
  s.rip.setWidth 32 = t.rip.setWidth 32 ∧
  s.flags = t.flags ∧ s.ymm0Upper = t.ymm0Upper ∧ s.mem = t.mem ∧ s.others = t.others ∧ s.draws = t.draws

/-- Two outcomes of the same kind: states related by `P`, or the same fault, or the same refusal. -/
def OutcomesRelated (P : State → State → Prop) (o o' : Host.Outcome State Fault Refusal) : Prop :=
  match o, o' with
  | .next t, .next t' => P t t'
  | .fault f, .fault f' => f = f'
  | .refused r, .refused r' => r = r'
  | _, _ => False

end Sys2Proof.Safety
end

