-- ==== Sys2Proof/Certificates/Slice0/Obligations.lean ====
section
/-! DEFINITION. The statements for the provers, from the numbered rules of spec/. W is the operand width, D the value
of the destination, S the source operand, V the vvvv operand. Free values (AF and PF of the BMI group, the `any` case of
ymm_upper_effect) are named only as free values. Where a rule is the spec's own decision or inference, OBLIGATIONS.json
names the decision of 92_eei_decisions.md or says that the spec derives it. -/

open Sys2Proof Sys2Proof.Machine Sys2Proof.Safety

/-! ### Encoding -/

/-- R91 to R93 (BLSR by 90_conflicts.md C1): a word for every row of the opcode table, with its operand roles, from the
examples and vectors of 95_test_vectors.md or, for VPCMPESTRI and VPCMPISTRM, by R93 from the legacy word; after them
the memory forms of V-MEM-2, V-MEM-3, V-M32-4 and V-MEM-7 and the REX form of V-PC-MEM-6. -/
def Obligations.SpecWordsDecode : Prop :=
  decode .m64 [0xC4, 0xE2, 0xF8, 0xF3, 0xCB] = .ok (.blsr .w64 0 (.reg 3)) ∧
  decode .m64 [0xC4, 0xE2, 0xF8, 0xF3, 0xD3] = .ok (.blsmsk .w64 0 (.reg 3)) ∧
  decode .m64 [0xC4, 0xE2, 0x78, 0xF3, 0xDB] = .ok (.blsi .w32 0 (.reg 3)) ∧
  decode .m64 [0xC4, 0xE2, 0xE0, 0xF2, 0xC8] = .ok (.andn .w64 1 3 (.reg 0)) ∧
  decode .m64 [0xC4, 0xE2, 0x60, 0xF5, 0xC1] = .ok (.bzhi .w32 0 (.reg 1) 3) ∧
  decode .m64 [0xC4, 0xE2, 0xE2, 0xF5, 0xC1] = .ok (.pext .w64 0 3 (.reg 1)) ∧
  decode .m64 [0xC4, 0xE2, 0xE3, 0xF5, 0xC1] = .ok (.pdep .w64 0 3 (.reg 1)) ∧
  decode .m64 [0xC4, 0xE2, 0xE3, 0xF6, 0xC8] = .ok (.mulx .w64 1 3 (.reg 0)) ∧
  decode .m64 [0xC4, 0xE2, 0xE0, 0xF7, 0xC1] = .ok (.bextr .w64 0 (.reg 1) 3) ∧
  decode .m64 [0xC4, 0xE2, 0x61, 0xF7, 0xC1] = .ok (.shlx .w32 0 (.reg 1) 3) ∧
  decode .m64 [0xC4, 0xE2, 0x62, 0xF7, 0xC1] = .ok (.sarx .w32 0 (.reg 1) 3) ∧
  decode .m64 [0xC4, 0xE2, 0x63, 0xF7, 0xC1] = .ok (.shrx .w32 0 (.reg 1) 3) ∧
  decode .m64 [0xC4, 0xE3, 0x7B, 0xF0, 0xC1, 0x08] = .ok (.rorx .w32 0 (.reg 1) 8) ∧
  decode .m64 [0x66, 0x0F, 0x3A, 0x60, 0xC1, 0x44] = .ok (.pcmpestrm false 0 (.reg 1) 0x44) ∧
  decode .m64 [0x66, 0x0F, 0x3A, 0x61, 0xC1, 0x08] = .ok (.pcmpestri false 0 (.reg 1) 8) ∧
  decode .m64 [0x66, 0x0F, 0x3A, 0x62, 0xC1, 0x40] = .ok (.pcmpistrm false 0 (.reg 1) 0x40) ∧
  decode .m64 [0x66, 0x0F, 0x3A, 0x63, 0xC1, 0x18] = .ok (.pcmpistri false 0 (.reg 1) 0x18) ∧
  decode .m64 [0xC4, 0xE3, 0x79, 0x60, 0xC1, 0x44] = .ok (.vpcmpestrm 0 (.reg 1) 0x44) ∧
  decode .m64 [0xC4, 0xE3, 0x79, 0x61, 0xC1, 0x08] = .ok (.vpcmpestri 0 (.reg 1) 8) ∧
  decode .m64 [0xC4, 0xE3, 0x79, 0x62, 0xC1, 0x40] = .ok (.vpcmpistrm 0 (.reg 1) 0x40) ∧
  decode .m64 [0xC4, 0xE3, 0x79, 0x63, 0xC1, 0x18] = .ok (.vpcmpistri 0 (.reg 1) 0x18) ∧
  decode .m64 [0xC4, 0xE2, 0x70, 0xF7, 0x44, 0x9E, 0x10] =
    .ok (.bextr .w32 0 (.mem (.sib 6 (some ⟨3, 2⟩) (.d8 0x10))) 1) ∧
  decode .m64 [0xC4, 0xE2, 0xF8, 0xF3, 0x0D, 0x00, 0x01, 0x00, 0x00] =
    .ok (.blsr .w64 0 (.mem (.ripRel 0x100))) ∧
  decode .m32 [0xC4, 0xE2, 0x78, 0xF3, 0x0D, 0x00, 0x20, 0x00, 0x00] =
    .ok (.blsr .w32 0 (.mem (.abs 0x2000))) ∧
  decode .m64 [0xC4, 0xE3, 0x7B, 0xF0, 0x04, 0x25, 0x00, 0x20, 0x00, 0x00, 0x04] =
    .ok (.rorx .w32 0 (.mem (.sibNoBase none 0x2000)) 4) ∧
  decode .m64 [0x66, 0x44, 0x0F, 0x3A, 0x63, 0xC1, 0x08] = .ok (.pcmpistri true 8 (.reg 1) 8)

/-- Decoding gives back every well-formed instruction from its encoding, with every operand, and stops where the
instruction ends. -/
def Obligations.DecodeOfEncode : Prop :=
  ∀ (m : IpMode) (i : Instr) (rest : List Byte), i.wf m = true → decodeBytes m (encode i ++ rest) = .ok (i, rest)

/-- What decoding yields is well formed in the mode (in M32 every selector is below 8, the width is 32, no address is
RIP-relative) and consumed exactly the length of R95. -/
def Obligations.DecodedIsWellFormed : Prop :=
  ∀ (m : IpMode) (bs rest : List Byte) (i : Instr),
    decodeBytes m bs = .ok (i, rest) → i.wf m = true ∧ bs.length = instrLength i + rest.length

/-- R96: 5 to 12 bytes, at most 11 for the VEX form (first byte C4), both bounds attained, and a 15-byte window always
decides. -/
def Obligations.LengthBounds : Prop :=
  (∀ (m : IpMode) (bs : List Byte) (i : Instr), decode m bs = .ok i →
    5 ≤ instrLength i ∧ instrLength i ≤ 12 ∧ (bs.head? = some 0xC4 → instrLength i ≤ 11)) ∧
  (∀ (w : Width) (d v r : Reg), instrLength (.andn w d v (.reg r)) = 5) ∧
  (∀ (a b : Reg) (i : Option Index) (d : BitVec 32) (imm : Byte),
    instrLength (.pcmpistri true a (.mem (.sib b i (.d32 d))) imm) = 12) ∧
  (∀ (m : IpMode) (bs : List Byte), bs.length = 15 → decode m bs ≠ .error .truncated)

/-- The admitted encodings, exactly (R74 to R78, R91 to R94, R100; decisions D4 to D8, D11, D14; BLSR by
90_conflicts.md C1): a 15-byte window holds an instruction if and only if it begins with C4 (in M32 with both top bits
of byte 1 set), L = 0 and one of the 17 tuples of map, pp, opcode, /reg and, where vvvv is unused, its field 1111; or
with 66, in M64 perhaps one byte 40 to 4F, then 0F 3A and 60 to 63. Every other window is Unrecognized. -/
def Obligations.AdmittedExactly : Prop :=
  ∀ (m : IpMode) (w0 w1 w2 w3 w4 : Byte) (rest : List Byte), rest.length = 10 →
    ((∃ i, decode m (w0 :: w1 :: w2 :: w3 :: w4 :: rest) = .ok i) ↔
      ((w0 = 0xC4 ∧ (m = .m32 → w1.toNat / 64 = 3) ∧ w2.toNat / 4 % 2 = 0 ∧
        ((w1.toNat % 32 = 2 ∧
            ((w2.toNat % 4 = 0 ∧ w3 = 0xF3 ∧ 1 ≤ w4.toNat / 8 % 8 ∧ w4.toNat / 8 % 8 ≤ 3) ∨
             (w2.toNat % 4 = 0 ∧ (w3 = 0xF2 ∨ w3 = 0xF5 ∨ w3 = 0xF7)) ∨
             (w2.toNat % 4 = 1 ∧ w3 = 0xF7) ∨
             (w2.toNat % 4 = 2 ∧ (w3 = 0xF5 ∨ w3 = 0xF7)) ∨
             (w2.toNat % 4 = 3 ∧ (w3 = 0xF5 ∨ w3 = 0xF6 ∨ w3 = 0xF7)))) ∨
         (w1.toNat % 32 = 3 ∧ w2.toNat / 8 % 16 = 15 ∧
            ((w2.toNat % 4 = 3 ∧ w3 = 0xF0) ∨
             (w2.toNat % 4 = 1 ∧ 0x60 ≤ w3.toNat ∧ w3.toNat ≤ 0x63))))) ∨
       (w0 = 0x66 ∧ w1 = 0x0F ∧ w2 = 0x3A ∧ 0x60 ≤ w3.toNat ∧ w3.toNat ≤ 0x63) ∨
       (w0 = 0x66 ∧ m = .m64 ∧ w1.toNat / 16 = 4 ∧ w2 = 0x0F ∧ w3 = 0x3A ∧ 0x60 ≤ w4.toNat ∧ w4.toNat ≤ 0x63)))

/-- R100: a window that begins with C5 is Unrecognized. -/
def Obligations.TwoByteVexUnrecognized : Prop :=
  ∀ s : State, s.win[0] = 0xC5 → emulate s = .refused .unrecognized

/-- R76 (D8): in M32 (a) a C4 or C5 without byte 1 bits 7:6 = 11 gives Unrecognized, (b) B̄ is ignored (R̄ and X̄ are
fixed by a), (c) bit 3 of vvvv is ignored (map 0F-38, where every instruction uses vvvv), (d) no REX byte is admitted;
and every selector of a decoded instruction is below 8, with width 32 (R79, D7) and no RIP-relative address (R87, D9). -/
def Obligations.Mode32Decoding : Prop :=
  (∀ (b1 : Byte) (bs : List Byte), b1.toNat / 64 ≠ 3 →
    (∀ i, decode .m32 (0xC4 :: b1 :: bs) ≠ .ok i) ∧ (∀ i, decode .m32 (0xC5 :: b1 :: bs) ≠ .ok i)) ∧
  (∀ (b1 : Byte) (bs : List Byte), b1.toNat / 64 = 3 →
    decode .m32 (0xC4 :: (b1 ^^^ 0x20) :: bs) = decode .m32 (0xC4 :: b1 :: bs)) ∧
  (∀ (b1 b2 : Byte) (bs : List Byte), b1.toNat % 32 = 2 →
    decode .m32 (0xC4 :: b1 :: (b2 ^^^ 0x40) :: bs) = decode .m32 (0xC4 :: b1 :: b2 :: bs)) ∧
  (∀ (b1 : Byte) (bs : List Byte) (i : Instr), b1.toNat / 16 = 4 → decode .m32 (0x66 :: b1 :: bs) ≠ .ok i) ∧
  (∀ (bs : List Byte) (i : Instr), decode .m32 bs = .ok i → i.wf .m32 = true)

/-! ### Registers, addresses, memory -/

/-- R22, R24 and the formula of R23: a read of width W is the low W bits, a write of width 32 zero-extends, a write of
width 64 is the value; other registers keep theirs. -/
def Obligations.RegisterReadAndWrite : Prop :=
  ∀ (r r' : Reg) (s : State) (v : BitVec 32) (u : BitVec 64),
    (readReg .w32 r s).toNat = s.x[r].toNat % 2 ^ 32 ∧ (readReg .w64 r s).toNat = s.x[r].toNat ∧
    ((writeReg .w32 r v s).x[r]).toNat = v.toNat ∧ (writeReg .w64 r u s).x[r] = u ∧
    (r' ≠ r → (writeReg .w32 r v s).x[r'] = s.x[r'] ∧ (writeReg .w64 r u s).x[r'] = s.x[r'])

/-- R23, R128: whatever an instruction writes with `write_32` (both destinations of MULX, the index of the string
compares included) has its upper 32 bits zero. -/
def Obligations.NarrowWritesZeroExtend : Prop :=
  ∀ (i : Instr) (s t : State), exec i s = .next t → writes32 i = true →
    ∀ r ∈ destRegs i, (t.x[r]).toNat < 2 ^ 32

/-- R45: a read succeeds exactly when all its bytes, at addresses modulo the address width, are mapped; its bytes are
those, the value is their little-endian sum; and where it fails the instruction's fault is AccessFault with this
address and size. -/
def Obligations.MemoryReadRule : Prop :=
  ∀ (s : State) (a : Word) (n : Nat),
    (∀ bs : List Byte, memRead a n s = some bs ↔
      (bs.length = n ∧ ∀ k, k < n → Memory.get s.mem ((a.toNat + k) % 2 ^ addrBits s.mode) = bs[k]?)) ∧
    (memRead a n s = none ↔ ∃ k, k < n ∧ Memory.get s.mem ((a.toNat + k) % 2 ^ addrBits s.mode) = none) ∧
    (memRead a n s = none → loadBytes a n s = .error (.accessFault a n)) ∧
    (∀ bs : List Byte, leNat bs = littleEndianSum bs)

/-- R86, R87, R89: the effective address of every form, as exact arithmetic narrowed to the address width. -/
def Obligations.EffectiveAddressRule : Prop :=
  ∀ (len : Nat) (s : State) (b : Reg) (i : Option Index) (d : Disp) (e : BitVec 32),
    ((effAddr len (.base b d) s).toNat : Int) = (addrRegNat b s + dispInt d) % 2 ^ addrBits s.mode ∧
    ((effAddr len (.sib b i d) s).toNat : Int) =
      (addrRegNat b s + scaledIndexNat i s + dispInt d) % 2 ^ addrBits s.mode ∧
    ((effAddr len (.sibNoBase i e) s).toNat : Int) = (scaledIndexNat i s + e.toInt) % 2 ^ addrBits s.mode ∧
    (s.mode = .m64 → ((effAddr len (.ripRel e) s).toNat : Int) = (s.rip.toNat + len + e.toInt) % 2 ^ 64) ∧
    (s.mode = .m32 → (effAddr len (.abs e) s).toNat = e.toNat)

/-- R110, R162 with R22, R45, R46 (byte order D1): what a fetch yields. A register operand is the low W bits of that
register, or that whole vector register; a memory operand is the little-endian sum of the W/8 or 16 bytes read at the
effective address, and where that read fails the fetch raises AccessFault with this address and size. -/
def Obligations.OperandFetchValue : Prop :=
  ∀ (w : Width) (len : Nat) (r : Reg) (a : Addr) (s : State),
    (∃ v, readOperand w len (.reg r) s = .ok v ∧ v.toNat = s.x[r].toNat % 2 ^ w.bits) ∧
    readVecOperand len (.reg r) s = .ok s.xmm[r] ∧
    (∀ bs, memRead (effAddr len a s) (w.bits / 8) s = some bs →
      ∃ v, readOperand w len (.mem a) s = .ok v ∧ v.toNat = littleEndianSum bs) ∧
    (∀ bs, memRead (effAddr len a s) 16 s = some bs →
      ∃ v, readVecOperand len (.mem a) s = .ok v ∧ v.toNat = littleEndianSum bs) ∧
    (memRead (effAddr len a s) (w.bits / 8) s = none →
      readOperand w len (.mem a) s = .error (.accessFault (effAddr len a s) (w.bits / 8))) ∧
    (memRead (effAddr len a s) 16 s = none →
      readVecOperand len (.mem a) s = .error (.accessFault (effAddr len a s) 16))

/-- R50 (D24; the form of the turns is the model's, log 8): what other agents do between the capture and the
read can make the read answer any bytes, or fail. -/
def Obligations.RacingReadIsFree : Prop :=
  ∀ (s : State) (a : Word) (bs : List Byte), bs.length ≤ 16 →
    (∃ es, memRead a bs.length (othersTurn { s with others := [es] }) = some bs) ∧
    (bs ≠ [] → ∃ es, memRead a bs.length (othersTurn { s with others := [es] }) = none)

/-! ### BMI instructions: result, flags, completion, AccessFault -/

/-- R113. -/
def Obligations.BlsrResult : Prop :=
  ∀ (w : Width) (d : Reg) (src : Operand) (s : State) (a : BitVec w.bits),
    readOperand w (instrLength (.blsr w d src)) src s = .ok a →
    ∃ t, exec (.blsr w d src) s = .next t ∧ BmiFrame [d] s t ∧
      (t.x[d]).toNat = a.toNat &&& ((a.toNat + 2 ^ w.bits - 1) % 2 ^ w.bits) ∧
      t.flags.cf = decide (a.toNat = 0) ∧ t.flags.zf = decide ((t.x[d]).toNat = 0) ∧
      t.flags.sf = decide (2 ^ (w.bits - 1) ≤ (t.x[d]).toNat) ∧ t.flags.of = false

/-- R114. -/
def Obligations.BlsmskResult : Prop :=
  ∀ (w : Width) (d : Reg) (src : Operand) (s : State) (a : BitVec w.bits),
    readOperand w (instrLength (.blsmsk w d src)) src s = .ok a →
    ∃ t, exec (.blsmsk w d src) s = .next t ∧ BmiFrame [d] s t ∧
      (t.x[d]).toNat = a.toNat ^^^ ((a.toNat + 2 ^ w.bits - 1) % 2 ^ w.bits) ∧ (t.x[d]).toNat ≠ 0 ∧
      t.flags.cf = decide (a.toNat = 0) ∧ t.flags.zf = false ∧
      t.flags.sf = decide (2 ^ (w.bits - 1) ≤ (t.x[d]).toNat) ∧ t.flags.of = false

/-- R115. -/
def Obligations.BlsiResult : Prop :=
  ∀ (w : Width) (d : Reg) (src : Operand) (s : State) (a : BitVec w.bits),
    readOperand w (instrLength (.blsi w d src)) src s = .ok a →
    ∃ t, exec (.blsi w d src) s = .next t ∧ BmiFrame [d] s t ∧
      (t.x[d]).toNat = ((2 ^ w.bits - a.toNat) % 2 ^ w.bits) &&& a.toNat ∧
      t.flags.cf = decide (a.toNat ≠ 0) ∧ t.flags.zf = decide ((t.x[d]).toNat = 0) ∧
      t.flags.sf = decide (2 ^ (w.bits - 1) ≤ (t.x[d]).toNat) ∧ t.flags.of = false

/-- R116. -/
def Obligations.AndnResult : Prop :=
  ∀ (w : Width) (d v : Reg) (src : Operand) (s : State) (a : BitVec w.bits),
    readOperand w (instrLength (.andn w d v src)) src s = .ok a →
    ∃ t, exec (.andn w d v src) s = .next t ∧ BmiFrame [d] s t ∧
      (t.x[d]).toNat = ((s.x[v].toNat % 2 ^ w.bits) ^^^ (2 ^ w.bits - 1)) &&& a.toNat ∧
      t.flags.cf = false ∧ t.flags.zf = decide ((t.x[d]).toNat = 0) ∧
      t.flags.sf = decide (2 ^ (w.bits - 1) ≤ (t.x[d]).toNat) ∧ t.flags.of = false

/-- R117: the index n is V[7:0]. -/
def Obligations.BzhiResult : Prop :=
  ∀ (w : Width) (d : Reg) (src : Operand) (v : Reg) (s : State) (a : BitVec w.bits),
    readOperand w (instrLength (.bzhi w d src v)) src s = .ok a →
    ∃ t, exec (.bzhi w d src v) s = .next t ∧ BmiFrame [d] s t ∧
      (t.x[d]).toNat =
        (if s.x[v].toNat % 256 ≤ w.bits - 1 then a.toNat % 2 ^ (s.x[v].toNat % 256) else a.toNat) ∧
      t.flags.cf = decide (w.bits - 1 < s.x[v].toNat % 256) ∧ t.flags.zf = decide ((t.x[d]).toNat = 0) ∧
      t.flags.sf = decide (2 ^ (w.bits - 1) ≤ (t.x[d]).toNat) ∧ t.flags.of = false

/-- R118: the source bit under the k-th set mask bit (mask V, source S) is bit k of D; bits from popcount(V) on are 0. -/
def Obligations.PextResult : Prop :=
  ∀ (w : Width) (d v : Reg) (src : Operand) (s : State) (a : BitVec w.bits),
    readOperand w (instrLength (.pext w d v src)) src s = .ok a →
    ∃ t, exec (.pext w d v src) s = .next t ∧ BmiFrame [d] s t ∧ t.flags = s.flags ∧
      (∀ i, i < w.bits → (s.x[v]).getLsbD i = true →
        (t.x[d]).getLsbD (rankBelow (readReg w v s) i) = a.getLsbD i) ∧
      (t.x[d]).toNat < 2 ^ rankBelow (readReg w v s) w.bits

/-- R119: bit i of D is the source bit whose number is the count of mask bits below i where the mask (V) has bit i, and 0
elsewhere. -/
def Obligations.PdepResult : Prop :=
  ∀ (w : Width) (d v : Reg) (src : Operand) (s : State) (a : BitVec w.bits),
    readOperand w (instrLength (.pdep w d v src)) src s = .ok a →
    ∃ t, exec (.pdep w d v src) s = .next t ∧ BmiFrame [d] s t ∧ t.flags = s.flags ∧
      ∀ i, (t.x[d]).getLsbD i =
        (decide (i < w.bits) && (s.x[v]).getLsbD i && a.getLsbD (rankBelow (readReg w v s) i))

/-- R120: the high half of the exact product goes to ModRM.reg, the low half to vvvv, and to one register for both only
the high half. -/
def Obligations.MulxResult : Prop :=
  ∀ (w : Width) (dhi dlo : Reg) (src : Operand) (s : State) (a : BitVec w.bits),
    readOperand w (instrLength (.mulx w dhi dlo src)) src s = .ok a →
    ∃ t, exec (.mulx w dhi dlo src) s = .next t ∧ BmiFrame [dhi, dlo] s t ∧ t.flags = s.flags ∧
      (t.x[dhi]).toNat = a.toNat * (s.x[Reg.rdx].toNat % 2 ^ w.bits) / 2 ^ w.bits ∧
      (dlo ≠ dhi → (t.x[dlo]).toNat = a.toNat * (s.x[Reg.rdx].toNat % 2 ^ w.bits) % 2 ^ w.bits)

/-- R121: start is V[7:0], the length V[15:8]. -/
def Obligations.BextrResult : Prop :=
  ∀ (w : Width) (d : Reg) (src : Operand) (v : Reg) (s : State) (a : BitVec w.bits),
    readOperand w (instrLength (.bextr w d src v)) src s = .ok a →
    ∃ t, exec (.bextr w d src v) s = .next t ∧ BmiFrame [d] s t ∧
      (t.x[d]).toNat =
        (if w.bits ≤ s.x[v].toNat % 256 then 0
         else a.toNat / 2 ^ (s.x[v].toNat % 256) % 2 ^ min (s.x[v].toNat / 256 % 256) w.bits) ∧
      t.flags.cf = false ∧ t.flags.zf = decide ((t.x[d]).toNat = 0) ∧
      t.flags.sf = decide (2 ^ (w.bits - 1) ≤ (t.x[d]).toNat) ∧ t.flags.of = false

/-- R122. -/
def Obligations.ShlxResult : Prop :=
  ∀ (w : Width) (d : Reg) (src : Operand) (v : Reg) (s : State) (a : BitVec w.bits),
    readOperand w (instrLength (.shlx w d src v)) src s = .ok a →
    ∃ t, exec (.shlx w d src v) s = .next t ∧ BmiFrame [d] s t ∧ t.flags = s.flags ∧
      (t.x[d]).toNat = a.toNat * 2 ^ (s.x[v].toNat % w.bits) % 2 ^ w.bits

/-- R123: the floor of the signed source over 2^c, modulo 2^W. -/
def Obligations.SarxResult : Prop :=
  ∀ (w : Width) (d : Reg) (src : Operand) (v : Reg) (s : State) (a : BitVec w.bits),
    readOperand w (instrLength (.sarx w d src v)) src s = .ok a →
    ∃ t, exec (.sarx w d src v) s = .next t ∧ BmiFrame [d] s t ∧ t.flags = s.flags ∧
      ((t.x[d]).toNat : Int) = (a.toInt / 2 ^ (s.x[v].toNat % w.bits)) % 2 ^ w.bits

/-- R124. -/
def Obligations.ShrxResult : Prop :=
  ∀ (w : Width) (d : Reg) (src : Operand) (v : Reg) (s : State) (a : BitVec w.bits),
    readOperand w (instrLength (.shrx w d src v)) src s = .ok a →
    ∃ t, exec (.shrx w d src v) s = .next t ∧ BmiFrame [d] s t ∧ t.flags = s.flags ∧
      (t.x[d]).toNat = a.toNat / 2 ^ (s.x[v].toNat % w.bits)

/-- R125: the count c is imm mod W; the two parts of the rotation do not overlap, so their union is their sum. -/
def Obligations.RorxResult : Prop :=
  ∀ (w : Width) (d : Reg) (src : Operand) (imm : Byte) (s : State) (a : BitVec w.bits),
    readOperand w (instrLength (.rorx w d src imm)) src s = .ok a →
    ∃ t, exec (.rorx w d src imm) s = .next t ∧ BmiFrame [d] s t ∧ t.flags = s.flags ∧
      (t.x[d]).toNat =
        a.toNat / 2 ^ (imm.toNat % w.bits) + a.toNat * 2 ^ (w.bits - imm.toNat % w.bits) % 2 ^ w.bits

/-- R127: the halves of MULX are the exact product, and the high half is at most 2^W − 2. -/
def Obligations.MulxExact : Prop :=
  ∀ (w : Width) (a b : BitVec w.bits),
    (mulxHigh a b).toNat * 2 ^ w.bits + (mulxLow a b).toNat = a.toNat * b.toNat ∧
    (mulxHigh a b).toNat ≤ 2 ^ w.bits - 2

/-- R129: extracting what was deposited under the same mask gives the low popcount(M) bits of the source. -/
def Obligations.PextOfPdep : Prop :=
  ∀ (w : Width) (mask a : BitVec w.bits),
    (pextValue mask (pdepValue mask a)).toNat = a.toNat &&& (2 ^ popcount mask - 1)

/-- R130: BEXTR with start 0 and length W is the identity. -/
def Obligations.BextrIdentity : Prop :=
  ∀ (w : Width) (a v : BitVec w.bits), v.toNat = 0 + 256 * w.bits → bextrValue a v = a

/-- R131: two rotations are one by the sum. -/
def Obligations.RorxComposes : Prop :=
  ∀ (w : Width) (a : BitVec w.bits) (p q r : Byte), r.toNat = (p.toNat + q.toNat) % w.bits →
    rorxValue (rorxValue a p) q = rorxValue a r

/-! ### Packed string compares -/

/-- R160, R161: element size and count, the bits of element k, and its unsigned or two's complement value. -/
def Obligations.ControlAndElements : Prop :=
  ∀ (imm : Byte) (v : Vec) (k : Nat), k < (pcmpControl imm).count →
    (pcmpControl imm).count = (if imm.toNat % 2 = 0 then 16 else 8) ∧
    (pcmpControl imm).elemBits = 128 / (pcmpControl imm).count ∧
    ((pcmpElem (pcmpControl imm) v k) % 2 ^ (pcmpControl imm).elemBits =
      ((v.toNat / 2 ^ ((pcmpControl imm).elemBits * k) % 2 ^ (pcmpControl imm).elemBits : Nat) : Int)) ∧
    (imm.toNat / 2 % 2 = 0 → 0 ≤ pcmpElem (pcmpControl imm) v k ∧
      pcmpElem (pcmpControl imm) v k < 2 ^ (pcmpControl imm).elemBits) ∧
    (imm.toNat / 2 % 2 = 1 → -(2 ^ ((pcmpControl imm).elemBits - 1)) ≤ pcmpElem (pcmpControl imm) v k ∧
      pcmpElem (pcmpControl imm) v k < 2 ^ ((pcmpControl imm).elemBits - 1)) ∧
    (pcmpControl imm).agg =
      (if imm.toNat / 4 % 4 = 0 then .equalAny else if imm.toNat / 4 % 4 = 1 then .ranges
       else if imm.toNat / 4 % 4 = 2 then .equalEach else .equalOrdered) ∧
    (pcmpControl imm).pol =
      (if imm.toNat / 16 % 4 = 1 then .negate else if imm.toNat / 16 % 4 = 3 then .maskNegate else .noNegate) ∧
    (pcmpControl imm).out = decide (imm.toNat / 64 % 2 = 1) ∧
    pcmpControl (imm ^^^ 0x80) = pcmpControl imm

/-- R163: the magnitude of the signed low 32 bits of the register, saturated to the element count. -/
def Obligations.ExplicitLengthRule : Prop :=
  ∀ (c : PcmpControl) (r : Reg) (s : State),
    (s.x[r].toNat % 2 ^ 32 < 2 ^ 31 → explicitLength c r s = min (s.x[r].toNat % 2 ^ 32) c.count) ∧
    (2 ^ 31 ≤ s.x[r].toNat % 2 ^ 32 → explicitLength c r s = min (2 ^ 32 - s.x[r].toNat % 2 ^ 32) c.count)

/-- R164: the index of the first zero element, or the element count. -/
def Obligations.ImplicitLengthRule : Prop :=
  ∀ (c : PcmpControl) (v : Vec),
    implicitLength c v ≤ c.count ∧
    (∀ k, k < implicitLength c v → v.toNat / 2 ^ (c.elemBits * k) % 2 ^ c.elemBits ≠ 0) ∧
    (implicitLength c v < c.count →
      v.toNat / 2 ^ (c.elemBits * implicitLength c v) % 2 ^ c.elemBits = 0)

/-- R166 to R171: bit i of IntRes1 in each aggregation mode, in terms of valid elements. -/
def Obligations.AggregationRule : Prop :=
  ∀ (c : PcmpControl) (a b : Vec) (la lb i : Nat), la ≤ c.count → lb ≤ c.count → i < c.count →
    (c.agg = .equalAny → ((pcmpIntRes1 c a b la lb).getLsbD i = true ↔
      (i < lb ∧ ∃ j, j < la ∧ pcmpElem c b i = pcmpElem c a j))) ∧
    (c.agg = .ranges → ((pcmpIntRes1 c a b la lb).getLsbD i = true ↔
      (i < lb ∧ ∃ p, 2 * p + 1 < la ∧ pcmpElem c a (2 * p) ≤ pcmpElem c b i ∧
        pcmpElem c b i ≤ pcmpElem c a (2 * p + 1)))) ∧
    (c.agg = .equalEach → ((pcmpIntRes1 c a b la lb).getLsbD i = true ↔
      ((i < la ∧ i < lb ∧ pcmpElem c a i = pcmpElem c b i) ∨ (la ≤ i ∧ lb ≤ i)))) ∧
    (c.agg = .equalOrdered → ((pcmpIntRes1 c a b la lb).getLsbD i = true ↔
      ∀ j, i + j < c.count → j < la → i + j < lb ∧ pcmpElem c b (i + j) = pcmpElem c a j))

/-- R172: which bits of IntRes1 the polarity code IMM8[5:4] inverts: none (00, 10), all (01), those of valid elements of
B (11). -/
def Obligations.PolarityRule : Prop :=
  ∀ (imm : Byte) (a b : Vec) (la lb i : Nat), i < (pcmpControl imm).count →
    (pcmpIntRes2 (pcmpControl imm) a b la lb).getLsbD i =
      (if imm.toNat / 16 % 4 = 1 then !(pcmpIntRes1 (pcmpControl imm) a b la lb).getLsbD i
       else if imm.toNat / 16 % 4 = 3 then ((pcmpIntRes1 (pcmpControl imm) a b la lb).getLsbD i ^^ decide (i < lb))
       else (pcmpIntRes1 (pcmpControl imm) a b la lb).getLsbD i)

/-- R173, R180, R182 for the explicit-length index forms (R176, R185): lengths from rAX and rDX, index to rCX with the
upper half zero, the six flags, nothing else. -/
def Obligations.ExplicitIndexForms : Prop :=
  ∀ (rex : Bool) (a : Reg) (b : Operand) (imm : Byte) (s : State) (vb : Vec),
    let c := pcmpControl imm
    let la := explicitLength c Reg.rax s
    let lb := explicitLength c Reg.rdx s
    let r := pcmpIntRes2 c s.xmm[a] vb la lb
    let good := fun t : State => IndexFrame s t ∧
      (r = 0 → (t.x[Reg.rcx]).toNat = c.count) ∧
      (r ≠ 0 → r.getLsbD (t.x[Reg.rcx]).toNat = true ∧
        ∀ k, r.getLsbD k = true →
          (c.out = false → (t.x[Reg.rcx]).toNat ≤ k) ∧ (c.out = true → k ≤ (t.x[Reg.rcx]).toNat)) ∧
      t.flags.cf = decide (r ≠ 0) ∧ t.flags.zf = decide (lb < c.count) ∧ t.flags.sf = decide (la < c.count) ∧
      t.flags.of = r.getLsbD 0 ∧ t.flags.af = false ∧ t.flags.pf = false
    (readVecOperand (instrLength (.pcmpestri rex a b imm)) b s = .ok vb →
      ∃ t, exec (.pcmpestri rex a b imm) s = .next t ∧ good t) ∧
    (readVecOperand (instrLength (.vpcmpestri a b imm)) b s = .ok vb →
      ∃ t, exec (.vpcmpestri a b imm) s = .next t ∧ good t)

/-- The same for the implicit-length index forms (R178, R185): lengths from the operands. -/
def Obligations.ImplicitIndexForms : Prop :=
  ∀ (rex : Bool) (a : Reg) (b : Operand) (imm : Byte) (s : State) (vb : Vec),
    let c := pcmpControl imm
    let la := implicitLength c s.xmm[a]
    let lb := implicitLength c vb
    let r := pcmpIntRes2 c s.xmm[a] vb la lb
    let good := fun t : State => IndexFrame s t ∧
      (r = 0 → (t.x[Reg.rcx]).toNat = c.count) ∧
      (r ≠ 0 → r.getLsbD (t.x[Reg.rcx]).toNat = true ∧
        ∀ k, r.getLsbD k = true →
          (c.out = false → (t.x[Reg.rcx]).toNat ≤ k) ∧ (c.out = true → k ≤ (t.x[Reg.rcx]).toNat)) ∧
      t.flags.cf = decide (r ≠ 0) ∧ t.flags.zf = decide (lb < c.count) ∧ t.flags.sf = decide (la < c.count) ∧
      t.flags.of = r.getLsbD 0 ∧ t.flags.af = false ∧ t.flags.pf = false
    (readVecOperand (instrLength (.pcmpistri rex a b imm)) b s = .ok vb →
      ∃ t, exec (.pcmpistri rex a b imm) s = .next t ∧ good t) ∧
    (readVecOperand (instrLength (.vpcmpistri a b imm)) b s = .ok vb →
      ∃ t, exec (.vpcmpistri a b imm) s = .next t ∧ good t)

/-- R174, R180, R182 for the explicit-length mask forms (R177, R185): bit i of xmm[0] is bit i of IntRes2, or bit i / w
of it for the element mask; the six flags; nothing else in the snapshot. That the legacy form leaves the half above
xmm[0] is the model's choice (log 5): D20 and R185 speak of the VEX forms only. -/
def Obligations.ExplicitMaskForms : Prop :=
  ∀ (rex : Bool) (a : Reg) (b : Operand) (imm : Byte) (s : State) (vb : Vec),
    let c := pcmpControl imm
    let la := explicitLength c Reg.rax s
    let lb := explicitLength c Reg.rdx s
    let r := pcmpIntRes2 c s.xmm[a] vb la lb
    let good := fun t : State => MaskFrame s t ∧
      (∀ i, i < 128 → (t.xmm[(0 : Reg)]).getLsbD i = if c.out then r.getLsbD (i / c.elemBits) else r.getLsbD i) ∧
      t.flags.cf = decide (r ≠ 0) ∧ t.flags.zf = decide (lb < c.count) ∧ t.flags.sf = decide (la < c.count) ∧
      t.flags.of = r.getLsbD 0 ∧ t.flags.af = false ∧ t.flags.pf = false
    (readVecOperand (instrLength (.pcmpestrm rex a b imm)) b s = .ok vb →
      ∃ t, exec (.pcmpestrm rex a b imm) s = .next t ∧ good t ∧ t.ymm0Upper = s.ymm0Upper) ∧
    (readVecOperand (instrLength (.vpcmpestrm a b imm)) b s = .ok vb →
      ∃ t, exec (.vpcmpestrm a b imm) s = .next t ∧ good t)

/-- The same for the implicit-length mask forms (R179, R185), with the same choice of the model for the legacy form
(log 5). -/
def Obligations.ImplicitMaskForms : Prop :=
  ∀ (rex : Bool) (a : Reg) (b : Operand) (imm : Byte) (s : State) (vb : Vec),
    let c := pcmpControl imm
    let la := implicitLength c s.xmm[a]
    let lb := implicitLength c vb
    let r := pcmpIntRes2 c s.xmm[a] vb la lb
    let good := fun t : State => MaskFrame s t ∧
      (∀ i, i < 128 → (t.xmm[(0 : Reg)]).getLsbD i = if c.out then r.getLsbD (i / c.elemBits) else r.getLsbD i) ∧
      t.flags.cf = decide (r ≠ 0) ∧ t.flags.zf = decide (lb < c.count) ∧ t.flags.sf = decide (la < c.count) ∧
      t.flags.of = r.getLsbD 0 ∧ t.flags.af = false ∧ t.flags.pf = false
    (readVecOperand (instrLength (.pcmpistrm rex a b imm)) b s = .ok vb →
      ∃ t, exec (.pcmpistrm rex a b imm) s = .next t ∧ good t ∧ t.ymm0Upper = s.ymm0Upper) ∧
    (readVecOperand (instrLength (.vpcmpistrm a b imm)) b s = .ok vb →
      ∃ t, exec (.vpcmpistrm a b imm) s = .next t ∧ good t)

/-- The model's reading of the open parameter (log 5): a VEX mask form leaves above xmm[0] zero, the old bits, or a free
value, as `ymm_upper_effect` says; no other instruction touches those bits. -/
def Obligations.UpperHalfFollowsParameter : Prop :=
  ∀ (i : Instr) (s t : State), exec i s = .next t →
    ((∃ a b imm, i = .vpcmpestrm a b imm ∨ i = .vpcmpistrm a b imm) →
      (Config.ymmUpperEffect = .zeroed → t.ymm0Upper = 0) ∧
      (Config.ymmUpperEffect = .preserved → t.ymm0Upper = s.ymm0Upper) ∧
      (Config.ymmUpperEffect = .any → ∃ n, t.ymm0Upper = Config.freeHalf n)) ∧
    ((∀ a b imm, i ≠ .vpcmpestrm a b imm ∧ i ≠ .vpcmpistrm a b imm) → t.ymm0Upper = s.ymm0Upper)

/-- R183: terminated equal operands under EqualEach. -/
def Obligations.EqualStringsUnderEqualEach : Prop :=
  ∀ (rex : Bool) (a b : Reg) (imm : Byte) (s : State),
    let c := pcmpControl imm
    c.agg = .equalEach → s.xmm[a] = s.xmm[b] → implicitLength c s.xmm[a] < c.count →
    (pcmpIntRes1 c s.xmm[a] s.xmm[b] (implicitLength c s.xmm[a]) (implicitLength c s.xmm[b])).toNat = 2 ^ c.count - 1 ∧
    (c.pol = .noNegate →
      (pcmpIntRes2 c s.xmm[a] s.xmm[b] (implicitLength c s.xmm[a]) (implicitLength c s.xmm[b])).toNat =
        2 ^ c.count - 1) ∧
    (c.pol = .negate →
      (pcmpIntRes2 c s.xmm[a] s.xmm[b] (implicitLength c s.xmm[a]) (implicitLength c s.xmm[b])).toNat = 0) ∧
    ∃ t, exec (.pcmpistri rex a (.reg b) imm) s = .next t ∧ t.flags.zf = true ∧ t.flags.sf = true ∧
      (c.pol = .noNegate → (t.x[Reg.rcx]).toNat = (if c.out then c.count - 1 else 0) ∧
        t.flags.cf = true ∧ t.flags.of = true) ∧
      (c.pol = .negate → (t.x[Reg.rcx]).toNat = c.count ∧ t.flags.cf = false ∧ t.flags.of = false)

/-- R184: the further laws. -/
def Obligations.CompareLaws : Prop :=
  ∀ (imm : Byte) (a b : Vec) (la lb : Nat),
    let c := pcmpControl imm
    la ≤ c.count → lb ≤ c.count →
    (imm.toNat / 16 % 4 ≤ 1 →
      (pcmpIntRes2 (pcmpControl (imm ^^^ 0x10)) a b la lb).toNat =
        (pcmpIntRes2 c a b la lb).toNat ^^^ (2 ^ c.count - 1)) ∧
    (pcmpIntRes2 { c with pol := .maskNegate } a b la c.count).toNat =
      (pcmpIntRes2 { c with pol := .negate } a b la c.count).toNat ∧
    (pcmpIntRes2 { c with pol := .maskNegate } a b la 0).toNat =
      (pcmpIntRes2 { c with pol := .noNegate } a b la 0).toNat ∧
    (c.agg = .equalAny → (pcmpIntRes1 c a b 0 lb).toNat = 0) ∧
    (c.agg = .equalOrdered → (pcmpIntRes1 c a b 0 lb).toNat = 2 ^ c.count - 1) ∧
    (c.agg = .equalAny ∨ c.agg = .ranges → (pcmpIntRes1 c a b la lb).toNat < 2 ^ lb) ∧
    (c.agg = .equalEach → ∀ i, lb ≤ i → i < c.count →
      (pcmpIntRes1 c a b la lb).getLsbD i = decide (la ≤ i)) ∧
    pcmpIndex c (pcmpIntRes2 c a b la lb) ≤ c.count ∧
    (pcmpIndex c (pcmpIntRes2 c a b la lb) = c.count ↔ pcmpIntRes2 c a b la lb = 0)

/-! ### The block and the machine -/

/-- The table of R28 over all instructions, and R27: which flags an instruction writes, that the flags it writes do not
depend on the flags before, and that the other flags stay. For AF and PF of the BMI group (any value by R112, D12) the
equality of the two runs holds because both draw the same free values by the same counter (the model's form, log 4). -/
def Obligations.FlagsTable : Prop :=
  ∀ (i : Instr) (s : State) (f : Flags),
    OutcomesRelated (fun t t' =>
        t' = { t with flags := t'.flags } ∧ SystemFlagsSame s t ∧
        t'.flags.tf = f.tf ∧ t'.flags.ifl = f.ifl ∧ t'.flags.df = f.df ∧ t'.flags.rf = f.rf ∧
        (flagGroup i = .unchanged → t.flags = s.flags ∧ t'.flags = f) ∧
        (flagGroup i ≠ .unchanged → arithFlags t'.flags = arithFlags t.flags) ∧
        (flagGroup i = .bmi → t.flags.of = false) ∧
        (flagGroup i = .pcmp → t.flags.af = false ∧ t.flags.pf = false))
      (exec i s) (exec i { s with flags := f })

/-- R200, R202, R203, R204: decoding that fails gives Unrecognized with 0 consumed bytes whatever memory holds; decoding
that succeeds with an unreadable operand gives AccessFault with its effective address and size; otherwise the block
gives Emulated with the instruction's length. -/
def Obligations.OutcomePriority : Prop :=
  ∀ s : State,
    (∀ e, decode s.mode s.win.toList = .error e →
      emulate s = .refused .unrecognized ∧ consumedBytes (emulate s) = some 0) ∧
    (∀ i a n, decode s.mode s.win.toList = .ok i → memRequest i s = some (a, n) → memRead a n s = none →
      emulate s = .fault (.accessFault a n)) ∧
    (∀ i, decode s.mode s.win.toList = .ok i → RequestReadable i s →
      ∃ t, emulate s = .next (instrLength i, t) ∧ 5 ≤ instrLength i ∧ instrLength i ≤ 12)

/-- R203 at the level of meanings: every instruction completes when it has no memory operand or its one read succeeds,
and its only other outcome is the AccessFault of that read. -/
def Obligations.ExecCompletesOrAccessFaults : Prop :=
  ∀ (i : Instr) (s : State),
    (RequestReadable i s → Completes (exec i s)) ∧
    (∀ a n, memRequest i s = some (a, n) → memRead a n s = none → exec i s = .fault (.accessFault a n))

/-- R29, R32, R48: no instruction writes the instruction pointer, the mode, the window or any byte of memory. -/
def Obligations.ExecKeepsMemoryRipMode : Prop :=
  ∀ (i : Instr) (s t : State), exec i s = .next t → MemSame s t ∧ ContextSame s t

/-- R31 and 45_pcmpstr.md R182: only the mask forms write a vector register, and only xmm[0]; general registers other than
the destinations of R91 and R182 stay. -/
def Obligations.ExecWritesOnlyItsDestinations : Prop :=
  ∀ (i : Instr) (s t : State), exec i s = .next t →
    RegsSameBut (destRegs i) s t ∧ (∀ r : Reg, r ≠ 0 → t.xmm[r] = s.xmm[r]) ∧
    (destRegs i ≠ [] → t.xmm[(0 : Reg)] = s.xmm[(0 : Reg)])

/-- R56: whether the block recognises its window, and as which instruction, depends on the window and the mode alone:
in two states that agree on these, memory and registers aside, both invocations are Unrecognized, or both execute one
and the same instruction and consume its length. -/
def Obligations.WindowAloneIsDecoded : Prop :=
  ∀ (s s' : State), s'.mode = s.mode → s'.win = s.win →
    (emulate s = .refused .unrecognized ↔ emulate s' = .refused .unrecognized) ∧
    (∀ n t n' t', emulate s = .next (n, t) → emulate s' = .next (n', t') → n = n') ∧
    (emulate s ≠ .refused .unrecognized → ∃ i, InvocationRuns i s ∧ InvocationRuns i s')

/-- A step runs the decoded instruction: when the mapped bytes at the instruction pointer (up to 15) hold a whole
instruction, the step is its meaning on the state with that window captured and the other agents' turn taken, followed
by the advance and the next turn; when they do not and are fewer than 15, the window cannot be captured
(the model's choice, log 9); and a full window that holds no instruction is Unrecognized. Bytes past the top of the
address space are those at its start (the model's choice, log 15). -/
def Obligations.StepRunsDecodedInstruction : Prop :=
  ∀ s : State,
    (∀ i, decode s.mode (bytesAtRip s) = .ok i →
      step s = (match exec i (othersTurn { s with win := padWindow (bytesAtRip s) }) with
        | .next t => .next (othersTurn (advance (instrLength i) t))
        | .fault f => .fault f
        | .refused r => .refused r)) ∧
    (∀ e, decode s.mode (bytesAtRip s) = .error e →
      step s = if (bytesAtRip s).length = 15 then .refused .unrecognized
        else .fault (.windowUnreadable (truncAddr s.mode s.rip)))

/-- R30: after a step the instruction pointer is the old one plus the length of the instruction that stood there, modulo
2^64 in M64 and 2^32 in M32. -/
def Obligations.StepAdvancesByLength : Prop :=
  ∀ s t : State, step s = .next t →
    ∃ i, decode s.mode (bytesAtRip s) = .ok i ∧
      t.rip.toNat = (s.rip.toNat + instrLength i) % 2 ^ addrBits s.mode

/-- The invariant (canonical memory, log 7; in M32 a zero-extended instruction pointer, R30) is kept by every step. -/
def Obligations.StepKeepsInvariant : Prop :=
  ∀ s t : State, Inv s → step s = .next t → Inv t

/-- The invariant holds in the state after reset, whose values are the model's choice (log 1). -/
def Obligations.ResetMeetsInvariant : Prop := Inv State.reset

/-- R32: no step changes the mode. -/
def Obligations.StepKeepsMode : Prop :=
  ∀ s t : State, step s = .next t → t.mode = s.mode

/-- R25: in M32 no step changes registers 8 to 15, general or vector. -/
def Obligations.Mode32HighRegistersUntouched : Prop :=
  ∀ s t : State, s.mode = .m32 → step s = .next t →
    ∀ r : Reg, 8 ≤ r.val → t.x[r] = s.x[r] ∧ t.xmm[r] = s.xmm[r]

/-- R25, R29: in M32 a step depends on no bit of registers 8 to 15 and no bit above 31 of a general register or the
instruction pointer: two states that agree on the rest step alike. -/
def Obligations.Mode32ReadsLowHalvesOnly : Prop :=
  ∀ s s' : State, M32Same s s' → OutcomesRelated M32Same (step s) (step s')

/-- The free draws (log 4): exactly the six instructions of R112 take two free values, into AF and PF. -/
def Obligations.FreeFlagDraws : Prop :=
  ∀ (i : Instr) (s t : State), exec i s = .next t →
    (flagGroup i = .bmi → t.draws = s.draws + 2 ∧ t.flags.af = Config.freeBit s.draws ∧
      t.flags.pf = Config.freeBit (s.draws + 1)) ∧
    (flagGroup i = .unchanged → t.draws = s.draws) ∧
    (flagGroup i = .pcmp → s.draws ≤ t.draws ∧ t.draws ≤ s.draws + 1)
end

