-- ==== Sys2Proof/Laws/Bits.lean ====
section
/-! SUPPORT. The small lemmas of Machine/Bits.lean: a bit of each bit-string operation. -/

namespace Sys2Proof.Machine

theorem getLsbD_ofBits (n : Nat) (f : Nat → Bool) (i : Nat) :
    (ofBits n f).getLsbD i = (decide (i < n) && f i) := by
  induction n with
  | zero => simp [ofBits]
  | succ n ih =>
    rw [ofBits, BitVec.getLsbD_cons, ih]
    by_cases h : i = n
    · simp [h]
    · have : decide (i < n) = decide (i < n + 1) := by simp; omega
      simp [h, this]

@[simp] theorem length_bitList {n : Nat} (v : BitVec n) : (bitList v).length = n := by simp [bitList]

theorem getD_bitList {n : Nat} (v : BitVec n) (i : Nat) : (bitList v).getD i false = v.getLsbD i := by
  by_cases h : i < n
  · simp [bitList, List.getD_eq_getElem?_getD, h]
  · simp [bitList, List.getD_eq_getElem?_getD, h, BitVec.getLsbD_of_ge v i (by omega)]

theorem getLsbD_ofBitList (n : Nat) (l : List Bool) (i : Nat) :
    (ofBitList n l).getLsbD i = (decide (i < n) && l.getD i false) := getLsbD_ofBits n _ i

theorem ofBitList_bitList {n : Nat} (v : BitVec n) : ofBitList n (bitList v) = v := by
  apply BitVec.eq_of_getLsbD_eq
  intro i h
  rw [getLsbD_ofBitList, getD_bitList]
  simp [h]

theorem toNat_maskBits (n k : Nat) (h : k ≤ n) : (maskBits n k).toNat = 2 ^ k - 1 := by
  have : 2 ^ k ≤ 2 ^ n := Nat.pow_le_pow_right (by decide) h
  have : 0 < 2 ^ k := Nat.two_pow_pos k
  rw [maskBits, BitVec.toNat_ofNat, Nat.mod_eq_of_lt (by omega)]

theorem getLsbD_maskBits (n k i : Nat) (h : k ≤ n) : (maskBits n k).getLsbD i = decide (i < k) := by
  rw [BitVec.getLsbD, toNat_maskBits n k h, Nat.testBit_two_pow_sub_one]

theorem leNat_lt (bs : List Byte) : leNat bs < 2 ^ (8 * bs.length) := by
  induction bs with
  | nil => simp [leNat]
  | cons b bs ih =>
    have hb : b.toNat < 256 := b.isLt
    have : 2 ^ (8 * (bs.length + 1)) = 256 * 2 ^ (8 * bs.length) := by
      rw [Nat.mul_add, Nat.pow_add]; omega
    simp only [leNat, List.length_cons, this]
    omega

/-- PDEP's loop gives one bit per mask bit. -/
@[simp] theorem length_pdepBits (ms bs : List Bool) : (pdepBits ms bs).length = ms.length := by
  induction ms generalizing bs with
  | nil => simp [pdepBits]
  | cons m ms ih => cases m <;> cases bs <;> simp [pdepBits, ih]

/-- PEXT's loop gives one bit per set mask bit. -/
theorem length_pextBits (ms bs : List Bool) (h : ms.length = bs.length) :
    (pextBits ms bs).length = countBits ms := by
  induction ms generalizing bs with
  | nil => simp [pextBits, countBits]
  | cons m ms ih =>
    cases bs with
    | nil => simp at h
    | cons b bs =>
      have := ih bs (by simpa using h)
      cases m <;> simp [pextBits, countBits, this]
      omega

/-- Place i of PDEP's loop: the source bit whose number is the count of set mask bits below i, under the mask. -/
theorem getD_pdepBits (ms bs : List Bool) (i : Nat) :
    (pdepBits ms bs).getD i false = (ms.getD i false && bs.getD (countBits (ms.take i)) false) := by
  induction ms generalizing bs i with
  | nil => simp [pdepBits]
  | cons m ms ih =>
    cases m
    · cases i with
      | zero => simp [pdepBits]
      | succ i => simp only [pdepBits, List.getD_cons_succ, ih, List.take_succ_cons, countBits]; simp
    · cases bs with
      | nil =>
        cases i with
        | zero => simp [pdepBits, countBits]
        | succ i => simp only [pdepBits, List.getD_cons_succ, ih]; simp
      | cons b bs =>
        cases i with
        | zero => simp [pdepBits, countBits]
        | succ i =>
          simp only [pdepBits, List.getD_cons_succ, ih, List.take_succ_cons, countBits]
          simp [Nat.add_comm 1]

/-- Where PEXT's loop puts the source bit of a set mask bit: the place counts the set mask bits below it. -/
theorem getD_pextBits (ms bs : List Bool) (i : Nat) (h : ms.length = bs.length) (hm : ms.getD i false = true) :
    (pextBits ms bs).getD (countBits (ms.take i)) false = bs.getD i false := by
  induction ms generalizing bs i with
  | nil => simp at hm
  | cons m ms ih =>
    cases bs with
    | nil => simp at h
    | cons b bs =>
      cases i with
      | zero =>
        have hm : m = true := hm
        subst hm
        simp [pextBits, countBits]
      | succ i =>
        have := ih bs i (by simpa using h) hm
        cases m <;> simp only [pextBits, List.take_succ_cons, countBits] <;>
          simpa [Nat.add_comm 1] using this

end Sys2Proof.Machine
end

