-- ==== Sys2Proof/Laws/Decode.lean ====
section
/-! SUPPORT. The small lemmas of Decode.lean: fields taken from the bytes the encoder builds, and how the parts of the
decoder treat bytes that follow the instruction. -/

namespace Sys2Proof

/-! ### Selectors and fields -/

@[simp] theorem mkReg_hi_lo (r : Reg) : mkReg (regHi r) (regLo r) = r := by revert r; decide

theorem regHi_of_lt {r : Reg} (h : r.val < 8) : regHi r = 0 := by revert r; decide

theorem mkReg_zero_lt (lo : BitVec 3) : (mkReg 0 lo).val < 8 := by revert lo; decide

theorem low3_eq (r : Reg) : r.low3 = (regLo r).toNat := by revert r; decide

theorem low3_mkReg (hi : BitVec 1) (lo : BitVec 3) : (mkReg hi lo).low3 = lo.toNat := by revert hi lo; decide

theorem mod_modrmByte (mod : BitVec 2) (reg rm : BitVec 3) :
    (modrmByte mod reg rm).extractLsb' 6 2 = mod := by revert mod reg rm; decide

theorem reg_modrmByte (mod : BitVec 2) (reg rm : BitVec 3) :
    (modrmByte mod reg rm).extractLsb' 3 3 = reg := by revert mod reg rm; decide

theorem rm_modrmByte (mod : BitVec 2) (reg rm : BitVec 3) :
    (modrmByte mod reg rm).extractLsb' 0 3 = rm := by revert mod reg rm; decide

theorem le32_bytes (d : BitVec 32) :
    le32 (d.extractLsb' 0 8) (d.extractLsb' 8 8) (d.extractLsb' 16 8) (d.extractLsb' 24 8) = d := by
  apply BitVec.eq_of_getLsbD_eq
  intro i hi
  simp only [le32, BitVec.getLsbD_append, BitVec.getLsbD_extractLsb']
  by_cases h1 : i < 8
  · simp [h1]
  · by_cases h2 : i < 16
    · have : i - 8 < 8 := by omega
      simp [h1, this, show 8 + (i - 8) = i by omega]
    · by_cases h3 : i < 24
      · have a1 : ¬ i - 8 < 8 := by omega
        have a2 : i - 8 - 8 < 8 := by omega
        simp [h1, a1, a2, show 16 + (i - 8 - 8) = i by omega]
      · have a1 : ¬ i - 8 < 8 := by omega
        have a2 : ¬ i - 8 - 8 < 8 := by omega
        have a3 : i - 8 - 8 - 8 < 8 := by omega
        simp [h1, a1, a2, a3, show 24 + (i - 8 - 8 - 8) = i by omega]

theorem base_sibByte (i : Option Index) (base : BitVec 3) : (sibByte i base).extractLsb' 0 3 = base := by
  cases i with
  | none => revert base; decide
  | some i =>
    obtain ⟨r, sc⟩ := i
    revert r sc base; decide

/-- The index comes back from its SIB byte, but for register 4, which means "no index". -/
theorem decodeIndex_sibByte (i : Option Index) (base : BitVec 3) (h : ∀ j, i = some j → j.reg ≠ 4) :
    decodeIndex (indexHi i) (sibByte i base) = i := by
  cases i with
  | none => revert base; decide
  | some i =>
    obtain ⟨r, sc⟩ := i
    have h4 := h _ rfl
    clear h
    simp only at h4
    revert r sc base; decide

/-! ### Displacements and operands -/

@[simp] theorem takeDisp32_bytesOf32 (d : BitVec 32) (rest : List Byte) :
    takeDisp32 (bytesOf32 d ++ rest) = some (d, rest) := by
  simp [takeDisp32, bytesOf32, le32_bytes]

@[simp] theorem takeDisp_dispBytes (d : Disp) (rest : List Byte) :
    takeDisp (dispMod d) (dispBytes d ++ rest) = some (d, rest) := by
  cases d <;> simp [takeDisp, dispMod, dispBytes]

theorem dispMod_ne_three (d : Disp) : dispMod d ≠ 3#2 := by cases d <;> simp [dispMod]

theorem dispMod_eq_zero {d : Disp} (h : dispMod d = 0) : d = .none := by cases d <;> simp_all [dispMod]

/-- The operand, X and B come back from the encoding of a well-formed operand. -/
theorem decodeOperand_encodeOperand (m : IpMode) (o : Operand) (reg : BitVec 3) (rest : List Byte)
    (h : o.wf m = true) :
    decodeOperand m (encodeOperand o).x (encodeOperand o).b
      (modrmByte (encodeOperand o).mod reg (encodeOperand o).rm) ((encodeOperand o).tail ++ rest) =
      some (o, rest) := by
  rw [decodeOperand, mod_modrmByte, rm_modrmByte]
  cases o with
  | reg r => simp [encodeOperand]
  | mem a =>
    cases a with
    | base b d =>
      simp only [Operand.wf, Addr.wf, Bool.and_eq_true, decide_eq_true_eq, low3_eq] at h
      have h4 : regLo b ≠ 4#3 := fun he => h.1.2 (by rw [he]; rfl)
      have h5 : ¬(dispMod d = 0#2 ∧ regLo b = 5#3) := by
        rintro ⟨hd, he⟩
        have := h.2
        rw [dispMod_eq_zero hd] at this
        simp [Disp.wf, low3_eq, he] at this
      simp [encodeOperand, dispMod_ne_three, decodeAddr, h4, h5]
    | sib b i d =>
      simp only [Operand.wf, Addr.wf, Bool.and_eq_true] at h
      have hi : ∀ j, i = some j → j.reg ≠ 4 := by
        rintro j rfl he
        simp [Index.wfOpt, Index.wf, he] at h
      have h5 : ¬(dispMod d = 0#2 ∧ regLo b = 5#3) := by
        rintro ⟨hd, he⟩
        have := h.2
        rw [dispMod_eq_zero hd] at this
        simp [Disp.wf, low3_eq, he] at this
      simp [encodeOperand, dispMod_ne_three, decodeAddr, decodeSib, base_sibByte, h5, decodeIndex_sibByte i _ hi]
    | sibNoBase i d =>
      simp only [Operand.wf, Addr.wf] at h
      have hi : ∀ j, i = some j → j.reg ≠ 4 := by
        rintro j rfl he
        simp [Index.wfOpt, Index.wf, he] at h
      simp [encodeOperand, decodeAddr, decodeSib, base_sibByte, decodeIndex_sibByte i _ hi]
    | ripRel d =>
      simp only [Operand.wf, Addr.wf, decide_eq_true_eq] at h
      subst h
      simp [encodeOperand, decodeAddr]
    | abs d =>
      simp only [Operand.wf, Addr.wf, decide_eq_true_eq] at h
      subst h
      simp [encodeOperand, decodeAddr]

/-! ### The dispatcher and its table -/

/-- No two rows of the VEX map are selected by one tuple, and each row selects its own instruction. -/
theorem vexDispatch_vexRow (o : VexOp) (reg : BitVec 3) :
    vexDispatch (vexRow o).map (vexRow o).pp (vexRow o).opcode ((vexRow o).ext.getD reg) = some o := by
  cases o <;> revert reg <;> decide

@[simp] theorem opMapOfField_opMapField (m : OpMap) : opMapOfField (opMapField m) = some m := by
  cases m <;> decide

@[simp] theorem simdOfField_simdField (p : Simd) : simdOfField (simdField p) = p := by cases p <;> decide

@[simp] theorem legacyDispatch_legacyOpcode (o : LegacyOp) : legacyDispatch (legacyOpcode o) = some o := by
  cases o <;> decide

/-! ### Bytes after the instruction -/

theorem takeDisp32_append {bs rest z : List Byte} {d : BitVec 32} (h : takeDisp32 bs = some (d, rest)) :
    takeDisp32 (bs ++ z) = some (d, rest ++ z) := by
  rcases bs with _ | ⟨b0, _ | ⟨b1, _ | ⟨b2, _ | ⟨b3, bs⟩⟩⟩⟩ <;> simp_all [takeDisp32]

theorem takeDisp_append {mod : BitVec 2} {bs rest z : List Byte} {d : Disp} (h : takeDisp mod bs = some (d, rest)) :
    takeDisp mod (bs ++ z) = some (d, rest ++ z) := by
  unfold takeDisp at h ⊢
  split at h
  · rename_i h0
    cases h
    simp [h0]
  · rename_i h0
    rw [if_neg h0]
    split at h
    · rename_i h1
      rw [if_pos h1]
      cases bs <;> simp_all
    · rename_i h1
      rw [if_neg h1]
      split at h
      · rename_i d' r' hd
        cases h
        rw [takeDisp32_append hd]
      · cases h

theorem decodeSib_append {mod : BitVec 2} {x b : BitVec 1} {sib : Byte} {bs rest z : List Byte} {a : Addr}
    (h : decodeSib mod x b sib bs = some (a, rest)) : decodeSib mod x b sib (bs ++ z) = some (a, rest ++ z) := by
  unfold decodeSib at h ⊢
  split at h
  · rename_i hc
    rw [if_pos hc]
    split at h
    · rename_i hd
      cases h
      rw [takeDisp32_append hd]
    · cases h
  · rename_i hc
    rw [if_neg hc]
    split at h
    · rename_i hd
      cases h
      rw [takeDisp_append hd]
    · cases h

theorem decodeAddr_append {m : IpMode} {x b : BitVec 1} {mod : BitVec 2} {rm : BitVec 3} {bs rest z : List Byte}
    {a : Addr} (h : decodeAddr m x b mod rm bs = some (a, rest)) :
    decodeAddr m x b mod rm (bs ++ z) = some (a, rest ++ z) := by
  unfold decodeAddr at h ⊢
  split at h
  · rename_i hc
    rw [if_pos hc]
    cases bs with
    | nil => cases h
    | cons sib bs => exact decodeSib_append h
  · rename_i hc
    rw [if_neg hc]
    split at h
    · rename_i hc'
      rw [if_pos hc']
      split at h
      · rename_i hd
        cases h
        rw [takeDisp32_append hd]
      · cases h
    · rename_i hc'
      rw [if_neg hc']
      split at h
      · rename_i hd
        cases h
        rw [takeDisp_append hd]
      · cases h

theorem decodeOperand_append {m : IpMode} {x b : BitVec 1} {modrm : Byte} {bs rest z : List Byte} {o : Operand}
    (h : decodeOperand m x b modrm bs = some (o, rest)) :
    decodeOperand m x b modrm (bs ++ z) = some (o, rest ++ z) := by
  unfold decodeOperand at h ⊢
  split at h
  · rename_i hc
    cases h
    rw [if_pos hc]
  · rename_i hc
    rw [if_neg hc]
    split at h
    · rename_i hd
      cases h
      rw [decodeAddr_append hd]
    · cases h

theorem takeImm_append {has : Bool} {bs rest z : List Byte} {i : Byte} (h : takeImm has bs = some (i, rest)) :
    takeImm has (bs ++ z) = some (i, rest ++ z) := by
  cases has <;> cases bs <;> simp_all [takeImm]

theorem decodeVexOperands_append {m : IpMode} {p : PrefixContext} {o : VexOp} {modrm : Byte} {bs rest z : List Byte}
    {i : Instr} (h : decodeVexOperands m p o modrm bs = .ok (i, rest)) :
    decodeVexOperands m p o modrm (bs ++ z) = .ok (i, rest ++ z) := by
  unfold decodeVexOperands at h ⊢
  split at h
  · cases h
  · rename_i ho
    rw [decodeOperand_append ho]
    simp only
    split at h
    · cases h
    · rename_i hi
      cases h
      rw [takeImm_append hi]

theorem decodeVexBody_append {m : IpMode} {p : PrefixContext} {bs rest z : List Byte} {i : Instr}
    (h : decodeVexBody m p bs = .ok (i, rest)) : decodeVexBody m p (bs ++ z) = .ok (i, rest ++ z) := by
  unfold decodeVexBody at h
  split at h
  · rename_i op modrm bs
    simp only [List.cons_append, decodeVexBody]
    split at h
    · cases h
    · rename_i hl
      rw [if_neg hl]
      split at h
      · cases h
      · split at h
        · cases h
        · rename_i hv
          rw [if_neg hv]
          exact decodeVexOperands_append h
  · cases h

theorem decodeEscape_append {m : IpMode} {rex : Bool} {r x b : BitVec 1} {bs rest z : List Byte} {i : Instr}
    (h : decodeEscape m rex r x b bs = .ok (i, rest)) :
    decodeEscape m rex r x b (bs ++ z) = .ok (i, rest ++ z) := by
  unfold decodeEscape at h
  split at h
  · rename_i e1 e2 op modrm bs
    simp only [List.cons_append, decodeEscape]
    split at h
    · cases h
    · rename_i he
      rw [if_neg he]
      split at h
      · cases h
      · split at h
        · cases h
        · rename_i ho
          rw [decodeOperand_append ho]
          simp only
          split at h
          · cases h
          · rename_i hi
            cases h
            rw [takeImm_append hi]
  · cases h

/-- Decoding stops where the instruction ends: bytes after it change nothing (R96, R97). -/
theorem decodeBytes_append {m : IpMode} {bs rest : List Byte} {i : Instr} (z : List Byte)
    (h : decodeBytes m bs = .ok (i, rest)) : decodeBytes m (bs ++ z) = .ok (i, rest ++ z) := by
  cases bs with
  | nil => cases h
  | cons b0 bs =>
    simp only [List.cons_append, decodeBytes] at h ⊢
    split at h
    · rename_i h0
      rw [if_pos h0]
      unfold decodeVex3 at h
      split at h
      · rename_i b1 b2 bs
        simp only [List.cons_append, decodeVex3]
        split at h
        · cases h
        · rename_i hm
          rw [if_neg hm]
          split at h
          · cases h
          · exact decodeVexBody_append h
      · cases h
    · rename_i h0
      rw [if_neg h0]
      split at h
      · rename_i h1
        rw [if_pos h1]
        cases bs with
        | nil => cases h
        | cons b1 bs =>
          simp only [List.cons_append, decodeVex2] at h ⊢
          split at h
          · cases h
          · rename_i hm
            rw [if_neg hm]
            exact decodeVexBody_append h
      · rename_i h1
        rw [if_neg h1]
        split at h
        · rename_i h2
          rw [if_pos h2]
          cases bs with
          | nil => cases h
          | cons b1 bs =>
            simp only [List.cons_append, decodeLegacy] at h ⊢
            split at h
            · rename_i hr
              rw [if_pos hr]
              exact decodeEscape_append h
            · rename_i hr
              rw [if_neg hr]
              exact decodeEscape_append (bs := b1 :: bs) h
        · cases h

/-- The same for the instruction alone. -/
theorem decode_append {m : IpMode} {bs : List Byte} {i : Instr} (z : List Byte) (h : decode m bs = .ok i) :
    decode m (bs ++ z) = .ok i := by
  unfold decode at h ⊢
  split at h
  · rename_i hd
    cases h
    rw [decodeBytes_append z hd]
  · cases h

end Sys2Proof
end

