-- ==== Sys2Proof/Laws/Memory.lean ====
section
/-! SUPPORT. Memory: a read after a write, and that every memory operation keeps the canonical form. -/

namespace Sys2Proof.Machine

/-- In a memory whose addresses rise from `lo`, an address below `lo` is unmapped. -/
theorem Memory.get_of_lt {m : Memory} {lo a : Nat} (h : Memory.risesFrom lo m = true) (ha : a < lo) :
    Memory.get m a = none := by
  induction m generalizing lo with
  | nil => rfl
  | cons c m ih =>
    obtain ⟨k, b⟩ := c
    simp only [Memory.risesFrom, Bool.and_eq_true, decide_eq_true_eq] at h
    rw [Memory.get, if_neg (by omega)]
    exact ih h.2 (by omega)

theorem Memory.risesFrom_mono {m : Memory} {lo lo' : Nat} (h : Memory.risesFrom lo m = true) (hl : lo' ≤ lo) :
    Memory.risesFrom lo' m = true := by
  cases m with
  | nil => rfl
  | cons c m =>
    obtain ⟨k, b⟩ := c
    simp only [Memory.risesFrom, Bool.and_eq_true, decide_eq_true_eq] at h ⊢
    exact ⟨⟨by omega, h.1.2⟩, h.2⟩

theorem Memory.risesFrom_put {m : Memory} {lo a : Nat} (v : Byte) (h : Memory.risesFrom lo m = true)
    (hlo : lo ≤ a) (ha : a < 2 ^ 64) : Memory.risesFrom lo (Memory.put m a v) = true := by
  induction m generalizing lo with
  | nil =>
    simp only [Memory.put, Memory.risesFrom, Bool.and_eq_true, decide_eq_true_eq]
    exact ⟨⟨hlo, ha⟩, trivial⟩
  | cons c m ih =>
    obtain ⟨k, b⟩ := c
    simp only [Memory.risesFrom, Bool.and_eq_true, decide_eq_true_eq] at h
    rw [Memory.put]
    split
    · simp only [Memory.risesFrom, Bool.and_eq_true, decide_eq_true_eq]
      exact ⟨⟨hlo, ha⟩, ⟨by omega, h.1.2⟩, h.2⟩
    · split
      · rename_i _ he
        subst he
        simp only [Memory.risesFrom, Bool.and_eq_true, decide_eq_true_eq]
        exact ⟨⟨hlo, ha⟩, h.2⟩
      · simp only [Memory.risesFrom, Bool.and_eq_true, decide_eq_true_eq]
        exact ⟨h.1, ih h.2 (by omega)⟩

theorem Memory.risesFrom_remove {m : Memory} {lo a : Nat} (h : Memory.risesFrom lo m = true) :
    Memory.risesFrom lo (Memory.remove m a) = true := by
  induction m generalizing lo with
  | nil => rfl
  | cons c m ih =>
    obtain ⟨k, b⟩ := c
    simp only [Memory.risesFrom, Bool.and_eq_true, decide_eq_true_eq] at h
    rw [Memory.remove]
    split
    · exact Memory.risesFrom_mono (ih h.2) (by omega)
    · simp only [Memory.risesFrom, Bool.and_eq_true, decide_eq_true_eq]
      exact ⟨h.1, ih h.2⟩

/-- Storing a byte keeps the canonical form. -/
theorem Memory.wf_put {m : Memory} {a : Nat} (v : Byte) (h : m.wf = true) (ha : a < 2 ^ 64) :
    (Memory.put m a v).wf = true := Memory.risesFrom_put v h (Nat.zero_le a) ha

/-- Unmapping an address keeps the canonical form. -/
theorem Memory.wf_remove {m : Memory} {a : Nat} (h : m.wf = true) : (Memory.remove m a).wf = true :=
  Memory.risesFrom_remove h

/-- Storing bytes keeps the canonical form. -/
theorem Memory.wf_store (md : IpMode) {m : Memory} (a : Word) (bs : List Byte) (h : m.wf = true) :
    (Memory.store md m a bs).wf = true := by
  induction bs generalizing m a with
  | nil => exact h
  | cons b bs ih => exact ih (a + 1) (Memory.wf_put b h (truncAddr md a).isLt)

/-- An event of another agent keeps the canonical form. -/
theorem Memory.wf_applyEvent {m : Memory} (e : MemEvent) (h : m.wf = true) : (applyEvent m e).wf = true := by
  cases e with
  | store a b => exact Memory.wf_put b h a.isLt
  | unmap a => exact Memory.wf_remove h

/-- So do all events of a turn. -/
theorem Memory.wf_applyEvents {m : Memory} (es : List MemEvent) (h : m.wf = true) :
    (es.foldl applyEvent m).wf = true := by
  induction es generalizing m with
  | nil => exact h
  | cons e es ih => exact ih (Memory.wf_applyEvent e h)

/-- The other agents' turn keeps the canonical form. -/
theorem othersTurn_wf {s : State} (h : s.mem.wf = true) : (othersTurn s).mem.wf = true := by
  unfold othersTurn
  split
  · exact h
  · exact Memory.wf_applyEvents _ h

/-- A write through the accessor keeps the canonical form. -/
theorem memWrite_wf {s t : State} {a : Word} {bs : List Byte} (h : s.mem.wf = true)
    (hw : memWrite a bs s = some t) : t.mem.wf = true := by
  unfold memWrite at hw
  split at hw
  · cases hw
    exact Memory.wf_store _ _ _ h
  · cases hw

/-- Placing bytes at the instruction pointer keeps the canonical form. -/
theorem placeAtRip_wf {s : State} (bs : List Byte) (h : s.mem.wf = true) : (placeAtRip bs s).mem.wf = true :=
  Memory.wf_store _ _ _ h

theorem reset_mem_wf : State.reset.mem.wf = true := rfl

/-- A read after a store gives the byte stored at that address, and elsewhere what was there. -/
theorem Memory.get_put (m : Memory) (a a' : Nat) (v : Byte) :
    Memory.get (Memory.put m a v) a' = if a = a' then some v else Memory.get m a' := by
  induction m with
  | nil => simp [Memory.put, Memory.get]
  | cons c m ih =>
    obtain ⟨k, b⟩ := c
    simp only [Memory.put]
    split
    · simp [Memory.get]
    · split
      · rename_i _ he
        subst he
        by_cases h : a = a' <;> simp [Memory.get, h]
      · rename_i _ hne
        by_cases h : k = a'
        · subst h
          simp [Memory.get, hne]
        · simp [Memory.get, h, ih]

/-- A read after unmapping fails at that address and elsewhere gives what was there. -/
theorem Memory.get_remove (m : Memory) (a a' : Nat) :
    Memory.get (Memory.remove m a) a' = if a = a' then none else Memory.get m a' := by
  induction m with
  | nil => simp [Memory.remove, Memory.get]
  | cons c m ih =>
    obtain ⟨k, b⟩ := c
    by_cases hk : k = a
    · subst hk
      by_cases ha : k = a'
      · subst ha
        simpa [Memory.remove] using ih
      · simp [Memory.remove, Memory.get, ih, ha]
    · by_cases ha : k = a'
      · subst ha
        simp [Memory.remove, Memory.get, hk, Ne.symm hk]
      · simp [Memory.remove, Memory.get, hk, ha, ih]

/-- A successful read has the length asked for. -/
theorem Memory.length_read {md : IpMode} {m : Memory} {a : Word} {n : Nat} {bs : List Byte}
    (h : Memory.read md m a n = some bs) : bs.length = n := by
  induction n generalizing a bs with
  | zero => cases h; rfl
  | succ n ih =>
    rw [Memory.read] at h
    split at h
    · rename_i b bs' _ hr
      cases h
      simp [ih hr]
    · cases h

/-- At most the bytes asked for are readable. -/
theorem Memory.length_readable (md : IpMode) (m : Memory) (a : Word) (n : Nat) :
    (Memory.readable md m a n).length ≤ n := by
  induction n generalizing a with
  | zero => simp [Memory.readable]
  | succ n ih =>
    rw [Memory.readable]
    split
    · simpa using ih (a + 1)
    · simp

/-- What the turn of the other agents leaves alone: everything but memory and the queue. -/
theorem othersTurn_eq (s : State) :
    othersTurn s = { s with mem := (othersTurn s).mem, others := (othersTurn s).others } := by
  unfold othersTurn
  split <;> rfl

@[simp] theorem othersTurn_x (s : State) : (othersTurn s).x = s.x := by rw [othersTurn_eq]
@[simp] theorem othersTurn_flags (s : State) : (othersTurn s).flags = s.flags := by rw [othersTurn_eq]
@[simp] theorem othersTurn_rip (s : State) : (othersTurn s).rip = s.rip := by rw [othersTurn_eq]
@[simp] theorem othersTurn_xmm (s : State) : (othersTurn s).xmm = s.xmm := by rw [othersTurn_eq]
@[simp] theorem othersTurn_ymm0Upper (s : State) : (othersTurn s).ymm0Upper = s.ymm0Upper := by rw [othersTurn_eq]
@[simp] theorem othersTurn_mode (s : State) : (othersTurn s).mode = s.mode := by rw [othersTurn_eq]
@[simp] theorem othersTurn_win (s : State) : (othersTurn s).win = s.win := by rw [othersTurn_eq]
@[simp] theorem othersTurn_draws (s : State) : (othersTurn s).draws = s.draws := by rw [othersTurn_eq]

end Sys2Proof.Machine
end

