-- ==== Sys2Proof/Laws/State.lean ====
section
/-! SUPPORT. One lemma per field and update of State: what each named operation leaves in each field. -/

namespace Sys2Proof.Machine

@[simp] theorem writeReg_x (w : Width) (r : Reg) (v : BitVec w.bits) (s : State) :
    (writeReg w r v s).x = s.x.set r (v.setWidth 64) := rfl

@[simp] theorem writeReg_flags (w : Width) (r : Reg) (v : BitVec w.bits) (s : State) :
    (writeReg w r v s).flags = s.flags := rfl

@[simp] theorem writeReg_rip (w : Width) (r : Reg) (v : BitVec w.bits) (s : State) :
    (writeReg w r v s).rip = s.rip := rfl

@[simp] theorem writeReg_xmm (w : Width) (r : Reg) (v : BitVec w.bits) (s : State) :
    (writeReg w r v s).xmm = s.xmm := rfl

@[simp] theorem writeReg_ymm0Upper (w : Width) (r : Reg) (v : BitVec w.bits) (s : State) :
    (writeReg w r v s).ymm0Upper = s.ymm0Upper := rfl

@[simp] theorem writeReg_mode (w : Width) (r : Reg) (v : BitVec w.bits) (s : State) :
    (writeReg w r v s).mode = s.mode := rfl

@[simp] theorem writeReg_win (w : Width) (r : Reg) (v : BitVec w.bits) (s : State) :
    (writeReg w r v s).win = s.win := rfl

@[simp] theorem writeReg_mem (w : Width) (r : Reg) (v : BitVec w.bits) (s : State) :
    (writeReg w r v s).mem = s.mem := rfl

@[simp] theorem writeReg_others (w : Width) (r : Reg) (v : BitVec w.bits) (s : State) :
    (writeReg w r v s).others = s.others := rfl

@[simp] theorem writeReg_draws (w : Width) (r : Reg) (v : BitVec w.bits) (s : State) :
    (writeReg w r v s).draws = s.draws := rfl

@[simp] theorem writeXmm_x (r : Reg) (v : Vec) (s : State) :
    (writeXmm r v s).x = s.x := rfl

@[simp] theorem writeXmm_flags (r : Reg) (v : Vec) (s : State) :
    (writeXmm r v s).flags = s.flags := rfl

@[simp] theorem writeXmm_rip (r : Reg) (v : Vec) (s : State) :
    (writeXmm r v s).rip = s.rip := rfl

@[simp] theorem writeXmm_xmm (r : Reg) (v : Vec) (s : State) :
    (writeXmm r v s).xmm = s.xmm.set r v := rfl

@[simp] theorem writeXmm_ymm0Upper (r : Reg) (v : Vec) (s : State) :
    (writeXmm r v s).ymm0Upper = s.ymm0Upper := rfl

@[simp] theorem writeXmm_mode (r : Reg) (v : Vec) (s : State) :
    (writeXmm r v s).mode = s.mode := rfl

@[simp] theorem writeXmm_win (r : Reg) (v : Vec) (s : State) :
    (writeXmm r v s).win = s.win := rfl

@[simp] theorem writeXmm_mem (r : Reg) (v : Vec) (s : State) :
    (writeXmm r v s).mem = s.mem := rfl

@[simp] theorem writeXmm_others (r : Reg) (v : Vec) (s : State) :
    (writeXmm r v s).others = s.others := rfl

@[simp] theorem writeXmm_draws (r : Reg) (v : Vec) (s : State) :
    (writeXmm r v s).draws = s.draws := rfl

@[simp] theorem writeBmiFlags_x (cf zf sf : Bool) (s : State) :
    (writeBmiFlags cf zf sf s).x = s.x := rfl

@[simp] theorem writeBmiFlags_flags (cf zf sf : Bool) (s : State) :
    (writeBmiFlags cf zf sf s).flags = { s.flags with
        cf := cf, zf := zf, sf := sf, of := false, af := Config.freeBit s.draws
        pf := Config.freeBit (s.draws + 1) } := rfl

@[simp] theorem writeBmiFlags_rip (cf zf sf : Bool) (s : State) :
    (writeBmiFlags cf zf sf s).rip = s.rip := rfl

@[simp] theorem writeBmiFlags_xmm (cf zf sf : Bool) (s : State) :
    (writeBmiFlags cf zf sf s).xmm = s.xmm := rfl

@[simp] theorem writeBmiFlags_ymm0Upper (cf zf sf : Bool) (s : State) :
    (writeBmiFlags cf zf sf s).ymm0Upper = s.ymm0Upper := rfl

@[simp] theorem writeBmiFlags_mode (cf zf sf : Bool) (s : State) :
    (writeBmiFlags cf zf sf s).mode = s.mode := rfl

@[simp] theorem writeBmiFlags_win (cf zf sf : Bool) (s : State) :
    (writeBmiFlags cf zf sf s).win = s.win := rfl

@[simp] theorem writeBmiFlags_mem (cf zf sf : Bool) (s : State) :
    (writeBmiFlags cf zf sf s).mem = s.mem := rfl

@[simp] theorem writeBmiFlags_others (cf zf sf : Bool) (s : State) :
    (writeBmiFlags cf zf sf s).others = s.others := rfl

@[simp] theorem writeBmiFlags_draws (cf zf sf : Bool) (s : State) :
    (writeBmiFlags cf zf sf s).draws = s.draws + 2 := rfl

@[simp] theorem writePcmpFlags_x (cf zf sf of : Bool) (s : State) :
    (writePcmpFlags cf zf sf of s).x = s.x := rfl

@[simp] theorem writePcmpFlags_flags (cf zf sf of : Bool) (s : State) :
    (writePcmpFlags cf zf sf of s).flags = { s.flags with
        cf := cf, zf := zf, sf := sf, of := of, af := false, pf := false } := rfl

@[simp] theorem writePcmpFlags_rip (cf zf sf of : Bool) (s : State) :
    (writePcmpFlags cf zf sf of s).rip = s.rip := rfl

@[simp] theorem writePcmpFlags_xmm (cf zf sf of : Bool) (s : State) :
    (writePcmpFlags cf zf sf of s).xmm = s.xmm := rfl

@[simp] theorem writePcmpFlags_ymm0Upper (cf zf sf of : Bool) (s : State) :
    (writePcmpFlags cf zf sf of s).ymm0Upper = s.ymm0Upper := rfl

@[simp] theorem writePcmpFlags_mode (cf zf sf of : Bool) (s : State) :
    (writePcmpFlags cf zf sf of s).mode = s.mode := rfl

@[simp] theorem writePcmpFlags_win (cf zf sf of : Bool) (s : State) :
    (writePcmpFlags cf zf sf of s).win = s.win := rfl

@[simp] theorem writePcmpFlags_mem (cf zf sf of : Bool) (s : State) :
    (writePcmpFlags cf zf sf of s).mem = s.mem := rfl

@[simp] theorem writePcmpFlags_others (cf zf sf of : Bool) (s : State) :
    (writePcmpFlags cf zf sf of s).others = s.others := rfl

@[simp] theorem writePcmpFlags_draws (cf zf sf of : Bool) (s : State) :
    (writePcmpFlags cf zf sf of s).draws = s.draws := rfl

@[simp] theorem advance_x (n : Nat) (s : State) :
    (advance n s).x = s.x := rfl

@[simp] theorem advance_flags (n : Nat) (s : State) :
    (advance n s).flags = s.flags := rfl

@[simp] theorem advance_rip (n : Nat) (s : State) :
    (advance n s).rip = truncAddr s.mode (s.rip + BitVec.ofNat 64 n) := rfl

@[simp] theorem advance_xmm (n : Nat) (s : State) :
    (advance n s).xmm = s.xmm := rfl

@[simp] theorem advance_ymm0Upper (n : Nat) (s : State) :
    (advance n s).ymm0Upper = s.ymm0Upper := rfl

@[simp] theorem advance_mode (n : Nat) (s : State) :
    (advance n s).mode = s.mode := rfl

@[simp] theorem advance_win (n : Nat) (s : State) :
    (advance n s).win = s.win := rfl

@[simp] theorem advance_mem (n : Nat) (s : State) :
    (advance n s).mem = s.mem := rfl

@[simp] theorem advance_others (n : Nat) (s : State) :
    (advance n s).others = s.others := rfl

@[simp] theorem advance_draws (n : Nat) (s : State) :
    (advance n s).draws = s.draws := rfl

@[simp] theorem placeAtRip_x (bs : List Byte) (s : State) :
    (placeAtRip bs s).x = s.x := rfl

@[simp] theorem placeAtRip_flags (bs : List Byte) (s : State) :
    (placeAtRip bs s).flags = s.flags := rfl

@[simp] theorem placeAtRip_rip (bs : List Byte) (s : State) :
    (placeAtRip bs s).rip = s.rip := rfl

@[simp] theorem placeAtRip_xmm (bs : List Byte) (s : State) :
    (placeAtRip bs s).xmm = s.xmm := rfl

@[simp] theorem placeAtRip_ymm0Upper (bs : List Byte) (s : State) :
    (placeAtRip bs s).ymm0Upper = s.ymm0Upper := rfl

@[simp] theorem placeAtRip_mode (bs : List Byte) (s : State) :
    (placeAtRip bs s).mode = s.mode := rfl

@[simp] theorem placeAtRip_win (bs : List Byte) (s : State) :
    (placeAtRip bs s).win = s.win := rfl

@[simp] theorem placeAtRip_mem (bs : List Byte) (s : State) :
    (placeAtRip bs s).mem = Memory.store s.mode s.mem s.rip bs := rfl

@[simp] theorem placeAtRip_others (bs : List Byte) (s : State) :
    (placeAtRip bs s).others = s.others := rfl

@[simp] theorem placeAtRip_draws (bs : List Byte) (s : State) :
    (placeAtRip bs s).draws = s.draws := rfl

end Sys2Proof.Machine
end

