-- ==== Sys2Proof/Laws/Ops.lean ====
section
/-! SUPPORT. One lemma for each shared operation that says what it can do: register writes, addresses, the operand
fetch, the commit, the window, the invocation and the step. -/

namespace Sys2Proof.Machine

/-! ### Registers -/

/-- The register written holds the zero-extended value. -/
theorem writeReg_same (w : Width) (r : Reg) (v : BitVec w.bits) (s : State) :
    (writeReg w r v s).x[r] = v.setWidth 64 := by simp

/-- Every other register keeps its value. -/
theorem writeReg_other (w : Width) {r r' : Reg} (v : BitVec w.bits) (s : State) (h : r' ≠ r) :
    (writeReg w r v s).x[r'] = s.x[r'] := by
  have : r.val ≠ r'.val := fun he => h (Fin.ext he.symm)
  simp [this]

@[simp] theorem Width.bits_w32 : Width.w32.bits = 32 := rfl

@[simp] theorem Width.bits_w64 : Width.w64.bits = 64 := rfl

theorem Width.bits_le (w : Width) : w.bits ≤ 64 := by cases w <;> decide

/-- The number the register holds after the write. -/
theorem toNat_writeReg_same (w : Width) (r : Reg) (v : BitVec w.bits) (s : State) :
    ((writeReg w r v s).x[r]).toNat = v.toNat := by
  have h1 := v.isLt
  have h2 : 2 ^ w.bits ≤ 2 ^ 64 := Nat.pow_le_pow_right (by decide) (Width.bits_le w)
  rw [writeReg_same, BitVec.toNat_setWidth, Nat.mod_eq_of_lt (by omega)]

theorem toNat_readReg (w : Width) (r : Reg) (s : State) : (readReg w r s).toNat = s.x[r].toNat % 2 ^ w.bits := by
  rw [readReg, BitVec.toNat_setWidth]

/-- Bit 7:0 of a register is the same at both widths (the index of BZHI and BEXTR). -/
theorem toNat_readReg_mod_256 (w : Width) (r : Reg) (s : State) :
    (readReg w r s).toNat % 256 = s.x[r].toNat % 256 := by
  rw [toNat_readReg]
  cases w
  · exact Nat.mod_mod_of_dvd _ (by decide)
  · exact Nat.mod_mod_of_dvd _ (by decide)

/-- The shift count is the register modulo the width. -/
theorem shiftCount_readReg (w : Width) (r : Reg) (s : State) :
    shiftCount (readReg w r s) = s.x[r].toNat % w.bits := by
  rw [shiftCount, toNat_readReg]
  cases w
  · exact Nat.mod_mod_of_dvd _ (by decide)
  · exact Nat.mod_mod_of_dvd _ (by decide)

/-- The bits of the register written are the bits of the value, zeros above its width. -/
theorem getLsbD_writeReg_same (w : Width) (r : Reg) (v : BitVec w.bits) (s : State) (i : Nat) :
    ((writeReg w r v s).x[r]).getLsbD i = v.getLsbD i := by
  rw [writeReg_same, BitVec.getLsbD_setWidth]
  have := Width.bits_le w
  by_cases h : i < 64
  · simp [h]
  · simp [h, BitVec.getLsbD_of_ge v i (by omega)]

/-- The zero test of the flag rules, on numbers. -/
theorem beq_zero_eq {n : Nat} (v : BitVec n) : (v == 0#n) = decide (v.toNat = 0) := by
  rw [Bool.eq_iff_iff, beq_iff_eq, decide_eq_true_eq, BitVec.toNat_eq, BitVec.toNat_ofNat, Nat.zero_mod]

theorem writeXmm_same (r : Reg) (v : Vec) (s : State) : (writeXmm r v s).xmm[r] = v := by simp

theorem writeXmm_other {r r' : Reg} (v : Vec) (s : State) (h : r' ≠ r) : (writeXmm r v s).xmm[r'] = s.xmm[r'] := by
  have : r.val ≠ r'.val := fun he => h (Fin.ext he.symm)
  simp [this]

/-! ### Addresses -/

/-- Truncation to the address width of the mode. -/
theorem toNat_truncAddr (m : IpMode) (a : Word) :
    (truncAddr m a).toNat = match m with
      | .m64 => a.toNat
      | .m32 => a.toNat % 2 ^ 32 := by
  cases m
  · rfl
  · simp only [truncAddr, BitVec.toNat_setWidth]
    exact Nat.mod_eq_of_lt (by omega)

/-! ### Commit -/

@[simp] theorem withOperand_ok {α : Type} (v : α) (k : α → State) : withOperand (.ok v) k = .next (k v) := rfl

@[simp] theorem withOperand_error {α : Type} (f : Fault) (k : α → State) :
    withOperand (.error f : Except Fault α) k = .fault f := rfl

/-- An instruction completes exactly when its operand was fetched, and then with that operand. -/
theorem withOperand_eq_next {α : Type} {e : Except Fault α} {k : α → State} {t : State} :
    withOperand e k = .next t ↔ ∃ v, e = .ok v ∧ t = k v := by
  cases e <;> simp [withOperand, eq_comm]

/-- It faults exactly when the fetch did, with that fault. -/
theorem withOperand_eq_fault {α : Type} {e : Except Fault α} {k : α → State} {f : Fault} :
    withOperand e k = .fault f ↔ e = .error f := by
  cases e <;> simp [withOperand]

/-- It never refuses. -/
theorem withOperand_ne_refused {α : Type} (e : Except Fault α) (k : α → State) (r : Refusal) :
    withOperand e k ≠ .refused r := by
  cases e <;> simp [withOperand]

/-! ### Operand fetch -/

/-- A load answers the bytes, or the AccessFault of its own address and size. -/
theorem loadBytes_cases (a : Word) (n : Nat) (s : State) :
    (∃ bs, memRead a n s = some bs ∧ loadBytes a n s = .ok bs) ∨
      (memRead a n s = none ∧ loadBytes a n s = .error (.accessFault a n)) := by
  unfold loadBytes
  cases h : memRead a n s <;> simp

/-- The fetch of S answers the register, the loaded value, or the AccessFault of its effective address. -/
theorem readOperand_cases (w : Width) (len : Nat) (o : Operand) (s : State) :
    (∃ r, o = .reg r ∧ readOperand w len o s = .ok (readReg w r s)) ∨
      (∃ a, o = .mem a ∧
        ((∃ bs, memRead (effAddr len a s) w.bytes s = some bs ∧
            readOperand w len o s = .ok (BitVec.ofNat w.bits (leNat bs))) ∨
         (memRead (effAddr len a s) w.bytes s = none ∧
            readOperand w len o s = .error (.accessFault (effAddr len a s) w.bytes)))) := by
  cases o with
  | reg r => exact .inl ⟨r, rfl, rfl⟩
  | mem a =>
    refine .inr ⟨a, rfl, ?_⟩
    rcases loadBytes_cases (effAddr len a s) w.bytes s with ⟨bs, h1, h2⟩ | ⟨h1, h2⟩
    · exact .inl ⟨bs, h1, by simp only [readOperand, h2]⟩
    · exact .inr ⟨h1, by simp only [readOperand, h2]⟩

/-- The fetch of B answers the vector register, the loaded value, or the AccessFault of its effective address. -/
theorem readVecOperand_cases (len : Nat) (o : Operand) (s : State) :
    (∃ r, o = .reg r ∧ readVecOperand len o s = .ok s.xmm[r]) ∨
      (∃ a, o = .mem a ∧
        ((∃ bs, memRead (effAddr len a s) 16 s = some bs ∧
            readVecOperand len o s = .ok (BitVec.ofNat 128 (leNat bs))) ∨
         (memRead (effAddr len a s) 16 s = none ∧
            readVecOperand len o s = .error (.accessFault (effAddr len a s) 16)))) := by
  cases o with
  | reg r => exact .inl ⟨r, rfl, rfl⟩
  | mem a =>
    refine .inr ⟨a, rfl, ?_⟩
    rcases loadBytes_cases (effAddr len a s) 16 s with ⟨bs, h1, h2⟩ | ⟨h1, h2⟩
    · exact .inl ⟨bs, h1, by simp only [readVecOperand, h2]⟩
    · exact .inr ⟨h1, by simp only [readVecOperand, h2]⟩

/-- What a VEX mask form does to the state: at most the upper half and the draw counter. -/
theorem vexUpper_eq (s : State) :
    vexUpper s = { s with ymm0Upper := (vexUpper s).ymm0Upper, draws := (vexUpper s).draws } := by
  unfold vexUpper
  split <;> rfl

@[simp] theorem vexUpper_x (s : State) : (vexUpper s).x = s.x := by rw [vexUpper_eq]
@[simp] theorem vexUpper_flags (s : State) : (vexUpper s).flags = s.flags := by rw [vexUpper_eq]
@[simp] theorem vexUpper_rip (s : State) : (vexUpper s).rip = s.rip := by rw [vexUpper_eq]
@[simp] theorem vexUpper_xmm (s : State) : (vexUpper s).xmm = s.xmm := by rw [vexUpper_eq]
@[simp] theorem vexUpper_mode (s : State) : (vexUpper s).mode = s.mode := by rw [vexUpper_eq]
@[simp] theorem vexUpper_win (s : State) : (vexUpper s).win = s.win := by rw [vexUpper_eq]
@[simp] theorem vexUpper_mem (s : State) : (vexUpper s).mem = s.mem := by rw [vexUpper_eq]
@[simp] theorem vexUpper_others (s : State) : (vexUpper s).others = s.others := by rw [vexUpper_eq]

/-! ### Window, invocation, step -/

/-- The captured window is the readable bytes and then zeros. -/
theorem toList_padWindow (bs : List Byte) (h : bs.length ≤ 15) :
    (padWindow bs).toList = bs ++ List.replicate (15 - bs.length) 0 := by
  apply List.ext_getElem
  · simp; omega
  · intro k h1 h2
    simp only [Vector.getElem_toList, padWindow, Vector.getElem_ofFn]
    by_cases hk : k < bs.length
    · simp [hk]
    · rw [List.getElem_append_right (by omega)]
      simp [hk, List.getD_eq_getElem?_getD]

/-- A capture changes the window alone. -/
theorem captureWindow_eq {s c : State} (h : captureWindow s = some c) :
    callable s.mode (bytesAtRip s) = true ∧ c = { s with win := padWindow (bytesAtRip s) } := by
  unfold captureWindow at h
  split at h
  · rename_i hc
    cases h
    exact ⟨hc, rfl⟩
  · cases h

/-- An invocation that answers Emulated decoded an instruction and ran it. -/
theorem emulate_next {s t : State} {n : Nat} (h : emulate s = .next (n, t)) :
    ∃ i, decode s.mode s.win.toList = .ok i ∧ exec i s = .next t ∧ n = instrLength i := by
  unfold emulate at h
  split at h
  · cases h
  · rename_i i hd
    split at h
    · rename_i u he
      cases h
      exact ⟨i, hd, he, rfl⟩
    · cases h
    · cases h

/-- A step that completes captured a window, decoded an instruction, ran it after the other agents' turn, advanced, and
let the other agents have their next turn. -/
theorem step_next {s t : State} (h : step s = .next t) :
    ∃ c i u, captureWindow s = some c ∧ decode c.mode c.win.toList = .ok i ∧
      exec i (othersTurn c) = .next u ∧ t = othersTurn (advance (instrLength i) u) := by
  unfold step at h
  split at h
  · cases h
  · rename_i c hc
    split at h
    · rename_i n u he
      cases h
      obtain ⟨i, hd, hx, rfl⟩ := emulate_next he
      rw [othersTurn_mode, othersTurn_win] at hd
      exact ⟨c, i, u, hc, hd, hx, rfl⟩
    · cases h
    · cases h

end Sys2Proof.Machine
end

