-- ==== Sys2Proof/Laws/Pcmp.lean ====
section
/-! SUPPORT. The shared core of the string compares: its bits, and what its two commits leave alone. -/

namespace Sys2Proof.Machine

theorem PcmpControl.count_pos (c : PcmpControl) : 0 < c.count := by
  unfold PcmpControl.count
  split <;> decide

theorem PcmpControl.count_le (c : PcmpControl) : c.count ≤ 16 := by
  unfold PcmpControl.count
  split <;> decide

/-- The elements fill the vector. -/
theorem PcmpControl.elemBits_mul_count (c : PcmpControl) : c.elemBits * c.count = 128 := by
  unfold PcmpControl.elemBits PcmpControl.count
  split <;> rfl

theorem explicitLength_le (c : PcmpControl) (r : Reg) (s : State) : explicitLength c r s ≤ c.count :=
  Nat.min_le_right _ _

/-- Bit i of IntRes1 is the aggregation at i. -/
theorem getLsbD_pcmpIntRes1 (c : PcmpControl) (a b : Vec) (la lb i : Nat) :
    (pcmpIntRes1 c a b la lb).getLsbD i = (decide (i < c.count) && pcmpAggregate c a b la lb i) :=
  getLsbD_ofBits c.count _ i

/-- Bit i of the mask output. -/
theorem getLsbD_pcmpMask (c : PcmpControl) (r : BitVec c.count) (i : Nat) (h : i < 128) :
    (pcmpMask c r).getLsbD i = if c.out then r.getLsbD (i / c.elemBits) else r.getLsbD i := by
  unfold pcmpMask
  split
  · rw [getLsbD_ofBits, decide_eq_true h, Bool.true_and]
  · rw [BitVec.getLsbD_setWidth, decide_eq_true h, Bool.true_and]

/-- The commit of an index form, field by field. -/
theorem commitIndex_eq (c : PcmpControl) (la lb : Nat) (r : BitVec c.count) (s : State) :
    commitIndex c la lb r s =
      { s with
        x := (commitIndex c la lb r s).x
        flags := { s.flags with
          cf := r != 0
          zf := decide (lb < c.count)
          sf := decide (la < c.count)
          of := r.getLsbD 0
          af := false
          pf := false } } := rfl

/-- An index form leaves every general register but rCX alone. -/
theorem commitIndex_x_other (c : PcmpControl) (la lb : Nat) (r : BitVec c.count) (s : State) {k : Reg}
    (h : k ≠ Reg.rcx) : (commitIndex c la lb r s).x[k] = s.x[k] :=
  writeReg_other .w32 (BitVec.ofNat 32 (pcmpIndex c r)) s h

/-- The commit of a mask form, field by field. -/
theorem commitMask_eq (c : PcmpControl) (la lb : Nat) (r : BitVec c.count) (s : State) :
    commitMask c la lb r s =
      { s with
        xmm := s.xmm.set 0 (pcmpMask c r)
        flags := { s.flags with
          cf := r != 0
          zf := decide (lb < c.count)
          sf := decide (la < c.count)
          of := r.getLsbD 0
          af := false
          pf := false } } := rfl

end Sys2Proof.Machine
end

