-- ==== Sys2Proof/Laws/PerInstr.lean ====
section
/-! SUPPORT. Statements made of every instruction, one lemma per constructor. EncodeLength: the encoding of an
instruction has the length of 30_encoding.md R95. -/

namespace Sys2Proof.Laws

theorem length_dispBytes (d : Disp) : (dispBytes d).length = dispLength d := by cases d <;> rfl

theorem length_operand_tail (o : Operand) : (encodeOperand o).tail.length = operandLength o := by
  cases o with
  | reg r => rfl
  | mem a => cases a <;> simp [encodeOperand, operandLength, length_dispBytes, bytesOf32, Nat.add_comm]

theorem length_encodeVex (o : VexOp) (w : Width) (reg v : Reg) (rm : Operand) (imm : List Byte) :
    (encodeVex o w reg v rm imm).length = 5 + operandLength rm + imm.length := by
  simp only [encodeVex, List.length_cons, List.length_append, length_operand_tail]
  omega

theorem length_encodeLegacy (o : LegacyOp) (rex : Bool) (a : Reg) (b : Operand) (imm : Byte) :
    (encodeLegacy o rex a b imm).length = legacyLength rex b := by
  cases rex <;> simp [encodeLegacy, legacyLength, length_operand_tail] <;> omega

/-- The encoding of `i` has the length of R95. -/
def EncodeLength.Statement (i : Instr) : Prop := (encode i).length = instrLength i

theorem EncodeLength.blsr (w : Width) (d : Reg) (src : Operand) :
    EncodeLength.Statement (.blsr w d src) := by
  simp [EncodeLength.Statement, encode, instrLength, length_encodeVex, vexLength]

theorem EncodeLength.blsmsk (w : Width) (d : Reg) (src : Operand) :
    EncodeLength.Statement (.blsmsk w d src) := by
  simp [EncodeLength.Statement, encode, instrLength, length_encodeVex, vexLength]

theorem EncodeLength.blsi (w : Width) (d : Reg) (src : Operand) :
    EncodeLength.Statement (.blsi w d src) := by
  simp [EncodeLength.Statement, encode, instrLength, length_encodeVex, vexLength]

theorem EncodeLength.andn (w : Width) (d v : Reg) (src : Operand) :
    EncodeLength.Statement (.andn w d v src) := by
  simp [EncodeLength.Statement, encode, instrLength, length_encodeVex, vexLength]

theorem EncodeLength.bzhi (w : Width) (d : Reg) (src : Operand) (v : Reg) :
    EncodeLength.Statement (.bzhi w d src v) := by
  simp [EncodeLength.Statement, encode, instrLength, length_encodeVex, vexLength]

theorem EncodeLength.pext (w : Width) (d v : Reg) (src : Operand) :
    EncodeLength.Statement (.pext w d v src) := by
  simp [EncodeLength.Statement, encode, instrLength, length_encodeVex, vexLength]

theorem EncodeLength.pdep (w : Width) (d v : Reg) (src : Operand) :
    EncodeLength.Statement (.pdep w d v src) := by
  simp [EncodeLength.Statement, encode, instrLength, length_encodeVex, vexLength]

theorem EncodeLength.mulx (w : Width) (dhi dlo : Reg) (src : Operand) :
    EncodeLength.Statement (.mulx w dhi dlo src) := by
  simp [EncodeLength.Statement, encode, instrLength, length_encodeVex, vexLength]

theorem EncodeLength.bextr (w : Width) (d : Reg) (src : Operand) (v : Reg) :
    EncodeLength.Statement (.bextr w d src v) := by
  simp [EncodeLength.Statement, encode, instrLength, length_encodeVex, vexLength]

theorem EncodeLength.shlx (w : Width) (d : Reg) (src : Operand) (v : Reg) :
    EncodeLength.Statement (.shlx w d src v) := by
  simp [EncodeLength.Statement, encode, instrLength, length_encodeVex, vexLength]

theorem EncodeLength.sarx (w : Width) (d : Reg) (src : Operand) (v : Reg) :
    EncodeLength.Statement (.sarx w d src v) := by
  simp [EncodeLength.Statement, encode, instrLength, length_encodeVex, vexLength]

theorem EncodeLength.shrx (w : Width) (d : Reg) (src : Operand) (v : Reg) :
    EncodeLength.Statement (.shrx w d src v) := by
  simp [EncodeLength.Statement, encode, instrLength, length_encodeVex, vexLength]

theorem EncodeLength.rorx (w : Width) (d : Reg) (src : Operand) (imm : Byte) :
    EncodeLength.Statement (.rorx w d src imm) := by
  simp [EncodeLength.Statement, encode, instrLength, length_encodeVex, vexLength]

theorem EncodeLength.pcmpestrm (rex : Bool) (a : Reg) (b : Operand) (imm : Byte) :
    EncodeLength.Statement (.pcmpestrm rex a b imm) := length_encodeLegacy _ _ _ _ _

theorem EncodeLength.pcmpestri (rex : Bool) (a : Reg) (b : Operand) (imm : Byte) :
    EncodeLength.Statement (.pcmpestri rex a b imm) := length_encodeLegacy _ _ _ _ _

theorem EncodeLength.pcmpistrm (rex : Bool) (a : Reg) (b : Operand) (imm : Byte) :
    EncodeLength.Statement (.pcmpistrm rex a b imm) := length_encodeLegacy _ _ _ _ _

theorem EncodeLength.pcmpistri (rex : Bool) (a : Reg) (b : Operand) (imm : Byte) :
    EncodeLength.Statement (.pcmpistri rex a b imm) := length_encodeLegacy _ _ _ _ _

theorem EncodeLength.vpcmpestrm (a : Reg) (b : Operand) (imm : Byte) :
    EncodeLength.Statement (.vpcmpestrm a b imm) := by
  simp [EncodeLength.Statement, encode, instrLength, length_encodeVex, vexLength]

theorem EncodeLength.vpcmpestri (a : Reg) (b : Operand) (imm : Byte) :
    EncodeLength.Statement (.vpcmpestri a b imm) := by
  simp [EncodeLength.Statement, encode, instrLength, length_encodeVex, vexLength]

theorem EncodeLength.vpcmpistrm (a : Reg) (b : Operand) (imm : Byte) :
    EncodeLength.Statement (.vpcmpistrm a b imm) := by
  simp [EncodeLength.Statement, encode, instrLength, length_encodeVex, vexLength]

theorem EncodeLength.vpcmpistri (a : Reg) (b : Operand) (imm : Byte) :
    EncodeLength.Statement (.vpcmpistri a b imm) := by
  simp [EncodeLength.Statement, encode, instrLength, length_encodeVex, vexLength]

end Sys2Proof.Laws
end

