-- ==== Sys2Proof/Tests/Slice0.lean ====
section
/-! SUPPORT. The model's own tests: what WellFormed refuses, words of the spec decoded, small invocations with the
results of spec/95_test_vectors.md, and a witness for the hypotheses of each statement. -/

open Sys2Proof Sys2Proof.Machine Sys2Proof.Safety

namespace Sys2Proof.Tests

/-! ### WellFormed: each check refuses an ill-formed term -/

theorem test_wf_accepts : (Instr.andn .w64 8 15 (.mem (.sib 12 (some ⟨13, 3⟩) (.d32 7)))).wf .m64 = true := by decide
theorem test_wf_accepts_m32 : (Instr.mulx .w32 7 3 (.mem (.abs 9))).wf .m32 = true := by decide
theorem test_wf_dest_m32 : (Instr.blsr .w32 8 (.reg 0)).wf .m32 = false := by decide
theorem test_wf_vvvv_m32 : (Instr.andn .w32 0 9 (.reg 0)).wf .m32 = false := by decide
theorem test_wf_rm_m32 : (Instr.shlx .w32 0 (.reg 8) 0).wf .m32 = false := by decide
theorem test_wf_width_m32 : (Instr.rorx .w64 0 (.reg 0) 1).wf .m32 = false := by decide
theorem test_wf_base_needs_sib : (Instr.blsi .w32 0 (.mem (.base 12 .none))).wf .m64 = false := by decide
theorem test_wf_base_needs_disp : (Instr.blsi .w32 0 (.mem (.base 13 .none))).wf .m64 = false := by decide
theorem test_wf_sib_base_needs_disp : (Instr.blsi .w32 0 (.mem (.sib 5 none .none))).wf .m64 = false := by decide
theorem test_wf_no_index_4 : (Instr.pext .w32 0 0 (.mem (.sib 0 (some ⟨4, 0⟩) .none))).wf .m64 = false := by decide
theorem test_wf_no_index_4_no_base : (Instr.pdep .w32 0 0 (.mem (.sibNoBase (some ⟨4, 0⟩) 0))).wf .m64 = false := by
  decide
theorem test_wf_index_m32 : (Instr.pext .w32 0 0 (.mem (.sib 0 (some ⟨12, 0⟩) .none))).wf .m32 = false := by decide
theorem test_wf_base_m32 : (Instr.pext .w32 0 0 (.mem (.base 9 .none))).wf .m32 = false := by decide
theorem test_wf_rip_relative_m32 : (Instr.bzhi .w32 0 (.mem (.ripRel 0)) 0).wf .m32 = false := by decide
theorem test_wf_absolute_m64 : (Instr.bzhi .w32 0 (.mem (.abs 0)) 0).wf .m64 = false := by decide
theorem test_wf_no_rex_m32 : (Instr.pcmpistri true 0 (.reg 0) 0).wf .m32 = false := by decide
theorem test_wf_reg_needs_rex : (Instr.pcmpistri false 8 (.reg 0) 0).wf .m64 = false := by decide
theorem test_wf_rm_needs_rex : (Instr.pcmpestrm false 0 (.mem (.base 8 .none)) 0).wf .m64 = false := by decide
theorem test_wf_vex_m32 : (Instr.vpcmpistrm 8 (.reg 0) 0).wf .m32 = false := by decide

/-! ### Decoding: words of the spec -/

/-- V-BLSR-6, by fields: C4; R̄ 1, X̄ 1, B̄ 0 (rm 12), map 00010; W 1, vvvv 9 inverted 0110, L 0, pp 00; F3; mod 11,
/1, rm 100. -/
theorem test_decode_blsr : decode .m64
    [0xC4, (0b11000010 : Byte), 0b10110000, 0xF3, 0b11001100] = .ok (.blsr .w64 9 (.reg 12)) := by decide
/-- V-BLSMSK-1: /2. -/
theorem test_decode_blsmsk : decode .m64
    [0xC4, 0xE2, (0b11111000 : Byte), 0xF3, 0b11010011] = .ok (.blsmsk .w64 0 (.reg 3)) := by decide
/-- V-BLSI-4: W 0, /3. -/
theorem test_decode_blsi : decode .m64
    [0xC4, 0xE2, (0b01111000 : Byte), 0xF3, 0b11011011] = .ok (.blsi .w32 0 (.reg 3)) := by decide
/-- V-ANDN-4: R̄ 0, B̄ 0, vvvv 9. -/
theorem test_decode_andn : decode .m64
    [0xC4, (0b01000010 : Byte), 0b10110000, 0xF2, 0b11000010] = .ok (.andn .w64 8 9 (.reg 10)) := by decide
theorem test_decode_bzhi : decode .m64 [0xC4, 0xE2, 0x60, 0xF5, 0xC1] = .ok (.bzhi .w32 0 (.reg 1) 3) := by decide
theorem test_decode_pext : decode .m64 [0xC4, 0xE2, 0xE2, 0xF5, 0xC1] = .ok (.pext .w64 0 3 (.reg 1)) := by decide
theorem test_decode_pdep : decode .m64 [0xC4, 0xE2, 0xE3, 0xF5, 0xC1] = .ok (.pdep .w64 0 3 (.reg 1)) := by decide
theorem test_decode_mulx : decode .m64 [0xC4, 0xE2, 0xE3, 0xF6, 0xC8] = .ok (.mulx .w64 1 3 (.reg 0)) := by decide
/-- V-MEM-2: mod 01, rm 100; SIB scale 10, index 011, base 110; disp8. -/
theorem test_decode_bextr : decode .m64
    [0xC4, 0xE2, 0x70, 0xF7, (0b01000100 : Byte), 0b10011110, 0x10] =
      .ok (.bextr .w32 0 (.mem (.sib 6 (some ⟨3, 2⟩) (.d8 16))) 1) := by decide
theorem test_decode_shlx : decode .m64 [0xC4, 0xE2, 0xE1, 0xF7, 0xC1] = .ok (.shlx .w64 0 (.reg 1) 3) := by decide
theorem test_decode_sarx : decode .m64 [0xC4, 0xE2, 0x62, 0xF7, 0xC1] = .ok (.sarx .w32 0 (.reg 1) 3) := by decide
theorem test_decode_shrx : decode .m64 [0xC4, 0xE2, 0x63, 0xF7, 0xC1] = .ok (.shrx .w32 0 (.reg 1) 3) := by decide
/-- V-MEM-7: no base, no index, disp32, then the immediate. -/
theorem test_decode_rorx : decode .m64
    [0xC4, 0xE3, 0x7B, 0xF0, 0x04, 0x25, 0x00, 0x20, 0x00, 0x00, 0x04] =
      .ok (.rorx .w32 0 (.mem (.sibNoBase none 0x2000)) 4) := by decide
theorem test_decode_pcmpestrm : decode .m64 [0x66, 0x0F, 0x3A, 0x60, 0xC1, 0x44] =
    .ok (.pcmpestrm false 0 (.reg 1) 0x44) := by decide
theorem test_decode_pcmpestri : decode .m32 [0x66, 0x0F, 0x3A, 0x61, 0xC1, 0x08] =
    .ok (.pcmpestri false 0 (.reg 1) 8) := by decide
theorem test_decode_pcmpistrm : decode .m64 [0x66, 0x0F, 0x3A, 0x62, 0xC1, 0x40] =
    .ok (.pcmpistrm false 0 (.reg 1) 0x40) := by decide
/-- The longest admitted form, 12 bytes, from the table of L1-P6. -/
theorem test_decode_pcmpistri : decode .m64
    [0x66, (0b01000001 : Byte), 0x0F, 0x3A, 0x63, 0b10000100, 0b00100100, 0x00, 0x01, 0x00, 0x00, 0x0C] =
      .ok (.pcmpistri true 0 (.mem (.sib 12 none (.d32 0x100))) 0x0C) := by decide
theorem test_decode_vpcmpestrm : decode .m64 [0xC4, 0xE3, 0x79, 0x60, 0xC1, 0x44] =
    .ok (.vpcmpestrm 0 (.reg 1) 0x44) := by decide
theorem test_decode_vpcmpestri : decode .m64 [0xC4, 0xE3, 0xF9, 0x61, 0xC1, 0x18] =
    .ok (.vpcmpestri 0 (.reg 1) 0x18) := by decide
/-- By fields (R67, R93): R̄ 0, X̄ 1, B̄ 1, map 00011; W 0, raw vvvv 1111, L 0, pp 01; 62; mod 11, reg 000, rm 001. -/
theorem test_decode_vpcmpistrm : decode .m64
    [0xC4, (0b01100011 : Byte), 0b01111001, 0x62, 0b11000001, 0x18] = .ok (.vpcmpistrm 8 (.reg 1) 0x18) := by decide
theorem test_decode_vpcmpistri : decode .m64
    [0xC4, 0xC3, 0x79, 0x63, 0x84, 0x24, 0x00, 0x01, 0x00, 0x00, 0x0C] =
      .ok (.vpcmpistri 0 (.mem (.sib 12 none (.d32 0x100))) 0x0C) := by decide

/-- V-PC-VEX-3: an unused vvvv field that is not 1111. -/
theorem test_decode_unused_vvvv : decode .m64 [0xC4, 0xE3, 0x71, 0x63, 0xC1, 0x18] = .error .unusedVvvv := by decide
/-- V-PC-VEX-4: L = 1. -/
theorem test_decode_vex_l : decode .m64 [0xC4, 0xE3, 0x7D, 0x63, 0xC1, 0x18] = .error .vexL := by decide
/-- L1-6: opcode AA. -/
theorem test_decode_opcode_aa : decode .m64 [0xC4, 0xE2, 0x78, 0xAA, 0xC0] = .error .noRow := by decide
/-- R94: F3 with /0. -/
theorem test_decode_f3_slash_0 : decode .m64 [0xC4, 0xE2, 0x78, 0xF3, 0xC0] = .error .noRow := by decide
/-- R71, R94: map field 4. -/
theorem test_decode_map_4 : decode .m64 [0xC4, 0xE4, 0x78, 0xF2, 0xC0] = .error .mapField := by decide

/-- The word as the opcode table numbers it: ANDN of V-ANDN-1. -/
theorem test_table_word : decodeTableWord 40 0xC8F2E0E2C4 = some (.andn .w64 1 3 (.reg 0)) := by decide

/-! ### One invocation each, with the results of 95_test_vectors.md -/

/-- Registers named are set, the others are 0; all six arithmetic flags are 1, as the vectors' start state has them. -/
def start (rs : List (Reg × Word)) : State :=
  { State.reset with
    x := rs.foldl (fun x p => x.set p.1 p.2) (Vector.replicate 16 0)
    flags := { Flags.clear with cf := true, pf := true, af := true, zf := true, sf := true, of := true } }

/-- One invocation of the block on these bytes. -/
def invoke (bs : List Byte) (s : State) : Host.Outcome (Nat × State) Fault Refusal :=
  emulate { s with win := padWindow bs }

/-- A register after the invocation. -/
def regAfter (r : Reg) (o : Host.Outcome (Nat × State) Fault Refusal) : Option Word :=
  match o with
  | .next (_, t) => some t.x[r]
  | _ => none

/-- xmm0 after the invocation. -/
def xmm0After (o : Host.Outcome (Nat × State) Fault Refusal) : Option Vec :=
  match o with
  | .next (_, t) => some t.xmm[0]
  | _ => none

/-- CF, ZF, SF, OF after the invocation. -/
def flagsAfter (o : Host.Outcome (Nat × State) Fault Refusal) : Option (Bool × Bool × Bool × Bool) :=
  match o with
  | .next (_, t) => some (t.flags.cf, t.flags.zf, t.flags.sf, t.flags.of)
  | _ => none

/-- AF and PF after the invocation. -/
def afPfAfter (o : Host.Outcome (Nat × State) Fault Refusal) : Option (Bool × Bool) :=
  match o with
  | .next (_, t) => some (t.flags.af, t.flags.pf)
  | _ => none

/-- V-BLSR-4. -/
theorem test_blsr_w32 : regAfter 0 (invoke [0xC4, 0xE2, 0x78, 0xF3, 0xCB]
    (start [(0, 0xFFFFFFFF00000000), (3, 0xFFFFFFFFFFFFFFFF)])) = some 0xFFFFFFFE := by decide
/-- V-BLSR-2. -/
theorem test_blsr_flags : flagsAfter (invoke [0xC4, 0xE2, 0xF8, 0xF3, 0xCB] (start [(0, 0x1234)])) =
    some (true, true, false, false) := by decide
/-- V-BLSMSK-4. -/
theorem test_blsmsk : regAfter 0 (invoke [0xC4, 0xE2, 0xF8, 0xF3, 0xD3] (start [(3, 0x8000000000000000)])) =
    some 0xFFFFFFFFFFFFFFFF := by decide
/-- V-BLSMSK-2. -/
theorem test_blsmsk_flags : flagsAfter (invoke [0xC4, 0xE2, 0xF8, 0xF3, 0xD3] (start [])) =
    some (true, false, true, false) := by decide
/-- V-BLSI-4. -/
theorem test_blsi : regAfter 0 (invoke [0xC4, 0xE2, 0x78, 0xF3, 0xDB] (start [(3, 0xFFFFFFFF80000000)])) =
    some 0x80000000 := by decide
/-- V-BLSI-2. -/
theorem test_blsi_flags : flagsAfter (invoke [0xC4, 0xE2, 0xF8, 0xF3, 0xDB] (start [(0, 5)])) =
    some (false, true, false, false) := by decide
/-- V-ANDN-1. -/
theorem test_andn : regAfter 1 (invoke [0xC4, 0xE2, 0xE0, 0xF2, 0xC8] (start [(0, 0xFFFF), (3, 0xF0F0)])) =
    some 0xF0F := by decide
/-- V-ANDN-3. -/
theorem test_andn_flags : flagsAfter (invoke [0xC4, 0xE2, 0x60, 0xF2, 0xC8]
    (start [(0, 0xFFFFFFFF80000001), (1, 0xFFFFFFFFFFFFFFFF)])) = some (false, false, true, false) := by decide
/-- V-BZHI-3. -/
theorem test_bzhi : regAfter 0 (invoke [0xC4, 0xE2, 0xE0, 0xF5, 0xC1] (start [(1, 0xFFFFFFFFFFFFFFFF), (3, 0x3F)])) =
    some 0x7FFFFFFFFFFFFFFF := by decide
/-- V-BZHI-4. -/
theorem test_bzhi_flags : flagsAfter (invoke [0xC4, 0xE2, 0xE0, 0xF5, 0xC1]
    (start [(1, 0xFFFFFFFFFFFFFFFF), (3, 0x40)])) = some (true, false, true, false) := by decide
/-- V-PEXT-1. -/
theorem test_pext : regAfter 0 (invoke [0xC4, 0xE2, 0xE2, 0xF5, 0xC1] (start [(3, 0xFF00FF00), (1, 0x12345678)])) =
    some 0x1256 := by decide +kernel
/-- V-PEXT-4. -/
theorem test_pext_flags : flagsAfter (invoke [0xC4, 0xE2, 0x62, 0xF5, 0xC1]
    (start [(3, 0x80000001), (1, 0xFFFFFFFF80000000)])) = some (true, true, true, true) := by decide
/-- V-PDEP-1. -/
theorem test_pdep : regAfter 0 (invoke [0xC4, 0xE2, 0xE3, 0xF5, 0xC1] (start [(3, 0xFF00FF00), (1, 0x1234)])) =
    some 0x12003400 := by decide +kernel
/-- V-PDEP-4. -/
theorem test_pdep_w32 : regAfter 0 (invoke [0xC4, 0xE2, 0x63, 0xF5, 0xC1] (start [(3, 0x80000001), (1, 3)])) =
    some 0x80000001 := by decide
/-- V-MULX-2: the high half in ModRM.reg. -/
theorem test_mulx_high : regAfter 1 (invoke [0xC4, 0xE2, 0xE3, 0xF6, 0xC8]
    (start [(0, 0xFFFFFFFFFFFFFFFF), (2, 0xFFFFFFFFFFFFFFFF)])) = some 0xFFFFFFFFFFFFFFFE := by decide
/-- V-MULX-4: one register for both halves. -/
theorem test_mulx_same : regAfter 1 (invoke [0xC4, 0xE2, 0xF3, 0xF6, 0xC8]
    (start [(0, 0x10), (1, 0x1000000000000001), (2, 0x1000000000000000)])) = some 1 := by decide
/-- V-BEXTR-1. -/
theorem test_bextr : regAfter 0 (invoke [0xC4, 0xE2, 0xE0, 0xF7, 0xC1] (start [(1, 0x12345678), (3, 0x804)])) =
    some 0x67 := by decide
/-- V-BEXTR-5: start + length past the width. -/
theorem test_bextr_top : regAfter 0 (invoke [0xC4, 0xE2, 0xE0, 0xF7, 0xC1]
    (start [(1, 0xF000000000000000), (3, 0x103C)])) = some 0xF := by decide
/-- V-SHLX-1: the count is taken modulo the width. -/
theorem test_shlx : regAfter 0 (invoke [0xC4, 0xE2, 0x61, 0xF7, 0xC1] (start [(1, 0x80000001), (3, 0x21)])) =
    some 2 := by decide
/-- V-SHLX-3. -/
theorem test_shlx_w64 : regAfter 0 (invoke [0xC4, 0xE2, 0xE1, 0xF7, 0xC1] (start [(1, 3), (3, 0x3F)])) =
    some 0x8000000000000000 := by decide
/-- V-SARX-1. -/
theorem test_sarx : regAfter 0 (invoke [0xC4, 0xE2, 0x62, 0xF7, 0xC1] (start [(1, 0x80000000), (3, 4)])) =
    some 0xF8000000 := by decide
/-- The example of R124. -/
theorem test_shrx : regAfter 0 (invoke [0xC4, 0xE2, 0x63, 0xF7, 0xC1] (start [(1, 0x80000000), (3, 4)])) =
    some 0x08000000 := by decide
/-- The example of R125, W = 1. -/
theorem test_rorx : regAfter 0 (invoke [0xC4, 0xE3, 0xFB, 0xF0, 0xC1, 0x08] (start [(1, 0x12345678)])) =
    some 0x7800000000123456 := by decide
/-- V-RORX-1. -/
theorem test_rorx_w32 : regAfter 0 (invoke [0xC4, 0xE3, 0x7B, 0xF0, 0xC1, 0x08] (start [(1, 0x12345678)])) =
    some 0x78123456 := by decide

/-- Operands in xmm0 and xmm1. -/
def strings (a b : Vec) (rs : List (Reg × Word)) : State :=
  { start rs with xmm := ((Vector.replicate 16 (0 : Vec)).set 0 a).set 1 b }

/-- "azAZ". -/
def azAZ : Vec := 0x5A417A61
/-- "Hello12!". -/
def hello12 : Vec := 0x2132316F6C6C6548
/-- "aeiou". -/
def vowels : Vec := 0x756F696561
/-- "hello world". -/
def helloWorld : Vec := 0x646C726F77206F6C6C6568
/-- "ABCDEFGH". -/
def letters : Vec := 0x4847464544434241
/-- "ABCDEXGH". -/
def lettersX : Vec := 0x4847584544434241

/-- Scenario 5 with IMM8 = 0x44. -/
theorem test_pcmpestrm : xmm0After (invoke [0x66, 0x0F, 0x3A, 0x60, 0xC1, 0x44]
    (strings azAZ hello12 [(0, 4), (2, 8)])) = some 0xFFFFFFFFFF := by decide +kernel
/-- V-PC-S5-45: words. -/
theorem test_pcmpestrm_words : xmm0After (invoke [0x66, 0x0F, 0x3A, 0x60, 0xC1, 0x45]
    (strings azAZ hello12 [(0, 4), (2, 8)])) = some 0xFFFFFFFFFFFFFFFF0000000000000000 := by decide +kernel
/-- V-PC-EXP-1: lengths are magnitudes. -/
theorem test_pcmpestri : flagsAfter (invoke [0x66, 0x0F, 0x3A, 0x61, 0xC1, 0x08]
    (strings 0x636261 0x636261 [(0, 0xFFFFFFFD), (2, 0x80000000), (1, 0xDEAD)])) =
      some (true, false, true, true) := by decide
/-- V-PC-EXP-7: no set bit. -/
theorem test_pcmpestri_none : regAfter 1 (invoke [0x66, 0x0F, 0x3A, 0x61, 0xC1, 0x00] (strings 0 0 [(1, 0xDEAD)])) =
    some 0x10 := by decide
/-- V-PC-ANY-3. -/
theorem test_pcmpistrm : xmm0After (invoke [0x66, 0x0F, 0x3A, 0x62, 0xC1, 0x40] (strings vowels helloWorld [])) =
    some 0xFF0000FF0000FF00 := by decide +kernel
/-- V-PC-ORD-5: the empty string is found everywhere. -/
theorem test_pcmpistrm_ordered : xmm0After (invoke [0x66, 0x0F, 0x3A, 0x62, 0xC1, 0x0C]
    (strings 0 0x6F6C6C6568 [])) = some 0xFFFF := by decide
/-- Scenario 4 with IMM8 = 0x18. -/
theorem test_pcmpistri : regAfter 1 (invoke [0x66, 0x0F, 0x3A, 0x63, 0xC1, 0x18]
    (strings letters lettersX [(1, 0xDEAD)])) = some 5 := by decide
/-- The same: AF and PF are cleared. -/
theorem test_pcmpistri_af_pf : afPfAfter (invoke [0x66, 0x0F, 0x3A, 0x63, 0xC1, 0x18]
    (strings letters lettersX [])) = some (false, false) := by decide
/-- V-PC-VEX-1. -/
theorem test_vpcmpistri : regAfter 1 (invoke [0xC4, 0xE3, 0x79, 0x63, 0xC1, 0x18]
    (strings letters lettersX [(1, 0xDEAD)])) = some 5 := by decide
/-- The legacy vector V-PC-EXP-7 in its VEX form (R185). -/
theorem test_vpcmpestri : regAfter 1 (invoke [0xC4, 0xE3, 0x79, 0x61, 0xC1, 0x00] (strings 0 0 [(1, 0xDEAD)])) =
    some 0x10 := by decide
/-- V-PC-VEX-5, from the meaning: `vexUpper` leaves xmm0 alone. -/
theorem test_vpcmpestrm : ∃ t, exec (.vpcmpestrm 0 (.reg 1) 0x44) (strings azAZ hello12 [(0, 4), (2, 8)]) = .next t ∧
    t.xmm[(0 : Reg)] = 0xFFFFFFFFFF := ⟨_, rfl, by rw [vexUpper_xmm]; decide +kernel⟩
/-- V-PC-ANY-4 in its VEX form (R185). -/
theorem test_vpcmpistrm : ∃ t, exec (.vpcmpistrm 0 (.reg 1) 0) (strings vowels helloWorld []) = .next t ∧
    t.xmm[(0 : Reg)] = 0x92 := ⟨_, rfl, by rw [vexUpper_xmm]; decide⟩

/-! ### Memory operands, the mode, the step -/

/-- The machine with these bytes at an address. -/
def mapped (a : Word) (bs : List Byte) (s : State) : State := { s with mem := Memory.store s.mode s.mem a bs }

/-- V-PC-MEM-2: an unmapped operand. -/
theorem test_access_fault : invoke [0x66, 0x0F, 0x3A, 0x63, 0x06, 0x0C] (start [(6, 0x2000)]) =
    .fault (.accessFault 0x2000 16) := rfl
/-- One byte short is no partial read (R45). -/
theorem test_access_fault_short : invoke [0xC4, 0xE2, 0xF8, 0xF3, 0x0E]
    (mapped 0x2000 (List.replicate 7 1) (start [(6, 0x2000)])) = .fault (.accessFault 0x2000 8) := rfl
/-- RIP-relative: the address counts from the end of the instruction (R86); little-endian (R45). -/
theorem test_rip_relative : regAfter 0 (invoke [0xC4, 0xE2, 0xF8, 0xF3, 0x0D, 0x00, 0x01, 0x00, 0x00]
    (mapped 0x401109 [0x28, 0x01, 0, 0, 0, 0, 0, 0] { start [] with rip := 0x401000 })) = some 0x120 := by decide
/-- In M32 the address wraps at 2^32 (R42, R45). -/
theorem test_m32_wraps : regAfter 0 (invoke [0xC4, 0xE2, 0x78, 0xF3, 0x0E]
    (mapped 0xFFFFFFFE [0x06, 0, 0, 0x80] { start [(6, 0xABCD0000FFFFFFFE)] with mode := .m32 })) =
      some 0x80000004 := by decide
/-- V-UD: an unrecognized window whatever memory holds. -/
theorem test_unrecognized : invoke [0xC4, 0xE2, 0x78, 0xAA, 0xC0] (start []) = .refused .unrecognized := rfl
/-- A step from reset with ANDN placed for the fetch advances by its length (R30). -/
theorem test_step_advances : (match step (State.reset.withFetchWord 40 0xC8F2E0E2C4) with
    | .next t => some t.rip
    | _ => none) = some 5 := by decide
/-- Nothing is mapped at reset. -/
theorem test_step_from_reset : step State.reset = .fault (.windowUnreadable 0) := rfl

/-! ### Witnesses: each statement's hypotheses are met -/

/-- 16 mapped bytes at 0x2000, where RSI points. -/
def withMemory : State := mapped 0x2000 [3, 0, 0, 0, 0, 0, 0, 0x80, 9, 10, 11, 12, 13, 14, 15, 16] (start [(6, 0x2000)])

/-- The memory operand [RSI]. -/
def atRsi : Operand := .mem (.base 6 .none)

theorem witness_DecodeOfEncode : (Instr.pcmpistri true 15 (.mem (.sib 12 (some ⟨12, 3⟩) (.d32 0xFFFFFFFF))) 0xFF).wf .m64 =
    true := by decide
theorem witness_DecodedIsWellFormed : decodeBytes .m32 [0xC4, 0xE2, 0xE0, 0xF2, 0xC8, 0x99] =
    .ok (.andn .w32 1 3 (.reg 0), [0x99]) := by decide
theorem witness_LengthBounds_vex : decode .m64 [0xC4, 0xE3, 0x7B, 0xF0, 0x04, 0x25, 0x00, 0x20, 0x00, 0x00, 0x04] =
    .ok (.rorx .w32 0 (.mem (.sibNoBase none 0x2000)) 4) ∧
    instrLength (.rorx .w32 0 (.mem (.sibNoBase none 0x2000)) 4) = 11 := by decide
theorem witness_LengthBounds_window : (List.replicate 15 (0xC4 : Byte)).length = 15 := by decide
theorem witness_AdmittedExactly : ([0, 0, 0, 0, 0, 0, 0, 0, 0, 0] : List Byte).length = 10 := by decide
theorem witness_AdmittedExactly_legacy : ∃ i,
    decode .m64 (0x66 :: 0x4F :: 0x0F :: 0x3A :: 0x63 :: [0xC0, 0, 0, 0, 0, 0, 0, 0, 0, 0]) = .ok i := ⟨_, rfl⟩
theorem witness_AdmittedExactly_vex : ∃ i,
    decode .m32 (0xC4 :: 0xE3 :: 0x79 :: 0x60 :: 0xC0 :: [0, 0, 0, 0, 0, 0, 0, 0, 0, 0]) = .ok i := ⟨_, rfl⟩
theorem witness_TwoByteVexUnrecognized : ({ start [] with win := padWindow [0xC5, 0xF9, 0x3A] } : State).win[0] = 0xC5 := by
  decide
theorem witness_Mode32Decoding_a : (0x42 : Byte).toNat / 64 ≠ 3 ∧ (0xC0 : Byte).toNat / 64 = 3 := by decide
theorem witness_Mode32Decoding_c : (0xE2 : Byte).toNat % 32 = 2 ∧ (0x40 : Byte).toNat / 16 = 4 ∧
    (0x4F : Byte).toNat / 16 = 4 := by decide
theorem witness_Mode32Decoding_e : ∃ i, decode .m32 [0xC4, 0xC2, 0x38, 0xF2, 0xC8] = .ok i := ⟨_, rfl⟩
theorem witness_RegisterReadAndWrite : (15 : Reg) ≠ 0 := by decide
theorem witness_NarrowWritesZeroExtend : ∃ t,
    exec (.mulx .w32 1 3 (.reg 0)) (start [(0, 0xFFFFFFFF), (2, 0xFFFFFFFF)]) = .next t ∧
      writes32 (.mulx .w32 1 3 (.reg 0)) = true ∧ (3 : Reg) ∈ destRegs (.mulx .w32 1 3 (.reg 0)) :=
  ⟨_, rfl, rfl, by decide⟩
theorem witness_MemoryReadRule_some : memRead 0x2000 16 withMemory =
    some [3, 0, 0, 0, 0, 0, 0, 0x80, 9, 10, 11, 12, 13, 14, 15, 16] := by decide +kernel
theorem witness_MemoryReadRule_none : memRead 0x2000 17 withMemory = none := by decide +kernel
theorem witness_EffectiveAddressRule : (start []).mode = .m64 ∧ ({ start [] with mode := .m32 } : State).mode = .m32 :=
  ⟨rfl, rfl⟩
theorem witness_OperandFetchValue_w32 : memRead (effAddr 5 (.base 6 .none) withMemory) (Width.w32.bits / 8) withMemory =
    some [3, 0, 0, 0] := by decide +kernel
theorem witness_OperandFetchValue_w64 : memRead (effAddr 5 (.base 6 .none) withMemory) (Width.w64.bits / 8) withMemory =
    some [3, 0, 0, 0, 0, 0, 0, 0x80] := by decide +kernel
theorem witness_OperandFetchValue_vec : memRead (effAddr 6 (.base 6 .none) withMemory) 16 withMemory =
    some [3, 0, 0, 0, 0, 0, 0, 0x80, 9, 10, 11, 12, 13, 14, 15, 16] := by decide +kernel
theorem witness_OperandFetchValue_none : memRead (effAddr 5 (.base 6 (.d8 13)) withMemory) (Width.w32.bits / 8) withMemory =
      none ∧ memRead (effAddr 6 (.base 6 (.d8 1)) withMemory) 16 withMemory = none := by decide +kernel
theorem witness_RacingReadIsFree : ([] : List Byte).length ≤ 16 ∧ (List.replicate 16 (7 : Byte)).length ≤ 16 ∧
    List.replicate 16 (7 : Byte) ≠ [] := by decide

/-- The hypothesis of the BMI results, with a register and with a memory operand, at both widths (BLSR, BLSMSK, BLSI,
ANDN, BZHI, PEXT, PDEP, MULX, BEXTR, SHLX, SARX, SHRX: length 5; RORX: length 6). -/
theorem witness_BmiResult :
    readOperand .w64 (instrLength (.blsr .w64 0 (.reg 3))) (.reg 3) (start [(3, 9)]) = .ok 9 ∧
    readOperand .w64 (instrLength (.blsmsk .w64 0 atRsi)) atRsi withMemory = .ok 0x8000000000000003 ∧
    readOperand .w32 (instrLength (.andn .w32 0 1 atRsi)) atRsi withMemory = .ok 3 ∧
    readOperand .w32 (instrLength (.rorx .w32 0 atRsi 8)) atRsi withMemory = .ok 3 :=
  ⟨rfl, rfl, rfl, rfl⟩
theorem witness_BlsiResult : readOperand .w32 (instrLength (.blsi .w32 0 (.reg 3))) (.reg 3) (start []) = .ok 0 := rfl
theorem witness_BzhiResult : readOperand .w64 (instrLength (.bzhi .w64 0 (.reg 3) 1)) (.reg 3) (start [(1, 64)]) = .ok 0 :=
  rfl
theorem witness_PextResult : readOperand .w64 (instrLength (.pext .w64 0 1 (.reg 3))) (.reg 3)
    (start [(1, 0x8000000000000001), (3, 5)]) = .ok 5 := rfl
theorem witness_PextResult_mask : ((start [(1, 0x8000000000000001)]).x[(1 : Reg)]).getLsbD 63 = true := by decide
theorem witness_PdepResult : readOperand .w32 (instrLength (.pdep .w32 0 1 (.reg 3))) (.reg 3) (start [(3, 5)]) = .ok 5 :=
  rfl
theorem witness_MulxResult : readOperand .w64 (instrLength (.mulx .w64 1 3 (.reg 0))) (.reg 0) (start [(0, 2)]) = .ok 2 ∧
    (3 : Reg) ≠ 1 := ⟨rfl, by decide⟩
theorem witness_BextrResult : readOperand .w64 (instrLength (.bextr .w64 0 (.reg 3) 1)) (.reg 3)
    (start [(1, 0x4000), (3, 5)]) = .ok 5 := rfl
theorem witness_ShlxResult : readOperand .w64 (instrLength (.shlx .w64 0 (.reg 3) 1)) (.reg 3)
    (start [(1, 63), (3, 5)]) = .ok 5 := rfl
theorem witness_SarxResult : readOperand .w32 (instrLength (.sarx .w32 0 (.reg 3) 1)) (.reg 3)
    (start [(1, 32), (3, 0x80000000)]) = .ok 0x80000000 := rfl
theorem witness_ShrxResult : readOperand .w64 (instrLength (.shrx .w64 0 (.reg 3) 1)) (.reg 3)
    (start [(1, 64), (3, 5)]) = .ok 5 := rfl
theorem witness_RorxResult : readOperand .w64 (instrLength (.rorx .w64 0 (.reg 3) 64)) (.reg 3) (start [(3, 5)]) = .ok 5 :=
  rfl
theorem witness_BextrIdentity : (0x2000 : BitVec Width.w32.bits).toNat = 0 + 256 * Width.w32.bits ∧
    (0x4000 : BitVec Width.w64.bits).toNat = 0 + 256 * Width.w64.bits := by decide
theorem witness_RorxComposes : (16 : Byte).toNat = ((8 : Byte).toNat + (40 : Byte).toNat) % Width.w32.bits := by decide
theorem witness_ControlAndElements : 15 < (pcmpControl 0x00).count ∧ 7 < (pcmpControl 0x03).count := by decide
theorem witness_ExplicitLengthRule : (0x7FFFFFFF : Word).toNat % 2 ^ 32 < 2 ^ 31 ∧
    2 ^ 31 ≤ (0xFFFFFFFF80000000 : Word).toNat % 2 ^ 32 := by decide
theorem witness_ImplicitLengthRule : implicitLength (pcmpControl 0) helloWorld = 11 ∧
    implicitLength (pcmpControl 0) 0 = 0 := by decide +kernel
theorem witness_AggregationRule : (pcmpControl 0x00).agg = .equalAny ∧ (pcmpControl 0x05).agg = .ranges ∧
    (pcmpControl 0x08).agg = .equalEach ∧ (pcmpControl 0x0D).agg = .equalOrdered ∧
    16 ≤ (pcmpControl 0x00).count ∧ 8 ≤ (pcmpControl 0x05).count ∧ 15 < (pcmpControl 0x08).count ∧
    7 < (pcmpControl 0x0D).count := by decide
theorem witness_PolarityRule : 15 < (pcmpControl 0x00).count ∧ 15 < (pcmpControl 0x10).count ∧
    15 < (pcmpControl 0x20).count ∧ 7 < (pcmpControl 0x31).count := by decide
/-- For the index and the mask forms. -/
theorem witness_CompareForms : readVecOperand (instrLength (.pcmpestri true 0 (.reg 1) 8)) (.reg 1)
      (strings azAZ hello12 []) = .ok hello12 ∧
    readVecOperand (instrLength (.vpcmpistrm 0 atRsi 8)) atRsi withMemory =
      .ok 0x100F0E0D0C0B0A098000000000000003 := ⟨rfl, rfl⟩
theorem witness_CompareForms_index : pcmpIntRes2 (pcmpControl 0x40) vowels helloWorld 5 11 ≠ 0 ∧
    pcmpIntRes2 (pcmpControl 0x00) 0 0 0 0 = 0 := by decide +kernel
theorem witness_UpperHalfFollowsParameter :
    (∃ t, exec (.vpcmpestrm 0 (.reg 1) 0) (start []) = .next t) ∧
    (∃ t, exec (.vpcmpistrm 0 (.reg 1) 0) (start []) = .next t) ∧
    (∃ t, exec (.pcmpistrm false 0 (.reg 1) 0) (start []) = .next t) := ⟨⟨_, rfl⟩, ⟨_, rfl⟩, ⟨_, rfl⟩⟩
theorem witness_EqualStringsUnderEqualEach : (pcmpControl 0x08).agg = .equalEach ∧ (pcmpControl 0x08).pol = .noNegate ∧
    (pcmpControl 0x18).agg = .equalEach ∧ (pcmpControl 0x18).pol = .negate ∧
    implicitLength (pcmpControl 0x08) letters < (pcmpControl 0x08).count ∧
    (strings letters letters []).xmm[(0 : Reg)] = (strings letters letters []).xmm[(1 : Reg)] := by decide +kernel
theorem witness_CompareLaws : (0x50 : Byte).toNat / 16 % 4 ≤ 1 ∧ (pcmpControl 0x00).agg = .equalAny ∧
    (pcmpControl 0x04).agg = .ranges ∧ (pcmpControl 0x08).agg = .equalEach ∧ (pcmpControl 0x0C).agg = .equalOrdered ∧
    0 ≤ (pcmpControl 0x08).count ∧ 16 ≤ (pcmpControl 0x08).count ∧ 15 < (pcmpControl 0x08).count := by decide
theorem witness_FlagsTable : flagGroup (.blsr .w64 0 (.reg 3)) = .bmi ∧ flagGroup (.pdep .w64 0 1 (.reg 3)) = .unchanged ∧
    flagGroup (.vpcmpistri 0 (.reg 1) 0) = .pcmp := ⟨rfl, rfl, rfl⟩
theorem witness_OutcomePriority_unrecognized :
    decode .m64 ({ start [] with win := padWindow [0x90] } : State).win.toList = .error .firstByte := by decide
theorem witness_OutcomePriority_fault :
    decode .m64 ({ start [] with win := padWindow [0xC4, 0xE2, 0xF8, 0xF3, 0x0E] } : State).win.toList =
      .ok (.blsr .w64 0 atRsi) ∧
    memRequest (.blsr .w64 0 atRsi) (start []) = some (0, 8) ∧ memRead 0 8 (start []) = none := by decide
theorem witness_OutcomePriority_emulated : RequestReadable (.blsr .w64 0 atRsi) withMemory := by
  intro a n h
  have : (0x2000, 8) = (a, n) := Option.some.inj h
  cases this
  decide +kernel
theorem witness_ExecCompletesOrAccessFaults : RequestReadable (.pcmpistri false 0 atRsi 8) withMemory ∧
    memRequest (.pcmpistri false 0 atRsi 8) (start []) = some (0, 16) ∧ memRead 0 16 (start []) = none := by
  refine ⟨?_, by decide, by decide⟩
  intro a n h
  have : (0x2000, 16) = (a, n) := Option.some.inj h
  cases this
  decide +kernel
theorem witness_ExecKeepsMemoryRipMode : ∃ t, exec (.pcmpestri false 0 atRsi 8) withMemory = .next t := ⟨_, rfl⟩
theorem witness_ExecWritesOnlyItsDestinations : (∃ t, exec (.mulx .w64 1 3 atRsi) withMemory = .next t) ∧
    destRegs (.mulx .w64 1 3 atRsi) ≠ [] := ⟨⟨_, rfl⟩, by decide⟩
theorem witness_WindowAloneIsDecoded :
    (∃ n t, emulate { withMemory with win := padWindow [0xC4, 0xE2, 0xF8, 0xF3, 0x0E] } = .next (n, t)) ∧
    (∃ n t, emulate { withMemory with
      win := padWindow [0xC4, 0xE2, 0xF8, 0xF3, 0x0E]
      mem := Memory.store .m64 [] 0x2000 (List.replicate 8 1) } = .next (n, t)) := ⟨⟨_, _, rfl⟩, ⟨_, _, rfl⟩⟩
/-- Two states that agree on mode and window and on little else. -/
theorem witness_WindowAloneIsDecoded_states :
    let s : State := { withMemory with win := padWindow [0xC4, 0xE2, 0xF8, 0xF3, 0x0E] }
    let s' : State := { start [] with win := padWindow [0xC4, 0xE2, 0xF8, 0xF3, 0x0E] }
    s'.mode = s.mode ∧ s'.win = s.win ∧ (∃ n t, emulate s = .next (n, t)) ∧ emulate s' = .fault (.accessFault 0 8) :=
  ⟨rfl, rfl, ⟨_, _, rfl⟩, rfl⟩
theorem witness_WindowAloneIsDecoded_refused :
    emulate { withMemory with win := padWindow [0x90] } = .refused .unrecognized := rfl

/-- ANDN of V-ANDN-1 in memory at the instruction pointer, and nothing after it. -/
def andnPlaced : State := placeAtRip [0xC4, 0xE2, 0xE0, 0xF2, 0xC8] { start [] with rip := 0xFFFFFFFFFFFFFFFD }

theorem witness_StepRunsDecodedInstruction_ok : decode andnPlaced.mode (bytesAtRip andnPlaced) =
    .ok (.andn .w64 1 3 (.reg 0)) := by decide +kernel
theorem witness_StepRunsDecodedInstruction_short : decode .m64 (bytesAtRip (start [])) = .error .truncated ∧
    (bytesAtRip (start [])).length = 0 := by decide +kernel
theorem witness_StepRunsDecodedInstruction_full :
    decode .m64 (bytesAtRip (placeAtRip (List.replicate 15 0x90) (start []))) = .error .firstByte ∧
    (bytesAtRip (placeAtRip (List.replicate 15 0x90) (start []))).length = 15 := by decide +kernel
/-- For the statements about a step that completes: the window and the instruction pointer wrap at 2^64 (the window by
the model's choice, log 15). -/
theorem witness_Step : ∃ t, step andnPlaced = .next t ∧ t.rip = 2 := ⟨_, rfl, by decide +kernel⟩
theorem witness_StepKeepsInvariant : Inv andnPlaced := by
  refine ⟨by decide +kernel, fun h => ?_⟩
  cases h

/-- In M32: the same instruction, the upper half of the instruction pointer not zero. -/
def andnM32 (hi : Word) : State :=
  placeAtRip [0xC4, 0xE2, 0xE0, 0xF2, 0xC8] { start [(0, hi ||| 5), (9, hi)] with rip := hi, mode := .m32 }

theorem witness_Mode32HighRegistersUntouched : (∃ t, step (andnM32 0xAAAA00000000) = .next t) ∧
    (andnM32 0xAAAA00000000).mode = .m32 ∧ 8 ≤ (9 : Reg).val := ⟨⟨_, rfl⟩, rfl, by decide⟩
theorem witness_Mode32ReadsLowHalvesOnly : M32Same (andnM32 0) (andnM32 0xAAAA00000000) := by
  refine ⟨rfl, rfl, ?_, ?_, ?_, rfl, rfl, ?_, rfl, rfl⟩ <;> decide +kernel
theorem witness_FreeFlagDraws : (∃ t, exec (.bextr .w64 0 (.reg 3) 1) (start []) = .next t) ∧
    (∃ t, exec (.shlx .w64 0 (.reg 3) 1) (start []) = .next t) ∧
    (∃ t, exec (.vpcmpistrm 0 (.reg 1) 8) (start []) = .next t) := ⟨⟨_, rfl⟩, ⟨_, rfl⟩, ⟨_, rfl⟩⟩

end Sys2Proof.Tests
end

section
/-! PROOFS about the state: registers read and written at the two widths (10_state.md R22, R23, R24). -/

namespace Sys2Proof.Proofs

open Sys2Proof Sys2Proof.Machine

/-- At width 64 a read is the register itself. -/
theorem readReg_w64 (r : Reg) (s : State) : readReg .w64 r s = s.x[r] := BitVec.setWidth_eq _

/-- At width 64 the register written holds the value itself, with nothing left to extend. -/
theorem writeReg_w64_same (r : Reg) (u : BitVec 64) (s : State) : (writeReg .w64 r u s).x[r] = u :=
  (writeReg_same .w64 r u s).trans (BitVec.setWidth_eq u)

/-- Settles O8, from the rule for each register operation: `toNat_readReg` (R22), `toNat_writeReg_same` (R23),
`writeReg_other`, and at width 64 (R24) the two lemmas above. -/
theorem registerReadAndWrite : Obligations.RegisterReadAndWrite := by
  intro r r' s v u
  refine ⟨toNat_readReg .w32 r s, ?read64, toNat_writeReg_same .w32 r v s, writeReg_w64_same r u s, ?others⟩
  case read64 => rw [readReg_w64]
  case others =>
    intro h
    exact ⟨writeReg_other .w32 v s h, writeReg_other .w64 u s h⟩

end Sys2Proof.Proofs
end

section
/-! PROOFS about the BMI values as numbers: each function of Machine/BmiValues.lean by what it is in exact arithmetic
(40_bmi.md R113 to R125), at any width. -/

namespace Sys2Proof.Proofs

open Sys2Proof Sys2Proof.Machine

/-! ### BLSR, BLSMSK, BLSI, ANDN -/

/-- The decrement that BLSR and BLSMSK share. -/
theorem toNat_sub_one {n : Nat} (s : BitVec n) : (s - 1).toNat = (s.toNat + 2 ^ n - 1) % 2 ^ n := by
  cases n with
  | zero => simp [Nat.mod_one, BitVec.toNat_of_zero_length]
  | succ n =>
    have hone : (1 : BitVec (n + 1)).toNat = 1 := by simp
    rw [BitVec.toNat_sub, hone, ← Nat.sub_add_comm Nat.one_le_two_pow, Nat.add_comm]

theorem toNat_blsrValue {n : Nat} (s : BitVec n) :
    (blsrValue s).toNat = s.toNat &&& ((s.toNat + 2 ^ n - 1) % 2 ^ n) := by
  rw [blsrValue, BitVec.toNat_and, toNat_sub_one]

theorem toNat_blsmskValue {n : Nat} (s : BitVec n) :
    (blsmskValue s).toNat = s.toNat ^^^ ((s.toNat + 2 ^ n - 1) % 2 ^ n) := by
  rw [blsmskValue, BitVec.toNat_xor, toNat_sub_one]

/-- A value differs from its predecessor, so BLSMSK is never 0 (R114). -/
theorem toNat_blsmskValue_ne_zero {n : Nat} (hn : 0 < n) (s : BitVec n) : (blsmskValue s).toNat ≠ 0 := by
  rw [toNat_blsmskValue]
  intro h
  have hs := s.isLt
  have h2 : 2 ≤ 2 ^ n := Nat.le_self_pow hn.ne' 2
  have heq : s.toNat = (s.toNat + 2 ^ n - 1) % 2 ^ n := Nat.xor_eq_zero_iff.mp h
  by_cases hz : s.toNat = 0
  · rw [hz, Nat.mod_eq_of_lt (by omega)] at heq
    omega
  · rw [show s.toNat + 2 ^ n - 1 = s.toNat - 1 + 2 ^ n by omega, Nat.add_mod_right,
      Nat.mod_eq_of_lt (by omega)] at heq
    omega

theorem toNat_blsiValue {n : Nat} (s : BitVec n) : (blsiValue s).toNat = ((2 ^ n - s.toNat) % 2 ^ n) &&& s.toNat := by
  rw [blsiValue, BitVec.toNat_and, BitVec.toNat_neg]

/-- NOT at width `n` is the exclusive or with all ones. -/
theorem toNat_andnValue {n : Nat} (v s : BitVec n) :
    (andnValue v s).toNat = (v.toNat ^^^ (2 ^ n - 1)) &&& s.toNat := by
  rw [andnValue, BitVec.toNat_and, ← BitVec.xor_allOnes, BitVec.toNat_xor, BitVec.toNat_allOnes]

/-! ### BZHI and BEXTR -/

/-- AND with `mask_k` keeps the low `k` bits. -/
theorem toNat_and_maskBits {n k : Nat} (s : BitVec n) (h : k ≤ n) : (s &&& maskBits n k).toNat = s.toNat % 2 ^ k := by
  rw [BitVec.toNat_and, toNat_maskBits n k h, Nat.and_two_pow_sub_one_eq_mod]

theorem toNat_bzhiValue {n : Nat} (s v : BitVec n) :
    (bzhiValue s v).toNat = if bzhiIndex v ≤ n - 1 then s.toNat % 2 ^ bzhiIndex v else s.toNat := by
  unfold bzhiValue
  split
  next h => exact toNat_and_maskBits s (by omega)
  next => rfl

theorem toNat_bextrValue {n : Nat} (s v : BitVec n) :
    (bextrValue s v).toNat =
      if n ≤ v.toNat % 256 then 0
      else s.toNat / 2 ^ (v.toNat % 256) % 2 ^ min (v.toNat / 256 % 256) n := by
  unfold bextrValue
  split
  next => simp
  next => rw [toNat_and_maskBits _ (Nat.min_le_right _ _), BitVec.toNat_ushiftRight, Nat.shiftRight_eq_div_pow]

/-! ### PEXT and PDEP -/

/-- The model's count of set bits is the library's. -/
theorem countBits_map {α : Type} (p : α → Bool) (l : List α) : countBits (l.map p) = l.countP p := by
  induction l with
  | nil => rfl
  | cons a l ih => simp [countBits, ih, List.countP_cons, Nat.add_comm]

/-- The place counter of the loops of PEXT and PDEP at step `i` is the rank of `i` in the mask. -/
theorem countBits_take_bitList {n : Nat} (v : BitVec n) {i : Nat} (h : i ≤ n) :
    countBits ((bitList v).take i) = Safety.rankBelow v i := by
  rw [bitList, ← List.map_take, List.take_range, Nat.min_eq_left h, countBits_map]
  rfl

theorem countBits_bitList {n : Nat} (v : BitVec n) : countBits (bitList v) = Safety.rankBelow v n :=
  countBits_map _ _

theorem rankBelow_le {n : Nat} (v : BitVec n) (i : Nat) : Safety.rankBelow v i ≤ i := by
  simpa [Safety.rankBelow] using List.countP_le_length (p := v.getLsbD) (l := List.range i)

/-- The source bit under a mask bit lands at the rank of that mask bit (R118). -/
theorem getLsbD_pextValue_rankBelow {n : Nat} (v s : BitVec n) {i : Nat} (hi : i < n) (hv : v.getLsbD i = true) :
    (pextValue v s).getLsbD (Safety.rankBelow v i) = s.getLsbD i := by
  have hplace := getD_pextBits (bitList v) (bitList s) i (by simp) (by rw [getD_bitList, hv])
  rw [countBits_take_bitList v hi.le, getD_bitList] at hplace
  rw [pextValue, getLsbD_ofBitList, hplace, decide_eq_true (Nat.lt_of_le_of_lt (rankBelow_le v i) hi), Bool.true_and]

/-- PEXT sets no bit from the popcount of its mask on (R118). -/
theorem toNat_pextValue_lt {n : Nat} (v s : BitVec n) : (pextValue v s).toNat < 2 ^ Safety.rankBelow v n := by
  apply Nat.lt_pow_two_of_testBit
  intro i hi
  have hlen : (pextBits (bitList v) (bitList s)).length ≤ i := by
    rw [length_pextBits _ _ (by simp), countBits_bitList]
    exact hi
  rw [BitVec.testBit_toNat, pextValue, getLsbD_ofBitList, List.getD_eq_default _ _ hlen, Bool.and_false]

/-- A bit of PDEP: the source bit that the rank numbers, under the mask (R119). -/
theorem getLsbD_pdepValue {n : Nat} (v s : BitVec n) (i : Nat) :
    (pdepValue v s).getLsbD i = (decide (i < n) && v.getLsbD i && s.getLsbD (Safety.rankBelow v i)) := by
  rw [pdepValue, getLsbD_ofBitList, getD_pdepBits, getD_bitList, getD_bitList]
  by_cases hi : i < n
  · rw [countBits_take_bitList v hi.le, Bool.and_assoc]
  · simp [hi]

/-- The loops undo each other: extracting what was deposited gives the source bits up to the count of mask bits. -/
theorem getD_pextBits_pdepBits (ms bs : List Bool) (i : Nat) :
    (pextBits ms (pdepBits ms bs)).getD i false = (decide (i < countBits ms) && bs.getD i false) := by
  induction ms generalizing bs i with
  | nil => simp [pextBits, countBits]
  | cons m ms ih =>
    cases m with
    | false => simpa [pextBits, pdepBits, countBits] using ih bs i
    | true =>
      cases bs with
      | nil =>
        cases i with
        | zero => simp [pextBits, pdepBits]
        | succ i => simpa [pextBits, pdepBits] using ih [] i
      | cons b bs =>
        cases i with
        | zero => simp [pextBits, pdepBits, countBits]
        | succ i => simpa [pextBits, pdepBits, countBits, Nat.add_comm 1] using ih bs i

theorem getElem_bitList {n : Nat} (v : BitVec n) (i : Nat) (h : i < (bitList v).length) :
    (bitList v)[i] = v.getLsbD i := by
  simp only [bitList, List.getElem_map, List.getElem_range]

/-- The bits of a value made of `n` bits are those bits. -/
theorem bitList_ofBitList (l : List Bool) : bitList (ofBitList l.length l) = l := by
  apply List.ext_getElem (by simp)
  intro i _ hi
  rw [getElem_bitList, getLsbD_ofBitList, decide_eq_true hi, Bool.true_and, List.getD_eq_getElem _ _ hi]

theorem bitList_pdepValue {n : Nat} (v s : BitVec n) : bitList (pdepValue v s) = pdepBits (bitList v) (bitList s) := by
  have hlen : (pdepBits (bitList v) (bitList s)).length = n := by simp
  have h := bitList_ofBitList (pdepBits (bitList v) (bitList s))
  rwa [hlen] at h

/-- A bit of PEXT after PDEP under one mask (R129). -/
theorem getLsbD_pextValue_pdepValue {n : Nat} (v s : BitVec n) (i : Nat) :
    (pextValue v (pdepValue v s)).getLsbD i = (decide (i < popcount v) && s.getLsbD i) := by
  rw [pextValue, bitList_pdepValue, getLsbD_ofBitList, getD_pextBits_pdepBits, getD_bitList]
  by_cases hi : i < n
  · rw [decide_eq_true hi, Bool.true_and]
    rfl
  · simp [hi, BitVec.getLsbD_of_ge s i (Nat.le_of_not_lt hi)]

/-! ### MULX -/

theorem toNat_mulxLow {n : Nat} (s rdx : BitVec n) : (mulxLow s rdx).toNat = s.toNat * rdx.toNat % 2 ^ n :=
  BitVec.toNat_ofNat _ _

/-- The high half of the exact product fits the width, so nothing of it is lost. -/
theorem toNat_mulxHigh {n : Nat} (s rdx : BitVec n) : (mulxHigh s rdx).toNat = s.toNat * rdx.toNat / 2 ^ n := by
  have hfits : s.toNat * rdx.toNat / 2 ^ n < 2 ^ n :=
    Nat.div_lt_of_lt_mul (Nat.mul_lt_mul'' s.isLt rdx.isLt)
  rw [mulxHigh, mulxProduct, BitVec.toNat_ofNat, Nat.mod_eq_of_lt hfits]

/-! ### Shifts and rotation -/

theorem toNat_shlxValue {n : Nat} (s v : BitVec n) :
    (shlxValue s v).toNat = s.toNat * 2 ^ shiftCount v % 2 ^ n := by
  rw [shlxValue, BitVec.toNat_shiftLeft, Nat.shiftLeft_eq]

theorem toNat_shrxValue {n : Nat} (s v : BitVec n) : (shrxValue s v).toNat = s.toNat / 2 ^ shiftCount v := by
  rw [shrxValue, BitVec.toNat_ushiftRight, Nat.shiftRight_eq_div_pow]

/-- A value is its signed reading modulo 2^n. -/
theorem toNat_eq_toInt_emod {n : Nat} (s : BitVec n) : (s.toNat : Int) = s.toInt % 2 ^ n := by
  have hs : (s.toNat : Int) < ((2 ^ n : Nat) : Int) := Int.ofNat_lt.mpr s.isLt
  have hmod : s.toInt % ((2 ^ n : Nat) : Int) = s.toNat := by
    rw [BitVec.toInt_eq_toNat_bmod, Int.bmod_emod, Int.emod_eq_of_lt (Int.natCast_nonneg _) hs]
  exact_mod_cast hmod.symm

theorem toNat_sarxValue {n : Nat} (s v : BitVec n) :
    ((sarxValue s v).toNat : Int) = (s.toInt / 2 ^ shiftCount v) % 2 ^ n := by
  rw [sarxValue, toNat_eq_toInt_emod, BitVec.toInt_sshiftRight, Int.shiftRight_eq_div_pow]
  push_cast
  rfl

/-- RORX is the library's rotation. -/
theorem rorxValue_eq_rotateRight {n : Nat} (s : BitVec n) (imm : Byte) : rorxValue s imm = s.rotateRight imm.toNat :=
  rfl

/-- The part rotated out at the bottom lies above the part shifted down, so their union is their sum (R125). -/
theorem toNat_rorxValue {n : Nat} (hn : 0 < n) (s : BitVec n) (imm : Byte) :
    (rorxValue s imm).toNat =
      s.toNat / 2 ^ (imm.toNat % n) + s.toNat * 2 ^ (n - imm.toNat % n) % 2 ^ n := by
  rw [rorxValue_eq_rotateRight, BitVec.toNat_rotateRight, Nat.shiftRight_eq_div_pow, Nat.shiftLeft_eq]
  generalize hc : imm.toNat % n = c
  have hcn : c < n := hc ▸ Nat.mod_lt _ hn
  have hpow : 2 ^ n = 2 ^ c * 2 ^ (n - c) := by rw [← Nat.pow_add, Nat.add_sub_cancel' hcn.le]
  have hlow : s.toNat / 2 ^ c < 2 ^ (n - c) := Nat.div_lt_of_lt_mul (hpow ▸ s.isLt)
  rw [hpow, Nat.mul_mod_mul_right, ← Nat.shiftLeft_eq, Nat.lor_comm, ← Nat.shiftLeft_add_eq_or_of_lt hlow,
    Nat.add_comm]

/-- A bit of RORX: the source bit `imm` places up, around the width. -/
theorem getLsbD_rorxValue {n : Nat} (s : BitVec n) (imm : Byte) {i : Nat} (hi : i < n) :
    (rorxValue s imm).getLsbD i = s.getLsbD ((i + imm.toNat) % n) := by
  rw [rorxValue_eq_rotateRight, BitVec.getLsbD_rotateRight, ← Nat.add_mod_mod]
  generalize hc : imm.toNat % n = c
  have hcn : c < n := hc ▸ Nat.mod_lt _ (Nat.zero_lt_of_lt hi)
  by_cases h : i < n - c
  · have hstay : (i + c) % n = c + i := by rw [Nat.mod_eq_of_lt (by omega), Nat.add_comm]
    rw [decide_eq_true h, cond_true, hstay]
  · have hwrap : (i + c) % n = i - (n - c) := by
      rw [Nat.mod_eq_sub_mod (by omega), Nat.mod_eq_of_lt (by omega)]
      omega
    rw [decide_eq_false h, cond_false, decide_eq_true hi, Bool.true_and, hwrap]

end Sys2Proof.Proofs
end

section
/-! PROOFS about the parts that BMI instructions share: the vvvv operand, the frame, and the commit with the flags it
leaves (10_state.md R22, R27, R28, 40_bmi.md section 1). -/

namespace Sys2Proof.Proofs

open Sys2Proof Sys2Proof.Machine Sys2Proof.Safety

theorem bits_pos (w : Width) : 0 < w.bits := by cases w <;> decide

theorem bits_div_eight (w : Width) : w.bits / 8 = w.bytes := by cases w <;> rfl

theorem withOperand_of_ok {α : Type} {e : Except Fault α} {v : α} {k : α → State} (h : e = .ok v) :
    withOperand e k = .next (k v) :=
  withOperand_eq_next.mpr ⟨v, h, rfl⟩

/-! ### The vvvv operand, as what stands in its register -/

/-- The index of BZHI is the low byte of the whole register. -/
theorem bzhiIndex_readReg (w : Width) (v : Reg) (s : State) : bzhiIndex (readReg w v s) = s.x[v].toNat % 256 :=
  toNat_readReg_mod_256 w v s

/-- The length of BEXTR, V[15:8], is the same at both widths. -/
theorem toNat_readReg_div_256_mod_256 (w : Width) (r : Reg) (s : State) :
    (readReg w r s).toNat / 256 % 256 = s.x[r].toNat / 256 % 256 := by
  rw [toNat_readReg]
  cases w with
  | w32 =>
    change _ % 2 ^ 32 / 256 % 256 = _
    omega
  | w64 =>
    change _ % 2 ^ 64 / 256 % 256 = _
    omega

/-- What is read of a register has its bits below the width, and zeros from there on. -/
theorem getLsbD_readReg (w : Width) (r : Reg) (s : State) (i : Nat) :
    (readReg w r s).getLsbD i = (decide (i < w.bits) && (s.x[r]).getLsbD i) :=
  BitVec.getLsbD_setWidth _ _ _

/-! ### Frames -/

theorem bmiFrame_refl (ds : List Reg) (s : State) : BmiFrame ds s s :=
  ⟨fun _ _ => rfl, ⟨fun _ => rfl, rfl⟩, fun _ => rfl, ⟨rfl, rfl, rfl, rfl⟩, ⟨rfl, rfl, rfl, rfl⟩⟩

/-- A write to a destination stays within the frame. -/
theorem bmiFrame_writeReg {ds : List Reg} {s t : State} {w : Width} {d : Reg} (v : BitVec w.bits)
    (hd : d ∈ ds) (h : BmiFrame ds s t) : BmiFrame ds s (writeReg w d v t) := by
  obtain ⟨hregs, hrest⟩ := h
  refine ⟨fun r hr => ?_, hrest⟩
  rw [writeReg_other w v t (ne_of_mem_of_not_mem hd hr).symm, hregs r hr]

/-- So does a write of the arithmetic flags. -/
theorem bmiFrame_writeBmiFlags {ds : List Reg} {s t : State} (cf zf sf : Bool) (h : BmiFrame ds s t) :
    BmiFrame ds s (writeBmiFlags cf zf sf t) := h

/-- The frame of an instruction that writes one register and no flag. -/
theorem bmiFrame_writeReg_single (w : Width) (d : Reg) (v : BitVec w.bits) (s : State) :
    BmiFrame [d] s (writeReg w d v s) :=
  bmiFrame_writeReg v List.mem_cons_self (bmiFrame_refl [d] s)

/-! ### Result and flags -/

/-- What the six flag-writing instructions commit: the result to `d`, its sign to SF, and CF and ZF as given. -/
def commitBmi (w : Width) (d : Reg) (v : BitVec w.bits) (cf zf : Bool) (s : State) : State :=
  writeBmiFlags cf zf v.msb (writeReg w d v s)

variable (w : Width) (d : Reg) (v : BitVec w.bits) (cf zf : Bool) (s : State)

theorem bmiFrame_commitBmi : BmiFrame [d] s (commitBmi w d v cf zf s) :=
  bmiFrame_writeBmiFlags cf zf v.msb (bmiFrame_writeReg_single w d v s)

theorem toNat_commitBmi : ((commitBmi w d v cf zf s).x[d]).toNat = v.toNat := toNat_writeReg_same w d v s

theorem commitBmi_sf :
    (commitBmi w d v cf zf s).flags.sf = decide (2 ^ (w.bits - 1) ≤ ((commitBmi w d v cf zf s).x[d]).toNat) := by
  rw [toNat_commitBmi]
  exact BitVec.msb_eq_decide v

theorem commitBmi_zf :
    (commitBmi w d v cf (v == 0) s).flags.zf = decide (((commitBmi w d v cf (v == 0) s).x[d]).toNat = 0) := by
  rw [toNat_commitBmi]
  exact beq_zero_eq v

end Sys2Proof.Proofs
end

section
/-! PROOFS of the results of the 13 BMI instructions (40_bmi.md R113 to R125). Each names the state that the
instruction commits, and takes its result from the lemma about the value. -/

namespace Sys2Proof.Proofs

open Sys2Proof Sys2Proof.Machine Sys2Proof.Safety

/-! ### The instructions that write flags -/

/-- Settles O13: the commit of BLSR, its value by `toNat_blsrValue`. -/
theorem blsrResult : Obligations.BlsrResult := by
  intro w d src s a h
  refine ⟨commitBmi w d (blsrValue a) (a == 0) (blsrValue a == 0) s, withOperand_of_ok h,
    bmiFrame_commitBmi .., ?value, beq_zero_eq a, commitBmi_zf .., commitBmi_sf .., rfl⟩
  case value => rw [toNat_commitBmi, toNat_blsrValue]

/-- Settles O14: the commit of BLSMSK, its value by `toNat_blsmskValue`, which `toNat_blsmskValue_ne_zero` keeps from
being 0. -/
theorem blsmskResult : Obligations.BlsmskResult := by
  intro w d src s a h
  refine ⟨commitBmi w d (blsmskValue a) (a == 0) false s, withOperand_of_ok h,
    bmiFrame_commitBmi .., ?value, ?nonzero, beq_zero_eq a, rfl, commitBmi_sf .., rfl⟩
  case value => rw [toNat_commitBmi, toNat_blsmskValue]
  case nonzero =>
    rw [toNat_commitBmi]
    exact toNat_blsmskValue_ne_zero (bits_pos w) a

/-- Settles O15: the commit of BLSI, its value by `toNat_blsiValue`; its CF is the opposite of the zero test. -/
theorem blsiResult : Obligations.BlsiResult := by
  intro w d src s a h
  refine ⟨commitBmi w d (blsiValue a) (a != 0) (blsiValue a == 0) s, withOperand_of_ok h,
    bmiFrame_commitBmi .., ?value, ?carry, commitBmi_zf .., commitBmi_sf .., rfl⟩
  case value => rw [toNat_commitBmi, toNat_blsiValue]
  case carry =>
    rw [decide_not, ← beq_zero_eq]
    rfl

/-- Settles O16: the commit of ANDN, its value by `toNat_andnValue`. -/
theorem andnResult : Obligations.AndnResult := by
  intro w d v src s a h
  refine ⟨commitBmi w d (andnValue (readReg w v s) a) false (andnValue (readReg w v s) a == 0) s,
    withOperand_of_ok h, bmiFrame_commitBmi .., ?value, rfl, commitBmi_zf .., commitBmi_sf .., rfl⟩
  case value => rw [toNat_commitBmi, toNat_andnValue, toNat_readReg]

/-- Settles O17: the commit of BZHI, its value by `toNat_bzhiValue` and its index by `bzhiIndex_readReg`. -/
theorem bzhiResult : Obligations.BzhiResult := by
  intro w d src v s a h
  refine ⟨commitBmi w d (bzhiValue a (readReg w v s)) (decide (w.bits - 1 < bzhiIndex (readReg w v s)))
      (bzhiValue a (readReg w v s) == 0) s,
    withOperand_of_ok h, bmiFrame_commitBmi .., ?value, ?carry, commitBmi_zf .., commitBmi_sf .., rfl⟩
  case value => rw [toNat_commitBmi, toNat_bzhiValue, bzhiIndex_readReg]
  case carry =>
    rw [← bzhiIndex_readReg w v s]
    rfl

/-- Settles O21: the commit of BEXTR, its value by `toNat_bextrValue`, its start and length by the bytes of V. -/
theorem bextrResult : Obligations.BextrResult := by
  intro w d src v s a h
  refine ⟨commitBmi w d (bextrValue a (readReg w v s)) false (bextrValue a (readReg w v s) == 0) s,
    withOperand_of_ok h, bmiFrame_commitBmi .., ?value, rfl, commitBmi_zf .., commitBmi_sf .., rfl⟩
  case value => rw [toNat_commitBmi, toNat_bextrValue, toNat_readReg_mod_256, toNat_readReg_div_256_mod_256]

/-! ### The instructions that leave the flags alone -/

/-- Settles O18: every mask bit by `getLsbD_pextValue_rankBelow`, and the bound by `toNat_pextValue_lt`. -/
theorem pextResult : Obligations.PextResult := by
  intro w d v src s a h
  refine ⟨writeReg w d (pextValue (readReg w v s) a) s, withOperand_of_ok h,
    bmiFrame_writeReg_single .., rfl, ?bits, ?bound⟩
  case bits =>
    intro i hi hmask
    have hv : (readReg w v s).getLsbD i = true := by rw [getLsbD_readReg, decide_eq_true hi, hmask]; rfl
    rw [getLsbD_writeReg_same, getLsbD_pextValue_rankBelow _ _ hi hv]
  case bound =>
    rw [toNat_writeReg_same]
    exact toNat_pextValue_lt _ _

/-- Settles O19: bit by bit, by `getLsbD_pdepValue`. -/
theorem pdepResult : Obligations.PdepResult := by
  intro w d v src s a h
  refine ⟨writeReg w d (pdepValue (readReg w v s) a) s, withOperand_of_ok h,
    bmiFrame_writeReg_single .., rfl, ?bits⟩
  case bits =>
    intro i
    rw [getLsbD_writeReg_same, getLsbD_pdepValue, getLsbD_readReg, ← Bool.and_assoc, Bool.and_self]

/-- Settles O20: in both cases of `execMulx` ModRM.reg is written last, so it holds the high half, and a vvvv register
of its own keeps the low half. -/
theorem mulxResult : Obligations.MulxResult := by
  intro w dhi dlo src s a h
  refine ⟨_, withOperand_of_ok h, ?_⟩
  split
  next heq =>
    refine ⟨bmiFrame_writeReg _ List.mem_cons_self (bmiFrame_refl _ s), rfl, ?high, fun hne => absurd heq.symm hne⟩
    case high => rw [toNat_writeReg_same, toNat_mulxHigh, toNat_readReg]
  next hne =>
    refine ⟨bmiFrame_writeReg _ List.mem_cons_self
        (bmiFrame_writeReg _ (List.mem_cons_of_mem _ List.mem_cons_self) (bmiFrame_refl _ s)), rfl, ?high, ?low⟩
    case high => rw [toNat_writeReg_same, toNat_mulxHigh, toNat_readReg]
    case low =>
      intro hlo
      rw [writeReg_other w _ _ hlo, toNat_writeReg_same, toNat_mulxLow, toNat_readReg]

/-- Settles O22, by `toNat_shlxValue` and the count of `shiftCount_readReg`. -/
theorem shlxResult : Obligations.ShlxResult := by
  intro w d src v s a h
  refine ⟨writeReg w d (shlxValue a (readReg w v s)) s, withOperand_of_ok h, bmiFrame_writeReg_single .., rfl, ?_⟩
  rw [toNat_writeReg_same, toNat_shlxValue, shiftCount_readReg]

/-- Settles O23, by `toNat_sarxValue` and the count of `shiftCount_readReg`. -/
theorem sarxResult : Obligations.SarxResult := by
  intro w d src v s a h
  refine ⟨writeReg w d (sarxValue a (readReg w v s)) s, withOperand_of_ok h, bmiFrame_writeReg_single .., rfl, ?_⟩
  rw [toNat_writeReg_same, toNat_sarxValue, shiftCount_readReg]

/-- Settles O24, by `toNat_shrxValue` and the count of `shiftCount_readReg`. -/
theorem shrxResult : Obligations.ShrxResult := by
  intro w d src v s a h
  refine ⟨writeReg w d (shrxValue a (readReg w v s)) s, withOperand_of_ok h, bmiFrame_writeReg_single .., rfl, ?_⟩
  rw [toNat_writeReg_same, toNat_shrxValue, shiftCount_readReg]

/-- Settles O25, by `toNat_rorxValue`. -/
theorem rorxResult : Obligations.RorxResult := by
  intro w d src imm s a h
  refine ⟨writeReg w d (rorxValue a imm) s, withOperand_of_ok h, bmiFrame_writeReg_single .., rfl, ?_⟩
  rw [toNat_writeReg_same, toNat_rorxValue (bits_pos w)]

end Sys2Proof.Proofs
end

section
/-! PROOFS of the laws of the BMI values (40_bmi.md R129, R130, R131). -/

namespace Sys2Proof.Proofs

open Sys2Proof Sys2Proof.Machine

/-- Settles O27: bit i of both sides is the source bit below the popcount, by `getLsbD_pextValue_pdepValue`. -/
theorem pextOfPdep : Obligations.PextOfPdep := by
  intro w mask a
  apply Nat.eq_of_testBit_eq
  intro i
  rw [BitVec.testBit_toNat, getLsbD_pextValue_pdepValue, Nat.testBit_and, Nat.testBit_two_pow_sub_one,
    BitVec.testBit_toNat, Bool.and_comm]

/-- Settles O28: with start 0 and length W the value is S modulo 2^W, by `toNat_bextrValue`. -/
theorem bextrIdentity : Obligations.BextrIdentity := by
  intro w a v hv
  have hpos := bits_pos w
  have hle := Width.bits_le w
  have hstart : v.toNat % 256 = 0 := by omega
  have hlength : v.toNat / 256 % 256 = w.bits := by omega
  apply BitVec.eq_of_toNat_eq
  rw [toNat_bextrValue, hstart, hlength, if_neg (by omega), Nat.pow_zero, Nat.div_one, Nat.min_self,
    Nat.mod_eq_of_lt a.isLt]

/-- Settles O29: both sides take bit i from the place i + p + q around the width, by `getLsbD_rorxValue`. -/
theorem rorxComposes : Obligations.RorxComposes := by
  intro w a p q r hr
  apply BitVec.eq_of_getLsbD_eq
  intro i hi
  have hplace : ((i + q.toNat) % w.bits + p.toNat) % w.bits = (i + r.toNat) % w.bits := by
    rw [hr, Nat.mod_add_mod, Nat.add_mod_mod, Nat.add_assoc, Nat.add_comm q.toNat]
  rw [getLsbD_rorxValue _ q hi, getLsbD_rorxValue _ p (Nat.mod_lt _ (bits_pos w)), getLsbD_rorxValue _ r hi, hplace]

end Sys2Proof.Proofs
end

section
/-! PROOFS about the operand fetch (40_bmi.md R110, 45_pcmpstr.md R162, 20_memory.md R45, byte order D1). -/

namespace Sys2Proof.Proofs

open Sys2Proof Sys2Proof.Machine Sys2Proof.Safety

theorem littleEndianSum_cons (b : Byte) (bs : List Byte) :
    littleEndianSum (b :: bs) = b.toNat + 256 * littleEndianSum bs := by
  have hscale (k : Nat) : (bs.getD k 0).toNat * 2 ^ (8 * (k + 1)) = 256 * ((bs.getD k 0).toNat * 2 ^ (8 * k)) := by
    ring
  rw [littleEndianSum, List.length_cons, List.range_succ_eq_map, List.map_cons, List.sum_cons, List.map_map,
    littleEndianSum, ← List.sum_map_mul_left]
  congr 1
  · exact Nat.mul_one _
  · exact congrArg List.sum (List.map_congr_left fun k _ => hscale k)

/-- The model's recursion over the bytes is the sum of the spec. -/
theorem leNat_eq_littleEndianSum (bs : List Byte) : leNat bs = littleEndianSum bs := by
  induction bs with
  | nil => rfl
  | cons b bs ih => rw [leNat, ih, littleEndianSum_cons]

/-- `n` bytes fill a value of `8 * n` bits with nothing cut off. -/
theorem toNat_ofNat_leNat {m n : Nat} {bs : List Byte} (hlen : bs.length = n) (hm : m = 8 * n) :
    (BitVec.ofNat m (leNat bs)).toNat = littleEndianSum bs := by
  have hlt := leNat_lt bs
  rw [hlen, ← hm] at hlt
  rw [BitVec.toNat_ofNat, Nat.mod_eq_of_lt hlt, leNat_eq_littleEndianSum]

theorem loadBytes_of_some {a : Word} {n : Nat} {s : State} {bs : List Byte} (h : memRead a n s = some bs) :
    loadBytes a n s = .ok bs := by
  rw [loadBytes, h]

theorem loadBytes_of_none {a : Word} {n : Nat} {s : State} (h : memRead a n s = none) :
    loadBytes a n s = .error (.accessFault a n) := by
  rw [loadBytes, h]

/-- Settles O56: a register answers itself; a read that succeeds answers its bytes' sum (`toNat_ofNat_leNat`), and one
that fails the AccessFault of `loadBytes`. -/
theorem operandFetchValue : Obligations.OperandFetchValue := by
  intro w len r a s
  rw [bits_div_eight]
  refine ⟨⟨_, rfl, toNat_readReg w r s⟩, rfl, ?memory, ?vectorMemory, ?fault, ?vectorFault⟩
  case memory =>
    intro bs h
    refine ⟨BitVec.ofNat w.bits (leNat bs), by simp only [readOperand, loadBytes_of_some h], ?_⟩
    exact toNat_ofNat_leNat (Memory.length_read h) (by cases w <;> rfl)
  case vectorMemory =>
    intro bs h
    exact ⟨BitVec.ofNat 128 (leNat bs), by simp only [readVecOperand, loadBytes_of_some h],
      toNat_ofNat_leNat (Memory.length_read h) rfl⟩
  case fault =>
    intro h
    simp only [readOperand, loadBytes_of_none h]
  case vectorFault =>
    intro h
    simp only [readVecOperand, loadBytes_of_none h]

end Sys2Proof.Proofs
end

section
/-! PROOFS about the core of the string compares: implicit lengths, the cells and their aggregation, polarity
(45_pcmpstr.md section 1, R164 to R172). -/

namespace Sys2Proof.Proofs

open Sys2Proof Sys2Proof.Machine

/-! ### Searching the places below a bound, with the bound as the answer where no place fits -/

section FirstPlace

variable {n k : Nat} {p : Nat → Bool}

theorem getD_find?_range_le : ((List.range n).find? p).getD n ≤ n := by
  cases h : (List.range n).find? p with
  | none => exact Nat.le_refl n
  | some i => exact (List.mem_range.mp (List.mem_of_find?_eq_some h)).le

theorem eq_false_of_lt_getD_find?_range (hk : k < ((List.range n).find? p).getD n) : p k = false := by
  cases h : (List.range n).find? p with
  | none =>
    rw [h] at hk
    simpa using List.find?_range_eq_none.mp h k hk
  | some i =>
    rw [h] at hk
    obtain ⟨-, -, hbelow⟩ := List.find?_range_eq_some.mp h
    simpa using hbelow k hk

theorem eq_true_at_getD_find?_range (hlt : ((List.range n).find? p).getD n < n) :
    p (((List.range n).find? p).getD n) = true := by
  cases h : (List.range n).find? p with
  | none =>
    rw [h] at hlt
    exact absurd hlt (Nat.lt_irrefl n)
  | some i => exact List.find?_some h

/-- Searching from the top finds the greatest place. -/
theorem le_of_find?_reverse_range_eq_some {i : Nat} (h : (List.range n).reverse.find? p = some i) (hkn : k < n)
    (hk : p k = true) : k ≤ i := by
  obtain ⟨-, above, below, hsplit, habove⟩ := List.find?_eq_some_iff_append.mp h
  have hfalling : (above ++ i :: below).Pairwise (fun x y => y < x) :=
    hsplit ▸ List.pairwise_reverse.mpr List.pairwise_lt_range
  obtain ⟨-, htail, -⟩ := List.pairwise_append.mp hfalling
  have hmem : k ∈ above ++ i :: below := hsplit ▸ List.mem_reverse.mpr (List.mem_range.mpr hkn)
  rcases List.mem_append.mp hmem with hk' | hk'
  · simpa [hk] using habove k hk'
  · rcases List.mem_cons.mp hk' with rfl | hk'
    · exact Nat.le_refl k
    · exact (List.rel_of_pairwise_cons htail hk').le

end FirstPlace

/-! ### Implicit lengths -/

/-- The zero test of an element, on numbers. -/
theorem pcmpElemBits_beq_zero (c : PcmpControl) (v : Vec) (k : Nat) :
    (pcmpElemBits c v k == 0) = decide (v.toNat / 2 ^ (c.elemBits * k) % 2 ^ c.elemBits = 0) := by
  have htoNat : (pcmpElemBits c v k).toNat = v.toNat / 2 ^ (c.elemBits * k) % 2 ^ c.elemBits := by
    rw [pcmpElemBits, BitVec.extractLsb'_toNat, Nat.shiftRight_eq_div_pow]
  exact htoNat ▸ beq_zero_eq (pcmpElemBits c v k)

/-- Settles O32: the length is the place that the search from element 0 finds, its test by `pcmpElemBits_beq_zero`. -/
theorem implicitLengthRule : Obligations.ImplicitLengthRule := by
  intro c v
  refine ⟨getD_find?_range_le, fun k hk => ?nonzero, fun hlt => ?zero⟩
  case nonzero =>
    have h := eq_false_of_lt_getD_find?_range hk
    rw [pcmpElemBits_beq_zero] at h
    exact of_decide_eq_false h
  case zero =>
    have h := eq_true_at_getD_find?_range hlt
    rw [pcmpElemBits_beq_zero] at h
    exact of_decide_eq_true h

/-! ### Cells: the comparison of two valid elements, or the override (R166, R167, D16, D17) -/

section Cells

variable {c : PcmpControl} {a b : Vec} {la lb i j : Nat}

/-- A cell is set where the comparison of two valid elements holds, and, with a[j] invalid, by an override: always under
EqualOrdered, and with b[i] invalid too under EqualEach. -/
theorem pcmpCell_eq_true_iff :
    pcmpCell c a b la lb i j = true ↔
      (j < la ∧ i < lb ∧ pcmpRaw c a b i j = true) ∨
        (la ≤ j ∧ (c.agg = .equalOrdered ∨ (c.agg = .equalEach ∧ lb ≤ i))) := by
  by_cases hj : j < la
  · by_cases hi : i < lb
    · simp [pcmpCell, hj, hi]
    · simp [pcmpCell, hj, hi]
  · by_cases hi : i < lb
    · cases hagg : c.agg <;> simp [pcmpCell, hj, hi, hagg, not_lt.mp hj]
    · cases hagg : c.agg <;> simp [pcmpCell, hj, hi, hagg, not_lt.mp hj, not_lt.mp hi]

theorem pcmpCell_equalAny (h : c.agg = .equalAny) :
    pcmpCell c a b la lb i j = true ↔ j < la ∧ i < lb ∧ pcmpElem c b i = pcmpElem c a j := by
  simp [pcmpCell_eq_true_iff, pcmpRaw, h]

theorem pcmpCell_ranges (h : c.agg = .ranges) :
    pcmpCell c a b la lb i j = true ↔ j < la ∧ i < lb ∧
      if j % 2 = 0 then pcmpElem c a j ≤ pcmpElem c b i else pcmpElem c b i ≤ pcmpElem c a j := by
  simp only [pcmpCell_eq_true_iff, pcmpRaw, h]
  split <;> simp

theorem pcmpCell_equalEach (h : c.agg = .equalEach) :
    pcmpCell c a b la lb i j = true ↔
      (j < la ∧ i < lb ∧ pcmpElem c b i = pcmpElem c a j) ∨ (la ≤ j ∧ lb ≤ i) := by
  simp [pcmpCell_eq_true_iff, pcmpRaw, h]

theorem pcmpCell_equalOrdered (h : c.agg = .equalOrdered) :
    pcmpCell c a b la lb i j = true ↔ (j < la → i < lb ∧ pcmpElem c b i = pcmpElem c a j) := by
  simp only [pcmpCell_eq_true_iff, pcmpRaw, h, decide_eq_true_eq, true_or, and_true]
  by_cases hj : j < la
  · simp [hj]
  · simp [hj, not_lt.mp hj]

end Cells

/-! ### Aggregation -/

section Aggregation

variable {c : PcmpControl} {a b : Vec} {la lb i : Nat}

theorem pcmpAggregate_equalAny (h : c.agg = .equalAny) (hla : la ≤ c.count) :
    pcmpAggregate c a b la lb i = true ↔ i < lb ∧ ∃ j, j < la ∧ pcmpElem c b i = pcmpElem c a j := by
  simp only [pcmpAggregate, h, List.any_eq_true, List.mem_range, pcmpCell_equalAny h]
  constructor
  · rintro ⟨j, -, hj, hi, heq⟩
    exact ⟨hi, j, hj, heq⟩
  · rintro ⟨hi, j, hj, heq⟩
    exact ⟨j, hj.trans_le hla, hj, hi, heq⟩

/-- A range counts where its upper end, the odd element, is valid; its lower end then is valid too. -/
theorem pcmpAggregate_ranges (h : c.agg = .ranges) (hla : la ≤ c.count) :
    pcmpAggregate c a b la lb i = true ↔
      i < lb ∧ ∃ p, 2 * p + 1 < la ∧ pcmpElem c a (2 * p) ≤ pcmpElem c b i ∧
        pcmpElem c b i ≤ pcmpElem c a (2 * p + 1) := by
  have hodd (p : Nat) : (2 * p + 1) % 2 ≠ 0 := by omega
  simp only [pcmpAggregate, h, List.any_eq_true, List.mem_range, Bool.and_eq_true, pcmpCell_ranges h,
    Nat.mul_mod_right, if_true, if_neg (hodd _)]
  constructor
  · rintro ⟨p, -, ⟨-, hi, hlow⟩, hp, -, hhigh⟩
    exact ⟨hi, p, hp, hlow, hhigh⟩
  · rintro ⟨hi, p, hp, hlow, hhigh⟩
    exact ⟨p, by omega, ⟨by omega, hi, hlow⟩, hp, hi, hhigh⟩

theorem pcmpAggregate_equalEach (h : c.agg = .equalEach) :
    pcmpAggregate c a b la lb i = true ↔
      (i < la ∧ i < lb ∧ pcmpElem c a i = pcmpElem c b i) ∨ (la ≤ i ∧ lb ≤ i) := by
  simp only [pcmpAggregate, h, pcmpCell_equalEach h, eq_comm (a := pcmpElem c b i)]

theorem pcmpAggregate_equalOrdered (h : c.agg = .equalOrdered) :
    pcmpAggregate c a b la lb i = true ↔
      ∀ j, i + j < c.count → j < la → i + j < lb ∧ pcmpElem c b (i + j) = pcmpElem c a j := by
  simp only [pcmpAggregate, h, List.all_eq_true, List.mem_range, pcmpCell_equalOrdered h, Nat.lt_sub_iff_add_lt']

end Aggregation

/-- Settles O33: a bit of IntRes1 is the aggregation at its place, and each mode has its lemma. -/
theorem aggregationRule : Obligations.AggregationRule := by
  intro c a b la lb i hla _ hi
  rw [getLsbD_pcmpIntRes1, decide_eq_true hi, Bool.true_and]
  exact ⟨fun h => pcmpAggregate_equalAny h hla, fun h => pcmpAggregate_ranges h hla, pcmpAggregate_equalEach,
    pcmpAggregate_equalOrdered⟩

/-! ### Polarity -/

theorem pcmpControl_pol (imm : Byte) :
    (pcmpControl imm).pol =
      if imm.toNat / 16 % 4 = 1 then .negate else if imm.toNat / 16 % 4 = 3 then .maskNegate else .noNegate := by
  have hcode : (imm.extractLsb' 4 2).toNat = imm.toNat / 16 % 4 := by
    rw [BitVec.extractLsb'_toNat, Nat.shiftRight_eq_div_pow]
  rw [← hcode]
  simp only [pcmpControl, polarityOf, BitVec.toNat_eq]
  rfl

/-- A mask longer than the value is all ones. -/
theorem getLsbD_maskBits_of_lt {n i : Nat} (hi : i < n) (k : Nat) : (maskBits n k).getLsbD i = decide (i < k) := by
  rw [maskBits, BitVec.getLsbD_ofNat, decide_eq_true hi, Bool.true_and, Nat.testBit_two_pow_sub_one]

section Polarity

variable {c : PcmpControl} (a b : Vec) (la lb : Nat) {i : Nat}

theorem pcmpIntRes2_noNegate (h : c.pol = .noNegate) : pcmpIntRes2 c a b la lb = pcmpIntRes1 c a b la lb := by
  rw [pcmpIntRes2, pcmpPolarity, h]

theorem getLsbD_pcmpIntRes2_negate (h : c.pol = .negate) (hi : i < c.count) :
    (pcmpIntRes2 c a b la lb).getLsbD i = !(pcmpIntRes1 c a b la lb).getLsbD i := by
  rw [pcmpIntRes2, pcmpPolarity, h]
  simp only [BitVec.getLsbD_xor, getLsbD_maskBits_of_lt hi, hi, decide_true, Bool.xor_true]

theorem getLsbD_pcmpIntRes2_maskNegate (h : c.pol = .maskNegate) (hi : i < c.count) :
    (pcmpIntRes2 c a b la lb).getLsbD i = ((pcmpIntRes1 c a b la lb).getLsbD i ^^ decide (i < lb)) := by
  rw [pcmpIntRes2, pcmpPolarity, h]
  simp only [BitVec.getLsbD_xor, getLsbD_maskBits_of_lt hi]

end Polarity

/-- Settles O34: the code picks the polarity (`pcmpControl_pol`), and each polarity has its lemma. -/
theorem polarityRule : Obligations.PolarityRule := by
  intro imm a b la lb i hi
  have hpol := pcmpControl_pol imm
  split_ifs at hpol ⊢
  · exact getLsbD_pcmpIntRes2_negate a b la lb hpol hi
  · exact getLsbD_pcmpIntRes2_maskNegate a b la lb hpol hi
  · rw [pcmpIntRes2_noNegate a b la lb hpol]

end Sys2Proof.Proofs
end

section
/-! PROOFS of the results of the eight string compares (45_pcmpstr.md R173, R174, R176 to R180, R182, R185): what each
commit leaves, once for the index forms and once for the mask forms, whatever the lengths and IntRes2. -/

namespace Sys2Proof.Proofs

open Sys2Proof Sys2Proof.Machine Sys2Proof.Safety

/-! ### The index output -/

section Index

variable {c : PcmpControl} {r : BitVec c.count}

theorem pcmpIndex_zero (c : PcmpControl) : pcmpIndex c 0 = c.count := by
  have hnone (l : List Nat) : l.find? (fun k => (0 : BitVec c.count).getLsbD k) = none :=
    List.find?_eq_none.mpr fun k _ => by simp
  simp only [pcmpIndex, hnone, Option.getD_none, ite_self]

theorem exists_getLsbD_of_ne_zero {n : Nat} {r : BitVec n} (hr : r ≠ 0) : ∃ k < n, r.getLsbD k = true := by
  by_contra hall
  refine hr (BitVec.eq_of_getLsbD_eq fun k hk => ?_)
  simpa using fun h => hall ⟨k, hk, h⟩

theorem isLeast_pcmpIndex (hout : c.out = false) (hr : r ≠ 0) :
    IsLeast {k | r.getLsbD k = true} (pcmpIndex c r) := by
  have hindex : pcmpIndex c r = ((List.range c.count).find? fun k => r.getLsbD k).getD c.count := by
    simp [pcmpIndex, hout]
  have hleast : ∀ k, r.getLsbD k = true → pcmpIndex c r ≤ k := by
    intro k hk
    by_contra hlt
    rw [hindex, not_le] at hlt
    simp [eq_false_of_lt_getD_find?_range hlt] at hk
  obtain ⟨k, hkn, hk⟩ := exists_getLsbD_of_ne_zero hr
  have hlt : pcmpIndex c r < c.count := (hleast k hk).trans_lt hkn
  rw [hindex] at hlt hleast ⊢
  exact ⟨eq_true_at_getD_find?_range hlt, hleast⟩

theorem isGreatest_pcmpIndex (hout : c.out = true) (hr : r ≠ 0) :
    IsGreatest {k | r.getLsbD k = true} (pcmpIndex c r) := by
  obtain ⟨k, hkn, hk⟩ := exists_getLsbD_of_ne_zero hr
  cases hfind : (List.range c.count).reverse.find? fun k => r.getLsbD k with
  | none => exact absurd hk (List.find?_eq_none.mp hfind k (List.mem_reverse.mpr (List.mem_range.mpr hkn)))
  | some i =>
    have hindex : pcmpIndex c r = i := by simp [pcmpIndex, hout, hfind]
    rw [hindex]
    exact ⟨List.find?_some hfind, fun k hk =>
      le_of_find?_reverse_range_eq_some hfind (BitVec.lt_of_getLsbD hk) hk⟩

theorem getLsbD_pcmpIndex (hr : r ≠ 0) : r.getLsbD (pcmpIndex c r) = true := by
  cases hout : c.out with
  | false => exact (isLeast_pcmpIndex hout hr).1
  | true => exact (isGreatest_pcmpIndex hout hr).1

theorem pcmpIndex_le (c : PcmpControl) (r : BitVec c.count) : pcmpIndex c r ≤ c.count := by
  by_cases hr : r = 0
  · rw [hr, pcmpIndex_zero]
  · exact (BitVec.lt_of_getLsbD (getLsbD_pcmpIndex hr)).le

end Index

/-! ### The index forms -/

/-- What an index form leaves when the lengths are `la` and `lb` and IntRes2 is `r`. -/
def IndexOutcome (c : PcmpControl) (la lb : Nat) (r : BitVec c.count) (s t : State) : Prop :=
  IndexFrame s t ∧
    (r = 0 → (t.x[Reg.rcx]).toNat = c.count) ∧
    (r ≠ 0 → r.getLsbD (t.x[Reg.rcx]).toNat = true ∧
      ∀ k, r.getLsbD k = true →
        (c.out = false → (t.x[Reg.rcx]).toNat ≤ k) ∧ (c.out = true → k ≤ (t.x[Reg.rcx]).toNat)) ∧
    t.flags.cf = decide (r ≠ 0) ∧ t.flags.zf = decide (lb < c.count) ∧ t.flags.sf = decide (la < c.count) ∧
    t.flags.of = r.getLsbD 0 ∧ t.flags.af = false ∧ t.flags.pf = false

section Commit

variable (c : PcmpControl) (la lb : Nat) (r : BitVec c.count) (s : State)

theorem bne_zero_eq {n : Nat} (v : BitVec n) : (v != 0) = decide (v ≠ 0) := by
  rw [bne, beq_eq_decide, decide_not]

/-- The index is at most 16, so ECX holds it whole. -/
theorem toNat_commitIndex_rcx : ((commitIndex c la lb r s).x[Reg.rcx]).toNat = pcmpIndex c r := by
  have hle := pcmpIndex_le c r
  have hcount := c.count_le
  calc ((commitIndex c la lb r s).x[Reg.rcx]).toNat
      = (BitVec.ofNat 32 (pcmpIndex c r)).toNat := toNat_writeReg_same .w32 Reg.rcx _ s
    _ = pcmpIndex c r := by rw [BitVec.toNat_ofNat, Nat.mod_eq_of_lt (by omega)]

/-- The arithmetic flags are outside the frame. -/
theorem indexFrame_commitIndex : IndexFrame s (commitIndex c la lb r s) :=
  bmiFrame_writeReg_single .w32 Reg.rcx (BitVec.ofNat 32 (pcmpIndex c r)) s

theorem indexOutcome_commitIndex : IndexOutcome c la lb r s (commitIndex c la lb r s) := by
  rw [IndexOutcome, toNat_commitIndex_rcx]
  refine ⟨indexFrame_commitIndex c la lb r s, ?none,
    fun hr => ⟨getLsbD_pcmpIndex hr, fun k hk => ⟨?least, ?greatest⟩⟩, bne_zero_eq r, rfl, rfl, rfl, rfl, rfl⟩
  case none =>
    rintro rfl
    exact pcmpIndex_zero c
  case least => exact fun hout => (isLeast_pcmpIndex hout hr).2 hk
  case greatest => exact fun hout => (isGreatest_pcmpIndex hout hr).2 hk

end Commit

/-- Settles O35: both forms commit the index, with the lengths of rAX and rDX. -/
theorem explicitIndexForms : Obligations.ExplicitIndexForms := by
  intro rex a b imm s vb c la lb r good
  have hgood : good (commitIndex c la lb r s) := indexOutcome_commitIndex c la lb r s
  exact ⟨fun h => ⟨_, withOperand_of_ok h, hgood⟩, fun h => ⟨_, withOperand_of_ok h, hgood⟩⟩

/-- Settles O36: both forms commit the index, with the lengths of the operands. -/
theorem implicitIndexForms : Obligations.ImplicitIndexForms := by
  intro rex a b imm s vb c la lb r good
  have hgood : good (commitIndex c la lb r s) := indexOutcome_commitIndex c la lb r s
  exact ⟨fun h => ⟨_, withOperand_of_ok h, hgood⟩, fun h => ⟨_, withOperand_of_ok h, hgood⟩⟩

/-! ### The mask forms -/

/-- What a mask form leaves, but for the half above xmm[0], when the lengths are `la` and `lb` and IntRes2 is `r`. -/
def MaskOutcome (c : PcmpControl) (la lb : Nat) (r : BitVec c.count) (s t : State) : Prop :=
  MaskFrame s t ∧
    (∀ i, i < 128 → (t.xmm[(0 : Reg)]).getLsbD i = if c.out then r.getLsbD (i / c.elemBits) else r.getLsbD i) ∧
    t.flags.cf = decide (r ≠ 0) ∧ t.flags.zf = decide (lb < c.count) ∧ t.flags.sf = decide (la < c.count) ∧
    t.flags.of = r.getLsbD 0 ∧ t.flags.af = false ∧ t.flags.pf = false

section Commit

variable (c : PcmpControl) (la lb : Nat) (r : BitVec c.count) (s : State)

theorem maskFrame_commitMask : MaskFrame s (commitMask c la lb r s) :=
  ⟨fun _ _ => rfl, fun _ hr => writeXmm_other (pcmpMask c r) s hr, fun _ => rfl, ⟨rfl, rfl, rfl, rfl⟩,
    ⟨rfl, rfl, rfl, rfl⟩⟩

theorem commitMask_xmm0 : (commitMask c la lb r s).xmm[(0 : Reg)] = pcmpMask c r :=
  writeXmm_same 0 (pcmpMask c r) s

theorem maskOutcome_commitMask : MaskOutcome c la lb r s (commitMask c la lb r s) := by
  refine ⟨maskFrame_commitMask c la lb r s, fun i hi => ?mask, bne_zero_eq r, rfl, rfl, rfl, rfl, rfl⟩
  case mask => rw [commitMask_xmm0, getLsbD_pcmpMask c r i hi]

/-- The half above xmm[0] is no part of the outcome. -/
theorem maskOutcome_vexUpper {t : State} (h : MaskOutcome c la lb r s t) : MaskOutcome c la lb r s (vexUpper t) := by
  rw [vexUpper_eq]
  exact h

end Commit

/-- Settles O37: both forms commit the mask, with the lengths of rAX and rDX; the VEX form then fills the half above
xmm[0], which the legacy form does not touch. -/
theorem explicitMaskForms : Obligations.ExplicitMaskForms := by
  intro rex a b imm s vb c la lb r good
  have hgood : good (commitMask c la lb r s) := maskOutcome_commitMask c la lb r s
  exact ⟨fun h => ⟨_, withOperand_of_ok h, hgood, rfl⟩,
    fun h => ⟨_, withOperand_of_ok h, maskOutcome_vexUpper c la lb r s hgood⟩⟩

/-- Settles O38: both forms commit the mask, with the lengths of the operands; the VEX form then fills the half above
xmm[0], which the legacy form does not touch. -/
theorem implicitMaskForms : Obligations.ImplicitMaskForms := by
  intro rex a b imm s vb c la lb r good
  have hgood : good (commitMask c la lb r s) := maskOutcome_commitMask c la lb r s
  exact ⟨fun h => ⟨_, withOperand_of_ok h, hgood, rfl⟩,
    fun h => ⟨_, withOperand_of_ok h, maskOutcome_vexUpper c la lb r s hgood⟩⟩

end Sys2Proof.Proofs
end

section
/-! PROOFS about the fetch that every instruction begins with, and the outcome that follows from it (20_memory.md R49,
60_exceptions.md R202, R203). -/

namespace Sys2Proof.Proofs

open Sys2Proof Sys2Proof.Machine Sys2Proof.Safety

/-! ### What a fetch can answer -/

/-- What fetching the operand `o`, of `n` bytes in memory, for an instruction of length `len` can answer: a value for a
register or a read that succeeds, and for a read that fails the AccessFault of its effective address and size. -/
inductive FetchAnswers {α : Type} (len n : Nat) (s : State) : Operand → Except Fault α → Prop where
  | register (r : Reg) (v : α) : FetchAnswers len n s (.reg r) (.ok v)
  | loaded {a : Addr} {bs : List Byte} (v : α) (hread : memRead (effAddr len a s) n s = some bs) :
      FetchAnswers len n s (.mem a) (.ok v)
  | failed {a : Addr} (hread : memRead (effAddr len a s) n s = none) :
      FetchAnswers len n s (.mem a) (.error (.accessFault (effAddr len a s) n))

theorem fetchAnswers_readOperand (w : Width) (len : Nat) (o : Operand) (s : State) :
    FetchAnswers len w.bytes s o (readOperand w len o s) := by
  obtain ⟨r, rfl, h⟩ | ⟨a, rfl, ⟨bs, hread, h⟩ | ⟨hread, h⟩⟩ := readOperand_cases w len o s
  · exact h ▸ .register r _
  · exact h ▸ .loaded _ hread
  · exact h ▸ .failed hread

theorem fetchAnswers_readVecOperand (len : Nat) (o : Operand) (s : State) :
    FetchAnswers len 16 s o (readVecOperand len o s) := by
  obtain ⟨r, rfl, h⟩ | ⟨a, rfl, ⟨bs, hread, h⟩ | ⟨hread, h⟩⟩ := readVecOperand_cases len o s
  · exact h ▸ .register r _
  · exact h ▸ .loaded _ hread
  · exact h ▸ .failed hread

/-! ### Every instruction is one fetch and a commit -/

/-- Every instruction fetches its ModRM.rm operand once, with its own length, and commits what it makes of the value. -/
theorem exec_eq_withOperand (i : Instr) (s : State) :
    ∃ (α : Type) (e : Except Fault α) (k : α → State),
      FetchAnswers (instrLength i) (rmOperand i).2 s (rmOperand i).1 e ∧ exec i s = withOperand e k := by
  cases i with
  | blsr w | blsmsk w | blsi w | andn w | bzhi w | pext w | pdep w | mulx w | bextr w | shlx w | sarx w | shrx w
  | rorx w => exact ⟨_, _, _, fetchAnswers_readOperand w _ _ s, rfl⟩
  | pcmpestrm | pcmpestri | pcmpistrm | pcmpistri | vpcmpestrm | vpcmpestri | vpcmpistrm | vpcmpistri =>
    exact ⟨_, _, _, fetchAnswers_readVecOperand _ _ s, rfl⟩

/-! ### The request of that fetch -/

section Request

variable {i : Instr} {n : Nat} (s : State)

theorem memRequest_of_reg {r : Reg} (h : rmOperand i = (.reg r, n)) : memRequest i s = none := by
  rw [memRequest, h]

theorem memRequest_of_mem {a : Addr} (h : rmOperand i = (.mem a, n)) :
    memRequest i s = some (effAddr (instrLength i) a s, n) := by
  rw [memRequest, h]

end Request

/-- What an instruction can do: complete without a request, complete after its read, or end with the fault of it. -/
theorem exec_cases (i : Instr) (s : State) :
    (memRequest i s = none ∧ Completes (exec i s)) ∨
      ∃ a n, memRequest i s = some (a, n) ∧
        ((memRead a n s ≠ none ∧ Completes (exec i s)) ∨
          (memRead a n s = none ∧ exec i s = .fault (.accessFault a n))) := by
  obtain ⟨α, e, k, hfetch, hexec⟩ := exec_eq_withOperand i s
  rw [hexec]
  rcases hop : rmOperand i with ⟨o, n⟩
  rw [hop] at hfetch
  cases hfetch with
  | register r v => exact .inl ⟨memRequest_of_reg s hop, k v, rfl⟩
  | loaded v hread =>
    exact .inr ⟨_, n, memRequest_of_mem s hop, .inl ⟨Option.ne_none_iff_exists'.mpr ⟨_, hread⟩, k v, rfl⟩⟩
  | failed hread => exact .inr ⟨_, n, memRequest_of_mem s hop, .inr ⟨hread, rfl⟩⟩

/-- Settles O44: of the three outcomes of `exec_cases`, readability excludes the fault, and a failed read leaves no other. -/
theorem execCompletesOrAccessFaults : Obligations.ExecCompletesOrAccessFaults := by
  intro i s
  obtain ⟨hnone, hnext⟩ | ⟨a, n, hreq, ⟨hread, hnext⟩ | ⟨hread, hfault⟩⟩ := exec_cases i s
  · exact ⟨fun _ => hnext, fun a n hreq => absurd (hnone.symm.trans hreq) nofun⟩
  · refine ⟨fun _ => hnext, fun a' n' hreq' hread' => ?_⟩
    cases hreq.symm.trans hreq'
    exact absurd hread' hread
  · refine ⟨fun hreadable => absurd hread (hreadable a n hreq), fun a' n' hreq' _ => ?_⟩
    cases hreq.symm.trans hreq'
    exact hfault

end Sys2Proof.Proofs
end

section
/-! PROOFS about the decoder: when each of its functions answers an instruction, and with what (30_encoding.md sections
1 to 7). -/

namespace Sys2Proof.Proofs

open Sys2Proof

variable {m : IpMode} {i : Instr}

/-! ### The VEX forms -/

/-- What the decoder makes of the two bytes after C4, once the map is known (R67, R69, R76). -/
def vexContext (m : IpMode) (b1 b2 : Byte) (map : OpMap) : PrefixContext :=
  { w := b2.extractLsb' 7 1
    map := map
    pp := simdOfField (b2.extractLsb' 0 2)
    raw := b2.extractLsb' 3 4
    l := b2.extractLsb' 2 1
    r := extBit m (~~~b1.extractLsb' 7 1)
    x := extBit m (~~~b1.extractLsb' 6 1)
    b := extBit m (~~~b1.extractLsb' 5 1) }

/-- The operands that a VEX instruction is built of. -/
def vexFields (m : IpMode) (p : PrefixContext) (modrm : Byte) (rm : Operand) (imm : Byte) : VexFields :=
  ⟨widthOf m p.w, mkReg p.r (modrm.extractLsb' 3 3), vvvvReg m p.raw, rm, imm⟩

theorem decodeVexOperands_eq_ok {p : PrefixContext} {o : VexOp} {modrm : Byte} {bs rest : List Byte} :
    decodeVexOperands m p o modrm bs = .ok (i, rest) ↔
      ∃ rm tail imm, decodeOperand m p.x p.b modrm bs = some (rm, tail) ∧
        takeImm (vexRow o).imm8 tail = some (imm, rest) ∧ i = vexInstr o (vexFields m p modrm rm imm) := by
  unfold decodeVexOperands
  cases hrm : decodeOperand m p.x p.b modrm bs with
  | none => simp
  | some found =>
    obtain ⟨rm, tail⟩ := found
    cases himm : takeImm (vexRow o).imm8 tail with
    | none => simp [himm]
    | some found =>
      obtain ⟨imm, tail'⟩ := found
      simp only [himm, Except.ok.injEq, Prod.mk.injEq, Option.some.injEq]
      constructor
      · rintro ⟨rfl, rfl⟩
        exact ⟨rm, tail, imm, ⟨rfl, rfl⟩, himm, rfl⟩
      · rintro ⟨_, _, _, ⟨rfl, rfl⟩, himm', rfl⟩
        cases himm.symm.trans himm'
        exact ⟨rfl, rfl⟩

theorem decodeVexBody_eq_ok {p : PrefixContext} {op modrm : Byte} {bs rest : List Byte} :
    decodeVexBody m p (op :: modrm :: bs) = .ok (i, rest) ↔
      p.l ≠ 1 ∧ ∃ o, vexDispatch p.map p.pp op (modrm.extractLsb' 3 3) = some o ∧
        ((vexRow o).vvvvFixed = true → p.raw = 15) ∧ decodeVexOperands m p o modrm bs = .ok (i, rest) := by
  rw [decodeVexBody]
  split_ifs with hl
  · exact iff_of_false nofun fun h => h.1 hl
  · cases hrow : vexDispatch p.map p.pp op (modrm.extractLsb' 3 3) with
    | none => exact iff_of_false nofun nofun
    | some o =>
      simp only [Option.some.injEq, exists_eq_left']
      split_ifs with hv
      · exact iff_of_false nofun fun h => hv.2 (h.2.1 hv.1)
      · exact ⟨fun h => ⟨hl, not_and_not_right.mp hv, h⟩, fun h => h.2.2⟩

theorem decodeVex3_eq_ok {b1 b2 : Byte} {bs rest : List Byte} :
    decodeVex3 m (b1 :: b2 :: bs) = .ok (i, rest) ↔
      (m = .m32 → b1.extractLsb' 6 2 = 3) ∧ ∃ map, opMapOfField (b1.extractLsb' 0 5) = some map ∧
        decodeVexBody m (vexContext m b1 b2 map) bs = .ok (i, rest) := by
  rw [decodeVex3]
  split_ifs with htop
  · exact iff_of_false nofun fun h => htop.2 (h.1 htop.1)
  · cases hmap : opMapOfField (b1.extractLsb' 0 5) with
    | none => exact iff_of_false nofun nofun
    | some map =>
      simp only [Option.some.injEq, exists_eq_left']
      exact ⟨fun h => ⟨not_and_not_right.mp htop, h⟩, fun h => h.2⟩

/-- The bytes of a VEX form that decodes: C4, two bytes of fields, opcode, ModRM (R65). -/
theorem shape_of_decodeVex3_eq_ok {bs rest : List Byte} (h : decodeVex3 m bs = .ok (i, rest)) :
    ∃ b1 b2 op modrm tail, bs = b1 :: b2 :: op :: modrm :: tail := by
  rcases bs with _ | ⟨b1, _ | ⟨b2, bs⟩⟩
  · cases h
  · cases h
  · obtain ⟨-, map, -, hbody⟩ := decodeVex3_eq_ok.mp h
    rcases bs with _ | ⟨op, _ | ⟨modrm, tail⟩⟩
    · cases hbody
    · cases hbody
    · exact ⟨b1, b2, op, modrm, tail, rfl⟩

/-- No row stands in map 0F, so C5 leads to no instruction (R100). -/
theorem vexDispatch_map0F (pp : Simd) (op : Byte) (reg : BitVec 3) : vexDispatch .map0F pp op reg = none := by
  rw [vexDispatch, List.find?_eq_none]
  intro o _
  cases o <;> simp [vexRowMatches, vexRow]

theorem decodeVex2_ne_ok {bs rest : List Byte} : decodeVex2 m bs ≠ .ok (i, rest) := by
  rcases bs with _ | ⟨b1, _ | ⟨op, _ | ⟨modrm, tail⟩⟩⟩
  · nofun
  · rw [decodeVex2]
    split <;> nofun
  · rw [decodeVex2]
    split <;> nofun
  · rw [decodeVex2]
    split
    · nofun
    · intro h
      obtain ⟨-, o, hrow, -⟩ := decodeVexBody_eq_ok.mp h
      rw [vexDispatch_map0F] at hrow
      cases hrow

/-! ### The legacy form -/

theorem decodeEscape_eq_ok {rex : Bool} {r x b : BitVec 1} {e1 e2 op modrm : Byte} {bs rest : List Byte} :
    decodeEscape m rex r x b (e1 :: e2 :: op :: modrm :: bs) = .ok (i, rest) ↔
      e1 = 0x0F ∧ e2 = 0x3A ∧ ∃ o rm tail imm, legacyDispatch op = some o ∧
        decodeOperand m x b modrm bs = some (rm, tail) ∧ takeImm true tail = some (imm, rest) ∧
        i = legacyInstr o rex (mkReg r (modrm.extractLsb' 3 3)) rm imm := by
  rw [decodeEscape]
  by_cases hesc : e1 ≠ 0x0F ∨ e2 ≠ 0x3A
  · rw [if_pos hesc]
    constructor
    · nofun
    · rintro ⟨h1, h2, -⟩
      exact absurd hesc (by simp [h1, h2])
  · rw [if_neg hesc]
    obtain ⟨h1, h2⟩ := not_or.mp hesc
    rw [not_not] at h1 h2
    cases hop : legacyDispatch op with
    | none => simp
    | some o =>
      cases hrm : decodeOperand m x b modrm bs with
      | none => simp
      | some found =>
        obtain ⟨rm, tail⟩ := found
        cases himm : takeImm true tail with
        | none => simp [himm]
        | some found =>
          obtain ⟨imm, tail'⟩ := found
          simp only [himm, Except.ok.injEq, Prod.mk.injEq, Option.some.injEq]
          constructor
          · rintro ⟨rfl, rfl⟩
            exact ⟨h1, h2, o, rm, tail, imm, rfl, ⟨rfl, rfl⟩, himm, rfl⟩
          · rintro ⟨-, -, _, _, _, _, rfl, ⟨rfl, rfl⟩, himm', rfl⟩
            cases himm.symm.trans himm'
            exact ⟨rfl, rfl⟩

theorem shape_of_decodeEscape_eq_ok {rex : Bool} {r x b : BitVec 1} {bs rest : List Byte}
    (h : decodeEscape m rex r x b bs = .ok (i, rest)) :
    ∃ e1 e2 op modrm tail, bs = e1 :: e2 :: op :: modrm :: tail := by
  rcases bs with _ | ⟨e1, _ | ⟨e2, _ | ⟨op, _ | ⟨modrm, tail⟩⟩⟩⟩
  · cases h
  · cases h
  · cases h
  · cases h
  · exact ⟨e1, e2, op, modrm, tail, rfl⟩

/-- With a REX byte, which only M64 has, or without one (R73). -/
theorem decodeLegacy_eq_ok {b1 : Byte} {bs rest : List Byte} :
    decodeLegacy m (b1 :: bs) = .ok (i, rest) ↔
      (m = .m64 ∧ b1.extractLsb' 4 4 = 4 ∧
        decodeEscape m true (b1.extractLsb' 2 1) (b1.extractLsb' 1 1) (b1.extractLsb' 0 1) bs = .ok (i, rest)) ∨
      (¬(m = .m64 ∧ b1.extractLsb' 4 4 = 4) ∧ decodeEscape m false 0 0 0 (b1 :: bs) = .ok (i, rest)) := by
  rw [decodeLegacy]
  by_cases hrex : m = .m64 ∧ b1.extractLsb' 4 4 = 4
  · simp [hrex]
  · rw [if_neg hrex, ← and_assoc]
    simp only [hrex, false_and, false_or, not_false_eq_true, true_and]

/-! ### Decoding -/

/-- An instruction begins with C4 or with 66 (R74, R75, R100). -/
theorem decodeBytes_eq_ok {bs rest : List Byte} :
    decodeBytes m bs = .ok (i, rest) ↔
      (∃ tail, bs = 0xC4 :: tail ∧ decodeVex3 m tail = .ok (i, rest)) ∨
      (∃ tail, bs = 0x66 :: tail ∧ decodeLegacy m tail = .ok (i, rest)) := by
  cases bs with
  | nil => exact iff_of_false nofun nofun
  | cons b0 bs =>
    simp only [decodeBytes, List.cons.injEq, and_assoc, exists_and_left, exists_eq_left']
    split_ifs with h1 h2 h3
    · subst h1
      simp
    · subst h2
      exact iff_of_false decodeVex2_ne_ok (by simp)
    · subst h3
      simp
    · exact iff_of_false nofun fun h => h.elim (fun h => h1 h.1) fun h => h3 h.1

theorem decode_eq_ok {bs : List Byte} : decode m bs = .ok i ↔ ∃ rest, decodeBytes m bs = .ok (i, rest) := by
  unfold decode
  cases decodeBytes m bs with
  | error e => simp
  | ok found => simp [Prod.ext_iff]

end Sys2Proof.Proofs
end

section
/-! PROOFS about the encoder: every field it writes is read back, so decoding undoes encoding (30_encoding.md sections
1 to 7). -/

namespace Sys2Proof.Proofs

open Sys2Proof

/-! ### Fields a mode may narrow -/

theorem extBit_of_m32_zero {m : IpMode} {b : BitVec 1} (h : m = .m32 → b = 0) : extBit m b = b := by
  cases m with
  | m64 => rfl
  | m32 => exact (h rfl).symm

theorem reg_zero_wf (m : IpMode) : Reg.wf m 0 = true := by cases m <;> rfl

theorem w32_wf (m : IpMode) : Width.wf m .w32 = true := by cases m <;> rfl

theorem regHi_of_wf_m32 {r : Reg} (h : r.wf .m32 = true) : regHi r = 0 :=
  regHi_of_lt (of_decide_eq_true h)

theorem indexRegs_wf {m : IpMode} {i : Option Index} (h : Index.wfOpt m i = true) :
    ∀ r ∈ (i.map Index.reg).toList, r.wf m = true := by
  cases i with
  | none => nofun
  | some i =>
    simp only [Index.wfOpt, Index.wf, Bool.and_eq_true] at h
    exact List.forall_mem_singleton.mpr h.1

/-- A well-formed operand names registers of the mode only. -/
theorem operandRegs_wf {m : IpMode} {o : Operand} (h : o.wf m = true) : ∀ r ∈ o.regs, r.wf m = true := by
  cases o with
  | reg r => exact List.forall_mem_singleton.mpr h
  | mem a =>
    cases a with
    | base b d =>
      simp only [Operand.wf, Addr.wf, Bool.and_eq_true] at h
      obtain ⟨⟨hb, -⟩, -⟩ := h
      exact List.forall_mem_singleton.mpr hb
    | sib b i d =>
      simp only [Operand.wf, Addr.wf, Bool.and_eq_true] at h
      obtain ⟨⟨hb, hi⟩, -⟩ := h
      exact List.forall_mem_cons.mpr ⟨hb, indexRegs_wf hi⟩
    | sibNoBase i d => exact indexRegs_wf h
    | ripRel d | abs d => nofun

/-- An operand that names only registers 0 to 7 needs neither X nor B. -/
theorem encodeOperand_ext_of_low_regs {o : Operand} (h : ∀ r ∈ o.regs, r.wf .m32 = true) :
    (encodeOperand o).x = 0 ∧ (encodeOperand o).b = 0 := by
  have hlow : ∀ r ∈ o.regs, regHi r = 0 := fun r hr => regHi_of_wf_m32 (h r hr)
  cases o with
  | reg r => exact ⟨rfl, hlow r List.mem_cons_self⟩
  | mem a =>
    cases a with
    | base b d => exact ⟨rfl, hlow b List.mem_cons_self⟩
    | sib b i d =>
      refine ⟨?_, hlow b List.mem_cons_self⟩
      cases i with
      | none => rfl
      | some i => exact hlow i.reg (List.mem_cons_of_mem _ List.mem_cons_self)
    | sibNoBase i d =>
      refine ⟨?_, rfl⟩
      cases i with
      | none => rfl
      | some i => exact hlow i.reg List.mem_cons_self
    | ripRel d => exact ⟨rfl, rfl⟩
    | abs d => exact ⟨rfl, rfl⟩

theorem widthOf_widthBit {m : IpMode} {w : Width} (h : w.wf m = true) : widthOf m (widthBit w) = w := by
  cases m with
  | m64 => cases w <;> rfl
  | m32 =>
    cases w with
    | w32 => rfl
    | w64 => cases h

theorem vvvvReg_not {m : IpMode} {r : Reg} (h : r.wf m = true) :
    vvvvReg m (~~~BitVec.ofFin (w := 4) r) = r := by
  cases m
  · revert r
    decide
  · revert r
    decide

/-! ### The two bytes after C4, and the REX byte -/

/-- The byte after C4: R, X and B inverted, and the map field (R67). -/
def vexByte1 (r x b : BitVec 1) (map : BitVec 5) : Byte := (~~~r ++ ~~~x ++ ~~~b ++ map : BitVec 8)

/-- The byte after that, with L = 0: W, the raw vvvv field and pp (R67). -/
def vexByte2 (w : BitVec 1) (raw : BitVec 4) (pp : BitVec 2) : Byte := (w ++ raw ++ 0#1 ++ pp : BitVec 8)

/-- A REX byte with W = 0 (R73). -/
def rexByte (r x b : BitVec 1) : Byte := (4#4 ++ 0#1 ++ r ++ x ++ b : BitVec 8)

theorem map_vexByte1 (r x b : BitVec 1) (map : BitVec 5) : (vexByte1 r x b map).extractLsb' 0 5 = map := by
  revert r x b map
  decide

/-- Without R and X the two top bits of the byte are set, as M32 wants them (R76a). -/
theorem top_vexByte1 (b : BitVec 1) (map : BitVec 5) : (vexByte1 0 0 b map).extractLsb' 6 2 = 3 := by
  revert b map
  decide

theorem ext_vexByte1 (r x b : BitVec 1) (map : BitVec 5) :
    ~~~(vexByte1 r x b map).extractLsb' 7 1 = r ∧ ~~~(vexByte1 r x b map).extractLsb' 6 1 = x ∧
      ~~~(vexByte1 r x b map).extractLsb' 5 1 = b := by
  revert r x b map
  decide

theorem fields_vexByte2 (w : BitVec 1) (raw : BitVec 4) (pp : BitVec 2) :
    (vexByte2 w raw pp).extractLsb' 7 1 = w ∧ (vexByte2 w raw pp).extractLsb' 3 4 = raw ∧
      (vexByte2 w raw pp).extractLsb' 2 1 = 0 ∧ (vexByte2 w raw pp).extractLsb' 0 2 = pp := by
  revert w raw pp
  decide

theorem fields_rexByte (r x b : BitVec 1) :
    (rexByte r x b).extractLsb' 4 4 = 4 ∧ (rexByte r x b).extractLsb' 2 1 = r ∧
      (rexByte r x b).extractLsb' 1 1 = x ∧ (rexByte r x b).extractLsb' 0 1 = b := by
  revert r x b
  decide

variable {m : IpMode}

/-- The fields written into the two bytes come back, where in M32 no extension bit is set. -/
theorem vexContext_vexBytes {r x b : BitVec 1} (hext : m = .m32 → r = 0 ∧ x = 0 ∧ b = 0) (field : BitVec 5)
    (w : BitVec 1) (raw : BitVec 4) (pp : BitVec 2) (map : OpMap) :
    vexContext m (vexByte1 r x b field) (vexByte2 w raw pp) map = ⟨w, map, simdOfField pp, raw, 0, r, x, b⟩ := by
  obtain ⟨hr, hx, hb⟩ := ext_vexByte1 r x b field
  obtain ⟨hw, hraw, hl, hpp⟩ := fields_vexByte2 w raw pp
  rw [vexContext, hr, hx, hb, hw, hraw, hl, hpp, extBit_of_m32_zero fun h => (hext h).1,
    extBit_of_m32_zero fun h => (hext h).2.1, extBit_of_m32_zero fun h => (hext h).2.2]

/-! ### The VEX forms -/

/-- The R bit of an encoding: that of the register, or 0 where ModRM.reg extends the opcode. -/
def encodedRegHi (o : VexOp) (reg : Reg) : BitVec 1 := if (vexRow o).ext.isSome then 0 else regHi reg

/-- The ModRM.reg field of an encoding: that of the register, or the /reg value of the row. -/
def encodedRegLo (o : VexOp) (reg : Reg) : BitVec 3 := (vexRow o).ext.getD (regLo reg)

theorem encodedReg_of_ext_none {o : VexOp} (reg : Reg) (h : (vexRow o).ext = none) :
    mkReg (encodedRegHi o reg) (encodedRegLo o reg) = reg := by
  simp [encodedRegHi, encodedRegLo, h]

theorem encodedRegHi_of_wf_m32 {o : VexOp} {reg : Reg} (h : reg.wf .m32 = true) : encodedRegHi o reg = 0 := by
  unfold encodedRegHi
  split
  · rfl
  · exact regHi_of_wf_m32 h

theorem encodeVex_append (o : VexOp) (w : Width) (reg vvvv : Reg) (rm : Operand) (immBytes rest : List Byte) :
    encodeVex o w reg vvvv rm immBytes ++ rest =
      0xC4 :: vexByte1 (encodedRegHi o reg) (encodeOperand rm).x (encodeOperand rm).b (opMapField (vexRow o).map) ::
        vexByte2 (widthBit w) (~~~BitVec.ofFin (w := 4) vvvv) (simdField (vexRow o).pp) :: (vexRow o).opcode ::
        modrmByte (encodeOperand rm).mod (encodedRegLo o reg) (encodeOperand rm).rm ::
        ((encodeOperand rm).tail ++ (immBytes ++ rest)) := by
  rw [← List.append_assoc]
  rfl

/-- Decoding a VEX encoding gives back its operation and operands; where ModRM.reg extends the opcode, the selector that
`vexInstr` does not use is made of the row's field. -/
theorem decodeBytes_encodeVex (o : VexOp) {w : Width} {reg vvvv : Reg} {rm : Operand} {immBytes rest : List Byte}
    {imm : Byte} (hw : w.wf m = true) (hreg : reg.wf m = true) (hvvvv : vvvv.wf m = true) (hrm : rm.wf m = true)
    (hfixed : (vexRow o).vvvvFixed = true → vvvv = 0)
    (himm : takeImm (vexRow o).imm8 (immBytes ++ rest) = some (imm, rest)) :
    decodeBytes m (encodeVex o w reg vvvv rm immBytes ++ rest) =
      .ok (vexInstr o ⟨w, mkReg (encodedRegHi o reg) (encodedRegLo o reg), vvvv, rm, imm⟩, rest) := by
  have hext : m = .m32 → encodedRegHi o reg = 0 ∧ (encodeOperand rm).x = 0 ∧ (encodeOperand rm).b = 0 := by
    rintro rfl
    exact ⟨encodedRegHi_of_wf_m32 hreg, encodeOperand_ext_of_low_regs (operandRegs_wf hrm)⟩
  rw [encodeVex_append]
  refine decodeBytes_eq_ok.mpr (.inl ⟨_, rfl, decodeVex3_eq_ok.mpr ⟨?top, (vexRow o).map, ?map, ?body⟩⟩)
  case top =>
    intro hm
    obtain ⟨hr, hx, -⟩ := hext hm
    rw [hr, hx, top_vexByte1]
  case map => rw [map_vexByte1, opMapOfField_opMapField]
  case body =>
    rw [vexContext_vexBytes hext, simdOfField_simdField]
    refine decodeVexBody_eq_ok.mpr ⟨nofun, o, ?row, ?unused, decodeVexOperands_eq_ok.mpr
      ⟨rm, immBytes ++ rest, imm, decodeOperand_encodeOperand m rm _ _ hrm, himm, ?fields⟩⟩
    case row => rw [reg_modrmByte, encodedRegLo, vexDispatch_vexRow]
    case unused =>
      intro h
      rw [hfixed h]
      rfl
    case fields => rw [vexFields, reg_modrmByte, widthOf_widthBit hw, vvvvReg_not hvvvv]

/-- The forms whose ModRM.reg extends the opcode. -/
theorem decodeBytes_encodeVex_ext (o : VexOp) {w : Width} {vvvv : Reg} {rm : Operand} (rest : List Byte)
    (hfixed : (vexRow o).vvvvFixed = false) (himm : (vexRow o).imm8 = false)
    (h : (w.wf m && vvvv.wf m && rm.wf m) = true) :
    decodeBytes m (encodeVex o w 0 vvvv rm [] ++ rest) =
      .ok (vexInstr o ⟨w, mkReg (encodedRegHi o 0) (encodedRegLo o 0), vvvv, rm, 0⟩, rest) := by
  simp only [Bool.and_eq_true] at h
  obtain ⟨⟨hw, hvvvv⟩, hrm⟩ := h
  exact decodeBytes_encodeVex o hw (reg_zero_wf m) hvvvv hrm (by simp [hfixed]) (by simp [takeImm, himm])

/-- The forms with a ModRM.reg, a vvvv and a ModRM.rm operand. -/
theorem decodeBytes_encodeVex_vvvv (o : VexOp) {w : Width} {reg vvvv : Reg} {rm : Operand} (rest : List Byte)
    (hext : (vexRow o).ext = none) (hfixed : (vexRow o).vvvvFixed = false) (himm : (vexRow o).imm8 = false)
    (h : (w.wf m && reg.wf m && vvvv.wf m && rm.wf m) = true) :
    decodeBytes m (encodeVex o w reg vvvv rm [] ++ rest) = .ok (vexInstr o ⟨w, reg, vvvv, rm, 0⟩, rest) := by
  simp only [Bool.and_eq_true] at h
  obtain ⟨⟨⟨hw, hreg⟩, hvvvv⟩, hrm⟩ := h
  have hdec := decodeBytes_encodeVex o (immBytes := []) (rest := rest) (imm := 0) hw hreg hvvvv hrm (by simp [hfixed])
    (by simp [takeImm, himm])
  rwa [encodedReg_of_ext_none reg hext] at hdec

/-- The forms with an immediate byte, which leave vvvv unused. -/
theorem decodeBytes_encodeVex_imm (o : VexOp) {w : Width} {reg : Reg} {rm : Operand} (imm : Byte) (rest : List Byte)
    (hext : (vexRow o).ext = none) (himm : (vexRow o).imm8 = true)
    (h : (w.wf m && reg.wf m && rm.wf m) = true) :
    decodeBytes m (encodeVex o w reg 0 rm [imm] ++ rest) = .ok (vexInstr o ⟨w, reg, 0, rm, imm⟩, rest) := by
  simp only [Bool.and_eq_true] at h
  obtain ⟨⟨hw, hreg⟩, hrm⟩ := h
  have hdec := decodeBytes_encodeVex o (immBytes := [imm]) (rest := rest) (imm := imm) hw hreg (reg_zero_wf m) hrm
    (fun _ => rfl) (by simp [takeImm, himm])
  rwa [encodedReg_of_ext_none reg hext] at hdec

/-! ### The legacy form -/

theorem encodeLegacy_append (o : LegacyOp) (a : Reg) (b : Operand) (imm : Byte) (rest : List Byte) :
    encodeLegacy o false a b imm ++ rest =
      0x66 :: 0x0F :: 0x3A :: legacyOpcode o :: modrmByte (encodeOperand b).mod (regLo a) (encodeOperand b).rm ::
        ((encodeOperand b).tail ++ imm :: rest) := by
  simp [encodeLegacy]

theorem encodeLegacy_rex_append (o : LegacyOp) (a : Reg) (b : Operand) (imm : Byte) (rest : List Byte) :
    encodeLegacy o true a b imm ++ rest =
      0x66 :: rexByte (regHi a) (encodeOperand b).x (encodeOperand b).b :: 0x0F :: 0x3A :: legacyOpcode o ::
        modrmByte (encodeOperand b).mod (regLo a) (encodeOperand b).rm ::
        ((encodeOperand b).tail ++ imm :: rest) := by
  simp [encodeLegacy, rexByte]

theorem decodeBytes_encodeLegacy (o : LegacyOp) {rex : Bool} {a : Reg} {b : Operand} (imm : Byte) (rest : List Byte)
    (h : legacyWf m rex a b = true) :
    decodeBytes m (encodeLegacy o rex a b imm ++ rest) = .ok (legacyInstr o rex a b imm, rest) := by
  simp only [legacyWf, Bool.and_eq_true] at h
  obtain ⟨⟨ha, hb⟩, hrex⟩ := h
  refine decodeBytes_eq_ok.mpr (.inr ?_)
  cases rex with
  | true =>
    obtain ⟨hcode, hr, hx, hbb⟩ := fields_rexByte (regHi a) (encodeOperand b).x (encodeOperand b).b
    rw [encodeLegacy_rex_append]
    refine ⟨_, rfl, decodeLegacy_eq_ok.mpr (.inl ⟨of_decide_eq_true hrex, hcode, ?_⟩)⟩
    rw [hr, hx, hbb]
    refine decodeEscape_eq_ok.mpr ⟨rfl, rfl, o, b, _, imm, legacyDispatch_legacyOpcode o,
      decodeOperand_encodeOperand m b _ _ hb, rfl, ?_⟩
    rw [reg_modrmByte, mkReg_hi_lo]
  | false =>
    simp only [Bool.false_eq_true, if_false, Bool.and_eq_true] at hrex
    obtain ⟨halow, hblow⟩ := hrex
    obtain ⟨hx, hbb⟩ := encodeOperand_ext_of_low_regs (List.all_eq_true.mp hblow)
    rw [encodeLegacy_append]
    refine ⟨_, rfl, decodeLegacy_eq_ok.mpr (.inr ⟨fun h => absurd h.2 (by decide), ?_⟩)⟩
    have hoperand := decodeOperand_encodeOperand m b (regLo a) (imm :: rest) hb
    rw [hx, hbb] at hoperand
    refine decodeEscape_eq_ok.mpr ⟨rfl, rfl, o, b, _, imm, legacyDispatch_legacyOpcode o, hoperand, rfl, ?_⟩
    rw [reg_modrmByte, ← regHi_of_wf_m32 halow, mkReg_hi_lo]

/-- Settles O2: each instruction is written by `encodeVex`, in one of its three shapes, or by `encodeLegacy`, and each
of them is undone. -/
theorem decodeOfEncode : Obligations.DecodeOfEncode := by
  intro m i rest h
  cases i with
  | blsr | blsmsk | blsi => exact decodeBytes_encodeVex_ext _ rest rfl rfl h
  | andn | bzhi | pext | pdep | mulx | bextr | shlx | sarx | shrx =>
    exact decodeBytes_encodeVex_vvvv _ rest rfl rfl rfl h
  | rorx => exact decodeBytes_encodeVex_imm _ _ rest rfl rfl h
  | vpcmpestrm | vpcmpestri | vpcmpistrm | vpcmpistri =>
    exact decodeBytes_encodeVex_imm _ _ rest rfl rfl (by simpa [w32_wf, Instr.wf] using h)
  | pcmpestrm | pcmpestri | pcmpistrm | pcmpistri => exact decodeBytes_encodeLegacy _ _ rest h

end Sys2Proof.Proofs
end

section
/-! PROOFS about what decoding yields: the bytes it takes and the form of the operands and of the instruction
(30_encoding.md sections 3, 4, 5 and 7). -/

namespace Sys2Proof.Proofs

open Sys2Proof

/-! ### How many bytes a part of the decoder takes -/

/-- A part of the decoder that answers `r` on `bs`: it takes the size of what it answers, and fails only when fewer than
`need` bytes are there. -/
def Takes {α : Type} (need : Nat) (size : α → Nat) (bs : List Byte) (r : Option (α × List Byte)) : Prop :=
  match r with
  | some (a, rest) => bs.length = size a + rest.length
  | none => bs.length < need

theorem takes_takeDisp32 (bs : List Byte) : Takes 4 (fun _ => 4) bs (takeDisp32 bs) := by
  rcases bs with _ | ⟨b0, _ | ⟨b1, _ | ⟨b2, _ | ⟨b3, bs⟩⟩⟩⟩ <;> simp [Takes, takeDisp32]
  omega

theorem takes_takeDisp (mod : BitVec 2) (bs : List Byte) : Takes 4 dispLength bs (takeDisp mod bs) := by
  have h32 := takes_takeDisp32 bs
  unfold takeDisp
  split_ifs
  · exact (Nat.zero_add _).symm
  · cases bs with
    | nil => exact Nat.zero_lt_succ 3
    | cons b bs => exact Nat.add_comm _ _
  · generalize takeDisp32 bs = r at h32 ⊢
    cases r <;> exact h32

/-- The SIB byte and the displacement after it. -/
theorem takes_decodeSib (mod : BitVec 2) (x b : BitVec 1) (sib : Byte) (bs : List Byte) :
    Takes 5 (fun a => operandLength (.mem a)) (sib :: bs) (decodeSib mod x b sib bs) := by
  have h32 := takes_takeDisp32 bs
  have hd := takes_takeDisp mod bs
  unfold decodeSib
  split_ifs
  · generalize takeDisp32 bs = r at h32 ⊢
    cases r <;> simp only [Takes, operandLength, List.length_cons] at h32 ⊢ <;> omega
  · generalize takeDisp mod bs = r at hd ⊢
    cases r <;> simp only [Takes, operandLength, List.length_cons] at hd ⊢ <;> omega

theorem takes_decodeAddr (m : IpMode) (x b : BitVec 1) (mod : BitVec 2) (rm : BitVec 3) (bs : List Byte) :
    Takes 5 (fun a => operandLength (.mem a)) bs (decodeAddr m x b mod rm bs) := by
  have h32 := takes_takeDisp32 bs
  have hd := takes_takeDisp mod bs
  unfold decodeAddr
  split_ifs
  · cases bs with
    | nil => exact Nat.zero_lt_succ 4
    | cons sib bs => exact takes_decodeSib mod x b sib bs
  · generalize takeDisp32 bs = r at h32 ⊢
    cases r with
    | none => exact Nat.lt_succ_of_lt h32
    | some p => cases m <;> exact h32
  · generalize takeDisp mod bs = r at hd ⊢
    cases r with
    | none => exact Nat.lt_succ_of_lt hd
    | some p => exact hd

theorem takes_decodeOperand (m : IpMode) (x b : BitVec 1) (modrm : Byte) (bs : List Byte) :
    Takes 5 operandLength bs (decodeOperand m x b modrm bs) := by
  have ha := takes_decodeAddr m x b (modrm.extractLsb' 6 2) (modrm.extractLsb' 0 3) bs
  unfold decodeOperand
  split_ifs
  · exact (Nat.zero_add _).symm
  · generalize decodeAddr m x b (modrm.extractLsb' 6 2) (modrm.extractLsb' 0 3) bs = r at ha ⊢
    cases r <;> exact ha

theorem takes_takeImm (has : Bool) (bs : List Byte) :
    Takes 1 (fun _ => if has then 1 else 0) bs (takeImm has bs) := by
  cases has with
  | false => exact (Nat.zero_add _).symm
  | true =>
    cases bs with
    | nil => exact Nat.zero_lt_one
    | cons b bs => exact Nat.add_comm _ _

variable {m : IpMode} {x b : BitVec 1} {modrm : Byte} {bs rest : List Byte}

/-- An operand and an immediate take their sizes. -/
theorem length_of_operand_imm {o : Operand} {has : Bool} {imm : Byte} {tail : List Byte}
    (ho : decodeOperand m x b modrm bs = some (o, tail)) (hi : takeImm has tail = some (imm, rest)) :
    bs.length = operandLength o + (if has then 1 else 0) + rest.length := by
  have h1 := takes_decodeOperand m x b modrm bs
  have h2 := takes_takeImm has tail
  rw [ho] at h1
  rw [hi] at h2
  rw [h1, h2, Nat.add_assoc]

theorem dispLength_le (d : Disp) : dispLength d ≤ 4 := by cases d <;> simp [dispLength]

theorem operandLength_le (o : Operand) : operandLength o ≤ 5 := by
  cases o with
  | reg r => exact Nat.zero_le 5
  | mem a =>
    cases a with
    | base b d => exact (dispLength_le d).trans (by decide)
    | sib b i d => exact Nat.add_le_add_left (dispLength_le d) 1
    | sibNoBase i d => exact Nat.le_refl 5
    | ripRel d | abs d => exact Nat.le_succ 4

theorem vexLength_bounds (src : Operand) (imm8 : Bool) : 5 ≤ vexLength src imm8 ∧ vexLength src imm8 ≤ 11 := by
  have hle := operandLength_le src
  unfold vexLength
  split <;> omega

theorem legacyLength_bounds (rex : Bool) (b : Operand) : 5 ≤ legacyLength rex b ∧ legacyLength rex b ≤ 12 := by
  have hle := operandLength_le b
  unfold legacyLength
  split <;> omega

/-- Six bytes are enough for any operand and an immediate (R95). -/
theorem exists_operand_imm (m : IpMode) (x b : BitVec 1) (modrm : Byte) (has : Bool) (h : 6 ≤ bs.length) :
    ∃ o tail imm rest, decodeOperand m x b modrm bs = some (o, tail) ∧ takeImm has tail = some (imm, rest) := by
  have ho := takes_decodeOperand m x b modrm bs
  generalize decodeOperand m x b modrm bs = r at ho ⊢
  cases r with
  | none => exact absurd h (Nat.not_le.mpr (Nat.lt_succ_of_lt ho))
  | some p =>
    have hle := operandLength_le p.1
    have hi := takes_takeImm has p.2
    cases himm : takeImm has p.2 with
    | none =>
      rw [himm] at hi
      simp only [Takes] at ho hi
      omega
    | some q => exact ⟨p.1, p.2, q.1, q.2, rfl, himm⟩

/-! ### The operands that decoding yields -/

/-- The operands that a ModRM byte can lead to, with the extension bits X and B (R82 to R88). -/
inductive OperandDecodes (m : IpMode) (x b : BitVec 1) : Operand → Prop where
  | reg (lo : BitVec 3) : OperandDecodes m x b (.reg (mkReg b lo))
  | base {lo : BitVec 3} {d : Disp} (hlo : lo ≠ 4) (hd : d.wf (mkReg b lo) = true) :
      OperandDecodes m x b (.mem (.base (mkReg b lo) d))
  | sib {lo : BitVec 3} {d : Disp} (s : Byte) (hd : d.wf (mkReg b lo) = true) :
      OperandDecodes m x b (.mem (.sib (mkReg b lo) (decodeIndex x s) d))
  | sibNoBase (s : Byte) (d : BitVec 32) : OperandDecodes m x b (.mem (.sibNoBase (decodeIndex x s) d))
  | ripRel (hm : m = .m64) (d : BitVec 32) : OperandDecodes m x b (.mem (.ripRel d))
  | abs (hm : m = .m32) (d : BitVec 32) : OperandDecodes m x b (.mem (.abs d))

/-- Only mod = 0 leads to no displacement, and with it the base 101 does not occur (R85a, R86, R87). -/
theorem wf_of_takeDisp {mod : BitVec 2} {lo : BitVec 3} {d : Disp} (h : takeDisp mod bs = some (d, rest))
    (hbase : ¬(mod = 0 ∧ lo = 5)) : d.wf (mkReg b lo) = true := by
  cases d with
  | none =>
    have hmod : mod = 0 := by
      unfold takeDisp at h
      split_ifs at h with h0 h1
      · exact h0
      · cases bs <;> simp at h
      · split at h <;> simp at h
    have hlo : lo ≠ 5 := fun he => hbase ⟨hmod, he⟩
    simpa [Disp.wf, low3_mkReg, BitVec.toNat_eq] using hlo
  | d8 | d32 => rfl

theorem operandDecodes_of_decodeSib {mod : BitVec 2} {s : Byte} {a : Addr}
    (h : decodeSib mod x b s bs = some (a, rest)) : OperandDecodes m x b (.mem a) := by
  unfold decodeSib at h
  split_ifs at h with hc
  · split at h
    · cases h
      exact .sibNoBase s _
    · cases h
  · split at h
    · rename_i hd
      cases h
      exact .sib s (wf_of_takeDisp hd hc)
    · cases h

theorem operandDecodes_of_decodeAddr {mod : BitVec 2} {rm : BitVec 3} {a : Addr}
    (h : decodeAddr m x b mod rm bs = some (a, rest)) : OperandDecodes m x b (.mem a) := by
  unfold decodeAddr at h
  split_ifs at h with h4 h5
  · cases bs with
    | nil => cases h
    | cons s bs => exact operandDecodes_of_decodeSib h
  · split at h
    · cases h
      cases m with
      | m64 => exact .ripRel rfl _
      | m32 => exact .abs rfl _
    · cases h
  · split at h
    · rename_i hd
      cases h
      exact .base h4 (wf_of_takeDisp hd h5)
    · cases h

theorem operandDecodes_of_decodeOperand {o : Operand} (h : decodeOperand m x b modrm bs = some (o, rest)) :
    OperandDecodes m x b o := by
  unfold decodeOperand at h
  split_ifs at h
  · cases h
    exact .reg _
  · split at h
    · rename_i ha
      cases h
      exact operandDecodes_of_decodeAddr ha
    · cases h

/-! ### They are well formed -/

theorem mkReg_wf {hi : BitVec 1} (h : m = .m32 → hi = 0) (lo : BitVec 3) : (mkReg hi lo).wf m = true := by
  cases m with
  | m64 => rfl
  | m32 =>
    rw [h rfl]
    exact decide_eq_true (mkReg_zero_lt lo)

theorem decodeIndex_wf (h : m = .m32 → x = 0) (s : Byte) : Index.wfOpt m (decodeIndex x s) = true := by
  unfold decodeIndex
  split_ifs with h4
  · rfl
  · simp [Index.wfOpt, Index.wf, mkReg_wf h, h4]

theorem OperandDecodes.wf {o : Operand} (ho : OperandDecodes m x b o) (hx : m = .m32 → x = 0)
    (hb : m = .m32 → b = 0) : o.wf m = true := by
  cases ho with
  | reg lo => exact mkReg_wf hb lo
  | @base lo d hlo hd =>
    have h4 : (mkReg b lo).low3 ≠ 4 := fun h => hlo (BitVec.eq_of_toNat_eq (low3_mkReg b lo ▸ h))
    simp [Operand.wf, Addr.wf, mkReg_wf hb, h4, hd]
  | @sib lo d s hd => simp [Operand.wf, Addr.wf, mkReg_wf hb, decodeIndex_wf hx, hd]
  | sibNoBase s d => exact decodeIndex_wf hx s
  | ripRel hm d => exact decide_eq_true hm
  | abs hm d => exact decide_eq_true hm

/-- Without extension bits an operand names registers 0 to 7 only, in both modes. -/
theorem OperandDecodes.regs_low {o : Operand} (ho : OperandDecodes m 0 0 o) : ∀ r ∈ o.regs, r.wf .m32 = true := by
  have hlow (lo : BitVec 3) : (mkReg 0 lo).wf .m32 = true := mkReg_wf (fun _ => rfl) lo
  have hindex (s : Byte) := indexRegs_wf (decodeIndex_wf (m := .m32) (x := 0) (fun _ => rfl) s)
  cases ho with
  | reg lo => exact List.forall_mem_singleton.mpr (hlow lo)
  | base => exact List.forall_mem_singleton.mpr (hlow _)
  | sib s => exact List.forall_mem_cons.mpr ⟨hlow _, hindex s⟩
  | sibNoBase s d => exact hindex s
  | ripRel | abs => nofun

/-! ### The instructions that decoding yields -/

theorem vexInstr_wf (o : VexOp) {f : VexFields} (hw : f.w.wf m = true) (hreg : f.reg.wf m = true)
    (hvvvv : f.vvvv.wf m = true) (hrm : f.rm.wf m = true) : (vexInstr o f).wf m = true := by
  cases o <;> simp [vexInstr, Instr.wf, hw, hreg, hvvvv, hrm]

theorem instrLength_vexInstr (o : VexOp) (f : VexFields) :
    instrLength (vexInstr o f) = vexLength f.rm (vexRow o).imm8 := by
  cases o <;> rfl

theorem legacyInstr_wf (o : LegacyOp) {rex : Bool} {a : Reg} {rm : Operand} (imm : Byte) :
    (legacyInstr o rex a rm imm).wf m = legacyWf m rex a rm := by
  cases o <;> rfl

theorem instrLength_legacyInstr (o : LegacyOp) (rex : Bool) (a : Reg) (rm : Operand) (imm : Byte) :
    instrLength (legacyInstr o rex a rm imm) = legacyLength rex rm := by
  cases o <;> rfl

theorem widthOf_wf (m : IpMode) (w : BitVec 1) : (widthOf m w).wf m = true := by
  cases m <;> rfl

theorem extBit_m32 (b : BitVec 1) (h : m = .m32) : extBit m b = 0 := by rw [h, extBit]

variable {i : Instr}

/-- The VEX form: what `vexContext` says of the extension bits makes every selector one of the mode. -/
theorem decodeVex3_wf_length (h : decodeVex3 m bs = .ok (i, rest)) :
    i.wf m = true ∧ 1 + bs.length = instrLength i + rest.length ∧ instrLength i ≤ 11 := by
  obtain ⟨b1, b2, op, modrm, tail, rfl⟩ := shape_of_decodeVex3_eq_ok h
  obtain ⟨-, map, -, hbody⟩ := decodeVex3_eq_ok.mp h
  obtain ⟨-, o, -, -, hoperands⟩ := decodeVexBody_eq_ok.mp hbody
  obtain ⟨rm, tail', imm, ho, hi, rfl⟩ := decodeVexOperands_eq_ok.mp hoperands
  have hlen := length_of_operand_imm ho hi
  have hrm := operandDecodes_of_decodeOperand ho
  rw [instrLength_vexInstr]
  refine ⟨vexInstr_wf o (widthOf_wf m _) (mkReg_wf (extBit_m32 _) _) (mkReg_wf (extBit_m32 _) _)
    (hrm.wf (extBit_m32 _) (extBit_m32 _)), ?_, (vexLength_bounds rm _).2⟩
  simp only [vexFields, vexLength, List.length_cons, hlen]
  omega

theorem decodeEscape_length {rex : Bool} {r : BitVec 1} (h : decodeEscape m rex r x b bs = .ok (i, rest)) :
    bs.length + (if rex then 2 else 1) = instrLength i + rest.length := by
  obtain ⟨e1, e2, op, modrm, tail, rfl⟩ := shape_of_decodeEscape_eq_ok h
  obtain ⟨-, -, o, rm, tail', imm, -, ho, hi, rfl⟩ := decodeEscape_eq_ok.mp h
  have hlen := length_of_operand_imm ho hi
  rw [instrLength_legacyInstr, legacyLength]
  simp only [List.length_cons, hlen, if_true]
  split <;> omega

theorem decodeEscape_wf {rex : Bool} {r : BitVec 1} (h : decodeEscape m rex r x b bs = .ok (i, rest))
    (hrex : if rex then m = .m64 else r = 0 ∧ x = 0 ∧ b = 0) : i.wf m = true := by
  obtain ⟨e1, e2, op, modrm, tail, rfl⟩ := shape_of_decodeEscape_eq_ok h
  obtain ⟨-, -, o, rm, tail', imm, -, ho, hi, rfl⟩ := decodeEscape_eq_ok.mp h
  have hrm := operandDecodes_of_decodeOperand ho
  rw [legacyInstr_wf]
  cases rex with
  | true =>
    obtain rfl : m = .m64 := hrex
    simp [legacyWf, mkReg_wf (m := .m64) (hi := r) nofun, hrm.wf nofun nofun]
  | false =>
    obtain ⟨rfl, rfl, rfl⟩ := hrex
    have hzero (m' : IpMode) := mkReg_wf (m := m') (hi := 0) (fun _ => rfl) (modrm.extractLsb' 3 3)
    simp only [legacyWf, Bool.and_eq_true, Bool.false_eq_true, if_false, List.all_eq_true]
    exact ⟨⟨hzero m, hrm.wf (fun _ => rfl) (fun _ => rfl)⟩, hzero .m32, hrm.regs_low⟩

theorem decodeLegacy_wf_length (h : decodeLegacy m bs = .ok (i, rest)) :
    i.wf m = true ∧ 1 + bs.length = instrLength i + rest.length := by
  cases bs with
  | nil => cases h
  | cons b1 bs =>
    obtain ⟨hm, -, hesc⟩ | ⟨-, hesc⟩ := decodeLegacy_eq_ok.mp h
    · refine ⟨decodeEscape_wf hesc hm, ?_⟩
      rw [← decodeEscape_length hesc, if_pos rfl, List.length_cons]
      omega
    · refine ⟨decodeEscape_wf hesc ⟨rfl, rfl, rfl⟩, ?_⟩
      rw [← decodeEscape_length hesc, if_neg nofun, Nat.add_comm]

/-- Settles O3: the VEX form and the legacy form each yield a well-formed instruction and take its length. -/
theorem decodedIsWellFormed : Obligations.DecodedIsWellFormed := by
  intro m bs rest i h
  obtain ⟨tail, rfl, hvex⟩ | ⟨tail, rfl, hlegacy⟩ := decodeBytes_eq_ok.mp h
  · obtain ⟨hwf, hlen, -⟩ := decodeVex3_wf_length hvex
    exact ⟨hwf, (Nat.add_comm _ _).trans hlen⟩
  · obtain ⟨hwf, hlen⟩ := decodeLegacy_wf_length hlegacy
    exact ⟨hwf, (Nat.add_comm _ _).trans hlen⟩

end Sys2Proof.Proofs
end

section
/-! PROOFS about which windows hold an instruction, its length, and decoding in M32 (30_encoding.md sections 1 to 8). -/

namespace Sys2Proof.Proofs

open Sys2Proof

variable {m : IpMode} {i : Instr} {bs : List Byte}

/-! ### The words of the opcode table -/

/-- Settles O1, by running the decoder on each word. -/
theorem specWordsDecode : Obligations.SpecWordsDecode := by
  unfold Obligations.SpecWordsDecode
  decide

/-! ### Lengths -/

/-- Every term has a length of 5 to 12 bytes, decoded or not (R96). -/
theorem instrLength_bounds (i : Instr) : 5 ≤ instrLength i ∧ instrLength i ≤ 12 := by
  have hvex (src : Operand) (imm8 : Bool) : 5 ≤ vexLength src imm8 ∧ vexLength src imm8 ≤ 12 :=
    ⟨(vexLength_bounds src imm8).1, (vexLength_bounds src imm8).2.trans (Nat.le_succ 11)⟩
  cases i with
  | pcmpestrm rex _ b | pcmpestri rex _ b | pcmpistrm rex _ b | pcmpistri rex _ b => exact legacyLength_bounds rex b
  | _ => exact hvex _ _

/-! ### Fifteen bytes are enough -/

theorem decodeVexBody_ne_truncated (m : IpMode) (p : PrefixContext) (h : 8 ≤ bs.length) :
    decodeVexBody m p bs ≠ .error .truncated := by
  rcases bs with _ | ⟨op, _ | ⟨modrm, tail⟩⟩
  · simp at h
  · simp at h
  · rw [decodeVexBody]
    split_ifs
    · nofun
    · cases hrow : vexDispatch p.map p.pp op (modrm.extractLsb' 3 3) with
      | none => nofun
      | some o =>
        obtain ⟨rm, tail', imm, rest, ho, hi⟩ :=
          exists_operand_imm m p.x p.b modrm (vexRow o).imm8 (bs := tail) (by simpa using h)
        simp only
        split_ifs
        · nofun
        · rw [decodeVexOperands_eq_ok.mpr ⟨rm, tail', imm, ho, hi, rfl⟩]
          nofun

theorem decodeEscape_ne_truncated (m : IpMode) (rex : Bool) (r x b : BitVec 1) (h : 10 ≤ bs.length) :
    decodeEscape m rex r x b bs ≠ .error .truncated := by
  rcases bs with _ | ⟨e1, _ | ⟨e2, _ | ⟨op, _ | ⟨modrm, tail⟩⟩⟩⟩
  · simp at h
  · simp at h
  · simp at h
  · simp at h
  · rw [decodeEscape]
    split_ifs
    · nofun
    · cases hop : legacyDispatch op with
      | none => nofun
      | some o =>
        obtain ⟨rm, tail', imm, rest, ho, hi⟩ :=
          exists_operand_imm m x b modrm true (bs := tail) (by simpa using h)
        simp only [ho, hi]
        nofun

/-- Twelve bytes decide, so fifteen do (R96). -/
theorem decodeBytes_ne_truncated (m : IpMode) (h : 12 ≤ bs.length) : decodeBytes m bs ≠ .error .truncated := by
  rcases bs with _ | ⟨b0, _ | ⟨b1, _ | ⟨b2, tail⟩⟩⟩
  · simp at h
  · simp at h
  · simp at h
  · have htail : 9 ≤ tail.length := by simpa using h
    rw [decodeBytes]
    split_ifs
    · rw [decodeVex3]
      split_ifs
      · nofun
      · cases opMapOfField (b1.extractLsb' 0 5) with
        | none => nofun
        | some map => exact decodeVexBody_ne_truncated m _ (by omega)
    · rw [decodeVex2]
      split_ifs
      · nofun
      · exact decodeVexBody_ne_truncated m _ (by simp; omega)
    · rw [decodeLegacy]
      split_ifs
      · exact decodeEscape_ne_truncated m _ _ _ _ (by simp; omega)
      · exact decodeEscape_ne_truncated m _ _ _ _ (by simp; omega)
    · nofun

/-- Settles O4: the bounds of all terms by `instrLength_bounds`, the smaller one of the C4 form by
`decodeVex3_wf_length`, and that a window decides by `decodeBytes_ne_truncated`. -/
theorem lengthBounds : Obligations.LengthBounds := by
  refine ⟨fun m bs i h => ⟨(instrLength_bounds i).1, (instrLength_bounds i).2, fun hc4 => ?vex⟩,
    fun _ _ _ _ => rfl, fun _ _ _ _ _ => rfl, fun m bs hlen h => ?window⟩
  case vex =>
    obtain ⟨rest, hbytes⟩ := decode_eq_ok.mp h
    obtain ⟨tail, rfl, hvex⟩ | ⟨tail, rfl, -⟩ := decodeBytes_eq_ok.mp hbytes
    · exact (decodeVex3_wf_length hvex).2.2
    · simp at hc4
  case window =>
    refine decodeBytes_ne_truncated m (bs := bs) (by omega) ?_
    unfold decode at h
    split at h
    · cases h
    · rename_i hd
      cases h
      exact hd

/-! ### The admitted windows -/

theorem extractLsb'_eq_iff {n : Nat} (b : Byte) (start : Nat) (f : BitVec n) :
    b.extractLsb' start n = f ↔ b.toNat / 2 ^ start % 2 ^ n = f.toNat := by
  rw [BitVec.toNat_eq, BitVec.extractLsb'_toNat, Nat.shiftRight_eq_div_pow]

/-- The tuples of map 0F-38 (R91). -/
theorem exists_vexDispatch_map0F38 {pp : Simd} {op : Byte} {reg : BitVec 3} :
    (∃ o, vexDispatch .map0F38 pp op reg = some o) ↔
      (pp = .none ∧ op = 0xF3 ∧ (reg = 1 ∨ reg = 2 ∨ reg = 3)) ∨
      (pp = .none ∧ (op = 0xF2 ∨ op = 0xF5 ∨ op = 0xF7)) ∨ (pp = .p66 ∧ op = 0xF7) ∨
      (pp = .pF3 ∧ (op = 0xF5 ∨ op = 0xF7)) ∨ (pp = .pF2 ∧ (op = 0xF5 ∨ op = 0xF6 ∨ op = 0xF7)) := by
  rw [← Option.isSome_iff_exists, vexDispatch, List.find?_isSome]
  simp only [vexOps, vexRowMatches, vexRow, List.mem_cons, List.not_mem_nil, or_false, exists_eq_or_imp, exists_eq_left]
  cases pp with
  | none =>
    simp only [eq_comm (b := op), eq_comm (b := reg)]
    simp
    tauto
  | p66 | pF3 | pF2 => simp [eq_comm (b := op)]

/-- The four compare opcodes are the bytes 60 to 63. -/
theorem compareOpcode_iff (op : Byte) :
    (op = 0x60 ∨ op = 0x61 ∨ op = 0x62 ∨ op = 0x63) ↔ (0x60 ≤ op.toNat ∧ op.toNat ≤ 0x63) := by
  revert op
  decide

/-- The tuples of map 0F-3A (R91, R93). -/
theorem exists_vexDispatch_map0F3A {pp : Simd} {op : Byte} {reg : BitVec 3} :
    (∃ o, vexDispatch .map0F3A pp op reg = some o) ↔
      (pp = .pF2 ∧ op = 0xF0) ∨ (pp = .p66 ∧ 0x60 ≤ op.toNat ∧ op.toNat ≤ 0x63) := by
  rw [← Option.isSome_iff_exists, vexDispatch, List.find?_isSome, ← compareOpcode_iff]
  simp only [vexOps, vexRowMatches, vexRow, List.mem_cons, List.not_mem_nil, or_false, exists_eq_or_imp, exists_eq_left]
  cases pp <;> simp [eq_comm (b := op)]

theorem exists_legacyDispatch {op : Byte} :
    (∃ o, legacyDispatch op = some o) ↔ (0x60 ≤ op.toNat ∧ op.toNat ≤ 0x63) := by
  rw [← Option.isSome_iff_exists, legacyDispatch, List.find?_isSome, ← compareOpcode_iff]
  simp [legacyOpcode, eq_comm (b := op)]

/-- A tuple selects a row of its own map, and only the rows of map 0F-3A leave vvvv unused (R78). -/
theorem vvvvFixed_of_vexDispatch {map : OpMap} {pp : Simd} {op : Byte} {reg : BitVec 3} {o : VexOp}
    (h : vexDispatch map pp op reg = some o) : (vexRow o).vvvvFixed = true ↔ map = .map0F3A := by
  have hmatch : vexRowMatches (vexRow o) map pp op reg = true :=
    List.find?_some (p := fun o => vexRowMatches (vexRow o) map pp op reg) h
  simp only [vexRowMatches, Bool.and_eq_true, decide_eq_true_eq] at hmatch
  obtain ⟨⟨⟨rfl, -⟩, -⟩, -⟩ := hmatch
  cases o <;> simp [vexRow]

theorem exists_decodeVexBody {p : PrefixContext} {op modrm : Byte} (h : 6 ≤ bs.length) :
    (∃ i rest, decodeVexBody m p (op :: modrm :: bs) = .ok (i, rest)) ↔
      p.l ≠ 1 ∧ (∃ o, vexDispatch p.map p.pp op (modrm.extractLsb' 3 3) = some o) ∧
        (p.map = .map0F3A → p.raw = 15) := by
  simp only [decodeVexBody_eq_ok]
  constructor
  · rintro ⟨i, rest, hl, o, hrow, hunused, -⟩
    exact ⟨hl, ⟨o, hrow⟩, fun hmap => hunused ((vvvvFixed_of_vexDispatch hrow).mpr hmap)⟩
  · rintro ⟨hl, ⟨o, hrow⟩, hunused⟩
    obtain ⟨rm, tail, imm, rest, ho, hi⟩ := exists_operand_imm m p.x p.b modrm (vexRow o).imm8 h
    exact ⟨_, rest, hl, o, hrow, fun hfixed => hunused ((vvvvFixed_of_vexDispatch hrow).mp hfixed),
      decodeVexOperands_eq_ok.mpr ⟨rm, tail, imm, ho, hi, rfl⟩⟩

theorem exists_decodeEscape {rex : Bool} {r x b : BitVec 1} {e1 e2 op modrm : Byte} (h : 6 ≤ bs.length) :
    (∃ i rest, decodeEscape m rex r x b (e1 :: e2 :: op :: modrm :: bs) = .ok (i, rest)) ↔
      e1 = 0x0F ∧ e2 = 0x3A ∧ 0x60 ≤ op.toNat ∧ op.toNat ≤ 0x63 := by
  simp only [decodeEscape_eq_ok, ← exists_legacyDispatch]
  constructor
  · rintro ⟨i, rest, h1, h2, o, rm, tail, imm, hop, -⟩
    exact ⟨h1, h2, o, hop⟩
  · rintro ⟨h1, h2, o, hop⟩
    obtain ⟨rm, tail, imm, rest, ho, hi⟩ := exists_operand_imm m x b modrm true h
    exact ⟨_, rest, h1, h2, o, rm, tail, imm, hop, ho, hi, rfl⟩

/-! ### The fields of the C4 bytes as numbers -/

theorem opMapOfField_eq_some {f : BitVec 5} {map : OpMap} : opMapOfField f = some map ↔ f = opMapField map := by
  cases map <;> revert f <;> decide

theorem simdOfField_eq {f : BitVec 2} {pp : Simd} : simdOfField f = pp ↔ f = simdField pp := by
  cases pp <;> revert f <;> decide

theorem byte1_fields_iff (w1 : Byte) :
    (w1.extractLsb' 6 2 = 3 ↔ w1.toNat / 64 = 3) ∧ (w1.extractLsb' 0 5 = 2 ↔ w1.toNat % 32 = 2) ∧
      (w1.extractLsb' 0 5 = 3 ↔ w1.toNat % 32 = 3) := by
  have hlt := w1.isLt
  simp only [extractLsb'_eq_iff]
  refine ⟨?_, ?_, ?_⟩
  · simp
    omega
  · simp
  · simp

theorem byte2_fields_iff (w2 : Byte) :
    (w2.extractLsb' 2 1 ≠ 1 ↔ w2.toNat / 4 % 2 = 0) ∧ (w2.extractLsb' 3 4 = 15 ↔ w2.toNat / 8 % 16 = 15) ∧
      ∀ pp, (simdOfField (w2.extractLsb' 0 2) = pp ↔ w2.toNat % 4 = (simdField pp).toNat) := by
  simp only [simdOfField_eq, ne_eq, extractLsb'_eq_iff]
  refine ⟨?_, ?_, fun pp => ?_⟩
  · simp
  · simp
  · simp

theorem extReg_iff (w4 : Byte) :
    (w4.extractLsb' 3 3 = 1 ∨ w4.extractLsb' 3 3 = 2 ∨ w4.extractLsb' 3 3 = 3) ↔
      (1 ≤ w4.toNat / 8 % 8 ∧ w4.toNat / 8 % 8 ≤ 3) := by
  simp only [extractLsb'_eq_iff]
  simp
  omega

/-- A C4 form with enough bytes after ModRM decodes exactly when its fields select a row. -/
theorem exists_decodeVex3 {w1 w2 w3 w4 : Byte} (h : 6 ≤ bs.length) :
    (∃ i rest, decodeVex3 m (w1 :: w2 :: w3 :: w4 :: bs) = .ok (i, rest)) ↔
      (m = .m32 → w1.extractLsb' 6 2 = 3) ∧ w2.extractLsb' 2 1 ≠ 1 ∧
        ((w1.extractLsb' 0 5 = 2 ∧
          ∃ o, vexDispatch .map0F38 (simdOfField (w2.extractLsb' 0 2)) w3 (w4.extractLsb' 3 3) = some o) ∨
        (w1.extractLsb' 0 5 = 3 ∧ w2.extractLsb' 3 4 = 15 ∧
          ∃ o, vexDispatch .map0F3A (simdOfField (w2.extractLsb' 0 2)) w3 (w4.extractLsb' 3 3) = some o)) := by
  simp only [decodeVex3_eq_ok]
  constructor
  · rintro ⟨i, rest, htop, map, hmap, hbody⟩
    obtain ⟨hl, ⟨o, hrow⟩, hunused⟩ := (exists_decodeVexBody h).mp ⟨i, rest, hbody⟩
    refine ⟨htop, hl, ?_⟩
    cases map with
    | map0F => exact absurd hrow (by simp [vexContext, vexDispatch_map0F])
    | map0F38 => exact .inl ⟨opMapOfField_eq_some.mp hmap, o, hrow⟩
    | map0F3A => exact .inr ⟨opMapOfField_eq_some.mp hmap, hunused rfl, o, hrow⟩
  · rintro ⟨htop, hl, ⟨hmap, hrow⟩ | ⟨hmap, hunused, hrow⟩⟩
    · obtain ⟨i, rest, hbody⟩ := (exists_decodeVexBody (m := m) (p := vexContext m w1 w2 .map0F38) h).mpr
        ⟨hl, hrow, nofun⟩
      exact ⟨i, rest, htop, .map0F38, opMapOfField_eq_some.mpr hmap, hbody⟩
    · obtain ⟨i, rest, hbody⟩ := (exists_decodeVexBody (m := m) (p := vexContext m w1 w2 .map0F3A) h).mpr
        ⟨hl, hrow, fun _ => hunused⟩
      exact ⟨i, rest, htop, .map0F3A, opMapOfField_eq_some.mpr hmap, hbody⟩

/-- The legacy form, without and with a REX byte; one that begins with 0F is none. -/
theorem exists_decodeLegacy {w1 w2 w3 w4 : Byte} (h : 7 ≤ bs.length) :
    (∃ i rest, decodeLegacy m (w1 :: w2 :: w3 :: w4 :: bs) = .ok (i, rest)) ↔
      (w1 = 0x0F ∧ w2 = 0x3A ∧ 0x60 ≤ w3.toNat ∧ w3.toNat ≤ 0x63) ∨
      (m = .m64 ∧ w1.toNat / 16 = 4 ∧ w2 = 0x0F ∧ w3 = 0x3A ∧ 0x60 ≤ w4.toNat ∧ w4.toNat ≤ 0x63) := by
  rcases bs with _ | ⟨w5, tail⟩
  · simp at h
  have hcode : w1.extractLsb' 4 4 = 4 ↔ w1.toNat / 16 = 4 := by
    have hlt := w1.isLt
    rw [extractLsb'_eq_iff]
    simp
    omega
  have hrex := exists_decodeEscape (m := m) (rex := true) (r := w1.extractLsb' 2 1) (x := w1.extractLsb' 1 1)
    (b := w1.extractLsb' 0 1) (e1 := w2) (e2 := w3) (op := w4) (modrm := w5) (bs := tail) (by simpa using h)
  have hplain := exists_decodeEscape (m := m) (rex := false) (r := 0) (x := 0) (b := 0) (e1 := w1) (e2 := w2)
    (op := w3) (modrm := w4) (bs := w5 :: tail) (by omega)
  simp only [decodeLegacy_eq_ok, exists_or, exists_and_left, hrex, hplain, hcode]
  constructor
  · rintro (h | h)
    · exact .inr h
    · exact .inl h.2
  · rintro (h | h)
    · exact .inr ⟨fun hm => absurd hm.2 (by simp [h.1]), h⟩
    · exact .inl h

/-- Settles O5: a window begins with C4 and goes on as `exists_decodeVex3` says, or with 66 and as `exists_decodeLegacy`
says; the fields as numbers are those of the table. -/
theorem admittedExactly : Obligations.AdmittedExactly := by
  intro m w0 w1 w2 w3 w4 rest hlen
  obtain ⟨htop, h38, h3A⟩ := byte1_fields_iff w1
  obtain ⟨hl, hraw, hpp⟩ := byte2_fields_iff w2
  have hwindow : (∃ i, decode m (w0 :: w1 :: w2 :: w3 :: w4 :: rest) = .ok i) ↔
      (w0 = 0xC4 ∧ ∃ i tail, decodeVex3 m (w1 :: w2 :: w3 :: w4 :: rest) = .ok (i, tail)) ∨
      (w0 = 0x66 ∧ ∃ i tail, decodeLegacy m (w1 :: w2 :: w3 :: w4 :: rest) = .ok (i, tail)) := by
    simp only [decode_eq_ok, decodeBytes_eq_ok, List.cons.injEq, and_assoc, exists_and_left, exists_eq_left', exists_or]
  rw [hwindow, exists_decodeVex3 (by omega), exists_decodeLegacy (by omega), exists_vexDispatch_map0F38,
    exists_vexDispatch_map0F3A, htop, h38, h3A, hl, hraw, extReg_iff]
  simp only [hpp, and_or_left]
  rfl

/-! ### M32 -/

theorem decode_c4_congr {bs' : List Byte} (h : decodeVex3 m bs = decodeVex3 m bs') :
    decode m (0xC4 :: bs) = decode m (0xC4 :: bs') := by
  simp [decode, decodeBytes, h]

theorem decode_c4_eq_ok : decode m (0xC4 :: bs) = .ok i ↔ ∃ rest, decodeVex3 m bs = .ok (i, rest) := by
  simp [decode_eq_ok, decodeBytes_eq_ok]

theorem decode_66_eq_ok : decode m (0x66 :: bs) = .ok i ↔ ∃ rest, decodeLegacy m bs = .ok (i, rest) := by
  simp [decode_eq_ok, decodeBytes_eq_ok]

theorem decode_c5_ne_ok (bs : List Byte) : decode m (0xC5 :: bs) ≠ .ok i := by
  simp [decode_eq_ok, decodeBytes_eq_ok]

/-- In M32 byte 1 counts by its top bits and its map field only (R76b). -/
theorem decodeVex3_m32_byte1 {b1 b1' : Byte} (htop : b1'.extractLsb' 6 2 = b1.extractLsb' 6 2)
    (hmap : b1'.extractLsb' 0 5 = b1.extractLsb' 0 5) (bs : List Byte) :
    decodeVex3 .m32 (b1' :: bs) = decodeVex3 .m32 (b1 :: bs) := by
  cases bs with
  | nil => rfl
  | cons b2 bs => simp only [decodeVex3, htop, hmap, extBit]

/-- In map 0F-38 the raw vvvv field counts by the register it names only. -/
theorem decodeVexBody_raw {p : PrefixContext} {raw : BitVec 4} (hmap : p.map = .map0F38)
    (hv : vvvvReg m raw = vvvvReg m p.raw) (bs : List Byte) :
    decodeVexBody m { p with raw := raw } bs = decodeVexBody m p bs := by
  rcases bs with _ | ⟨op, _ | ⟨modrm, tail⟩⟩
  · rfl
  · rfl
  · simp only [decodeVexBody]
    cases hrow : vexDispatch p.map p.pp op (modrm.extractLsb' 3 3) with
    | none => rfl
    | some o =>
      have hused : (vexRow o).vvvvFixed = false := by
        rw [Bool.eq_false_iff, Ne, vvvvFixed_of_vexDispatch hrow, hmap]
        nofun
      simp only [hused, Bool.false_eq_true, false_and, if_false, decodeVexOperands, hv]

theorem fields_byte2_xor_bit6 (b2 : Byte) :
    (b2 ^^^ 0x40).extractLsb' 7 1 = b2.extractLsb' 7 1 ∧ (b2 ^^^ 0x40).extractLsb' 0 2 = b2.extractLsb' 0 2 ∧
      (b2 ^^^ 0x40).extractLsb' 2 1 = b2.extractLsb' 2 1 ∧
      vvvvReg .m32 ((b2 ^^^ 0x40).extractLsb' 3 4) = vvvvReg .m32 (b2.extractLsb' 3 4) := by
  revert b2
  decide

theorem fields_byte1_xor_bit5 (b1 : Byte) :
    (b1 ^^^ 0x20).extractLsb' 6 2 = b1.extractLsb' 6 2 ∧ (b1 ^^^ 0x20).extractLsb' 0 5 = b1.extractLsb' 0 5 := by
  revert b1
  decide

/-- In M32 bit 6 of byte 2, bit 3 of vvvv, does not count in map 0F-38 (R76c). -/
theorem decodeVex3_m32_byte2 {b1 : Byte} (hmap : b1.extractLsb' 0 5 = 2) (b2 : Byte) (bs : List Byte) :
    decodeVex3 .m32 (b1 :: (b2 ^^^ 0x40) :: bs) = decodeVex3 .m32 (b1 :: b2 :: bs) := by
  have hfield : opMapOfField (b1.extractLsb' 0 5) = some .map0F38 := opMapOfField_eq_some.mpr hmap
  obtain ⟨hw, hpp, hl, hv⟩ := fields_byte2_xor_bit6 b2
  have hbody := decodeVexBody_raw (p := vexContext .m32 b1 b2 .map0F38) rfl hv bs
  simp only [vexContext] at hbody
  simp only [decodeVex3, hfield, hw, hpp, hl, hbody]

/-- Settles O7: (a) the top bits of byte 1 are asked for, and C5 leads nowhere; (b) and (c) the bits that do not count;
(d) a byte 40 to 4F is not the escape byte 0F; (e) by O3. -/
theorem mode32Decoding : Obligations.Mode32Decoding := by
  refine ⟨fun b1 bs hne => ⟨fun i h => ?top, fun i => decode_c5_ne_ok _⟩, fun b1 bs _ => ?bBit,
    fun b1 b2 bs hmap => ?vvvv, fun b1 bs i hcode h => ?rex, fun bs i h => ?wf⟩
  case top =>
    obtain ⟨rest, hvex⟩ := decode_c4_eq_ok.mp h
    obtain ⟨b1', b2, op, modrm, tail, heq⟩ := shape_of_decodeVex3_eq_ok hvex
    cases heq
    exact hne ((byte1_fields_iff b1).1.mp ((decodeVex3_eq_ok.mp hvex).1 rfl))
  case bBit =>
    obtain ⟨htop, hmap⟩ := fields_byte1_xor_bit5 b1
    exact decode_c4_congr (decodeVex3_m32_byte1 htop hmap bs)
  case vvvv => exact decode_c4_congr (decodeVex3_m32_byte2 ((byte1_fields_iff b1).2.1.mpr hmap) b2 bs)
  case rex =>
    obtain ⟨rest, hlegacy⟩ := decode_66_eq_ok.mp h
    obtain ⟨hm, -⟩ | ⟨-, hesc⟩ := decodeLegacy_eq_ok.mp hlegacy
    · cases hm
    · obtain ⟨e1, e2, op, modrm, tail, heq⟩ := shape_of_decodeEscape_eq_ok hesc
      cases heq
      rw [(decodeEscape_eq_ok.mp hesc).1] at hcode
      exact absurd hcode (by decide)
  case wf =>
    obtain ⟨rest, hbytes⟩ := decode_eq_ok.mp h
    exact (decodedIsWellFormed _ _ _ _ hbytes).1

/-! ### The invocation on such a window -/

/-- The outcome of an invocation whose window holds no instruction. -/
theorem emulate_of_decode_ne_ok {s : Machine.State} (h : ∀ i, decode s.mode s.win.toList ≠ .ok i) :
    Machine.emulate s = .refused .unrecognized := by
  unfold Machine.emulate
  cases hd : decode s.mode s.win.toList with
  | error e => rfl
  | ok i => exact absurd hd (h i)

/-- Settles O6: no window that begins with C5 decodes. -/
theorem twoByteVexUnrecognized : Obligations.TwoByteVexUnrecognized := by
  intro s h
  refine emulate_of_decode_ne_ok fun i => ?_
  cases hwin : s.win.toList with
  | nil => simpa [hwin] using s.win.length_toList
  | cons w tail =>
    obtain rfl : w = 0xC5 := by simpa [← Vector.getElem_toList, hwin] using h
    exact decode_c5_ne_ok tail

end Sys2Proof.Proofs
end

section
/-! PROOFS about what an instruction commits: every instruction fetches its operand and then makes one of six kinds of
change to the state (10_state.md sections 1 to 5, 40_bmi.md, 45_pcmpstr.md R182, R185). -/

namespace Sys2Proof.Proofs

open Sys2Proof Sys2Proof.Machine Sys2Proof.Safety

/-- What an instruction commits once its operand is fetched. -/
inductive Commit where
  /-- One register and the arithmetic flags of the BMI group. -/
  | flagged (w : Width) (d : Reg) (v : BitVec w.bits) (cf zf : Bool)
  /-- One register. -/
  | written (w : Width) (d : Reg) (v : BitVec w.bits)
  /-- The two halves of a product, the high one last. -/
  | product (w : Width) (dhi dlo : Reg) (hi lo : BitVec w.bits)
  /-- rCX and the flags of the compares. -/
  | index (c : PcmpControl) (la lb : Nat) (r : BitVec c.count)
  /-- xmm[0] and the flags of the compares. -/
  | mask (c : PcmpControl) (la lb : Nat) (r : BitVec c.count)
  /-- The same, and the half above xmm[0]. -/
  | vexMask (c : PcmpControl) (la lb : Nat) (r : BitVec c.count)

/-- The state after the commit. -/
def Commit.apply (k : Commit) (s : State) : State :=
  match k with
  | .flagged w d v cf zf => commitBmi w d v cf zf s
  | .written w d v => writeReg w d v s
  | .product w dhi dlo hi lo => writeReg w dhi hi (writeReg w dlo lo s)
  | .index c la lb r => commitIndex c la lb r s
  | .mask c la lb r => commitMask c la lb r s
  | .vexMask c la lb r => vexUpper (commitMask c la lb r s)

/-- The commit of a compare with explicit lengths, of the kind `form`, on the operands `a` and `b`. -/
def explicitCommit (form : ∀ c : PcmpControl, Nat → Nat → BitVec c.count → Commit) (imm : Byte) (s : State) (a : Reg)
    (b : Vec) : Commit :=
  let c := pcmpControl imm
  let la := explicitLength c Reg.rax s
  let lb := explicitLength c Reg.rdx s
  form c la lb (pcmpIntRes2 c (readXmm a s) b la lb)

/-- The commit of a compare with implicit lengths. -/
def implicitCommit (form : ∀ c : PcmpControl, Nat → Nat → BitVec c.count → Commit) (imm : Byte) (s : State) (a : Reg)
    (b : Vec) : Commit :=
  let c := pcmpControl imm
  let la := implicitLength c (readXmm a s)
  let lb := implicitLength c b
  form c la lb (pcmpIntRes2 c (readXmm a s) b la lb)

/-- The fetched operand, and from it what the instruction commits. -/
def commitOf (i : Instr) (s : State) : Except Fault Commit :=
  match i with
  | .blsr w d src => (readOperand w (vexLength src false) src s).map fun a =>
      .flagged w d (blsrValue a) (a == 0) (blsrValue a == 0)
  | .blsmsk w d src => (readOperand w (vexLength src false) src s).map fun a =>
      .flagged w d (blsmskValue a) (a == 0) false
  | .blsi w d src => (readOperand w (vexLength src false) src s).map fun a =>
      .flagged w d (blsiValue a) (a != 0) (blsiValue a == 0)
  | .andn w d v src => (readOperand w (vexLength src false) src s).map fun a =>
      .flagged w d (andnValue (readReg w v s) a) false (andnValue (readReg w v s) a == 0)
  | .bzhi w d src v => (readOperand w (vexLength src false) src s).map fun a =>
      .flagged w d (bzhiValue a (readReg w v s)) (decide (w.bits - 1 < bzhiIndex (readReg w v s)))
        (bzhiValue a (readReg w v s) == 0)
  | .pext w d v src => (readOperand w (vexLength src false) src s).map fun a =>
      .written w d (pextValue (readReg w v s) a)
  | .pdep w d v src => (readOperand w (vexLength src false) src s).map fun a =>
      .written w d (pdepValue (readReg w v s) a)
  | .mulx w dhi dlo src => (readOperand w (vexLength src false) src s).map fun a =>
      .product w dhi dlo (mulxHigh a (readReg w Reg.rdx s)) (mulxLow a (readReg w Reg.rdx s))
  | .bextr w d src v => (readOperand w (vexLength src false) src s).map fun a =>
      .flagged w d (bextrValue a (readReg w v s)) false (bextrValue a (readReg w v s) == 0)
  | .shlx w d src v => (readOperand w (vexLength src false) src s).map fun a =>
      .written w d (shlxValue a (readReg w v s))
  | .sarx w d src v => (readOperand w (vexLength src false) src s).map fun a =>
      .written w d (sarxValue a (readReg w v s))
  | .shrx w d src v => (readOperand w (vexLength src false) src s).map fun a =>
      .written w d (shrxValue a (readReg w v s))
  | .rorx w d src imm => (readOperand w (vexLength src true) src s).map fun a => .written w d (rorxValue a imm)
  | .pcmpestrm rex a b imm => (readVecOperand (legacyLength rex b) b s).map (explicitCommit .mask imm s a)
  | .pcmpestri rex a b imm => (readVecOperand (legacyLength rex b) b s).map (explicitCommit .index imm s a)
  | .pcmpistrm rex a b imm => (readVecOperand (legacyLength rex b) b s).map (implicitCommit .mask imm s a)
  | .pcmpistri rex a b imm => (readVecOperand (legacyLength rex b) b s).map (implicitCommit .index imm s a)
  | .vpcmpestrm a b imm => (readVecOperand (vexLength b true) b s).map (explicitCommit .vexMask imm s a)
  | .vpcmpestri a b imm => (readVecOperand (vexLength b true) b s).map (explicitCommit .index imm s a)
  | .vpcmpistrm a b imm => (readVecOperand (vexLength b true) b s).map (implicitCommit .vexMask imm s a)
  | .vpcmpistri a b imm => (readVecOperand (vexLength b true) b s).map (implicitCommit .index imm s a)

theorem withOperand_map {α β : Type} (e : Except Fault α) (f : α → β) (k : β → State) :
    withOperand (e.map f) k = withOperand e fun a => k (f a) := by
  cases e <;> rfl

/-- One register for both halves keeps the high one, written last. -/
theorem writeReg_writeReg_same (w : Width) (d : Reg) (v v' : BitVec w.bits) (s : State) :
    writeReg w d v (writeReg w d v' s) = writeReg w d v s := by
  simp [writeReg]

/-- Every meaning is the commit that `commitOf` names. -/
theorem exec_eq_commit (i : Instr) (s : State) : exec i s = withOperand (commitOf i s) (·.apply s) := by
  cases i with
  | mulx w dhi dlo src =>
    rw [commitOf, withOperand_map]
    refine congrArg (withOperand _) (funext fun a => ?_)
    simp only [Commit.apply]
    split
    next h =>
      subst h
      exact (writeReg_writeReg_same ..).symm
    next => rfl
  | _ =>
    rw [commitOf, withOperand_map]
    rfl

theorem exec_eq_next {i : Instr} {s t : State} : exec i s = .next t ↔ ∃ k, commitOf i s = .ok k ∧ t = k.apply s := by
  rw [exec_eq_commit, withOperand_eq_next]

/-! ### The tables of an instruction, read off its commit -/

/-- The general registers a commit writes. -/
def Commit.dests (k : Commit) : List Reg :=
  match k with
  | .flagged _ d _ _ _ => [d]
  | .written _ d _ => [d]
  | .product _ dhi dlo _ _ => [dhi, dlo]
  | .index _ _ _ _ => [Reg.rcx]
  | .mask _ _ _ _ => []
  | .vexMask _ _ _ _ => []

/-- The flag group of a commit. -/
def Commit.group (k : Commit) : FlagGroup :=
  match k with
  | .flagged _ _ _ _ _ => .bmi
  | .written _ _ _ => .unchanged
  | .product _ _ _ _ _ => .unchanged
  | .index _ _ _ _ => .pcmp
  | .mask _ _ _ _ => .pcmp
  | .vexMask _ _ _ _ => .pcmp

/-- Does a commit write its general registers at width 32? -/
def Commit.narrow (k : Commit) : Bool :=
  match k with
  | .flagged w _ _ _ _ => w == .w32
  | .written w _ _ => w == .w32
  | .product w _ _ _ _ => w == .w32
  | .index _ _ _ _ => true
  | .mask _ _ _ _ => true
  | .vexMask _ _ _ _ => true

/-- Does a commit concern the half above xmm[0]? -/
def Commit.isVexMask (k : Commit) : Bool :=
  match k with
  | .vexMask _ _ _ _ => true
  | _ => false

/-- Is the instruction a VEX mask form? -/
def isVexMaskForm (i : Instr) : Bool :=
  match i with
  | .vpcmpestrm _ _ _ => true
  | .vpcmpistrm _ _ _ => true
  | _ => false

theorem map_eq_ok {α β : Type} {e : Except Fault α} {f : α → β} {b : β} (h : e.map f = .ok b) : ∃ a, b = f a := by
  cases e with
  | error => cases h
  | ok a =>
    cases h
    exact ⟨a, rfl⟩

/-- A commit is of the kind that the instruction's tables say. -/
theorem tables_of_commitOf {i : Instr} {s : State} {k : Commit} (h : commitOf i s = .ok k) :
    k.dests = destRegs i ∧ k.group = flagGroup i ∧ k.narrow = writes32 i ∧ k.isVexMask = isVexMaskForm i := by
  cases i <;> (obtain ⟨a, rfl⟩ := map_eq_ok h; exact ⟨rfl, rfl, rfl, rfl⟩)

end Sys2Proof.Proofs
end

section
/-! PROOFS of what every instruction writes and leaves alone, each by the kinds of commit (10_state.md sections 1 to 5,
30_encoding.md section 6, 92_eei_decisions.md D12, D18, D19, D20). -/

namespace Sys2Proof.Proofs

open Sys2Proof Sys2Proof.Machine Sys2Proof.Safety

/-! ### Registers, memory, context -/

/-- Of the general registers only those of `ds` are written, of the vector registers only xmm[0] and only where there
are no such registers; memory, the system flags and the context stay. -/
def WritesOnly (ds : List Reg) (s t : State) : Prop :=
  RegsSameBut ds s t ∧ (∀ r : Reg, r ≠ 0 ∨ ds ≠ [] → t.xmm[r] = s.xmm[r]) ∧ MemSame s t ∧ SystemFlagsSame s t ∧
    ContextSame s t

theorem writesOnly_of_bmiFrame {ds : List Reg} {s t : State} (h : BmiFrame ds s t) : WritesOnly ds s t := by
  obtain ⟨hregs, ⟨hvecs, -⟩, hrest⟩ := h
  exact ⟨hregs, fun r _ => hvecs r, hrest⟩

theorem writesOnly_of_maskFrame {s t : State} (h : MaskFrame s t) : WritesOnly [] s t := by
  obtain ⟨hregs, hvecs, hrest⟩ := h
  exact ⟨hregs, fun r hr => hvecs r (hr.resolve_right (not_not_intro rfl)), hrest⟩

theorem maskFrame_vexUpper {s t : State} (h : MaskFrame s t) : MaskFrame s (vexUpper t) := by
  rw [vexUpper_eq]
  exact h

theorem writesOnly_apply (k : Commit) (s : State) : WritesOnly k.dests s (k.apply s) := by
  cases k with
  | flagged w d v cf zf => exact writesOnly_of_bmiFrame (bmiFrame_commitBmi w d v cf zf s)
  | written w d v => exact writesOnly_of_bmiFrame (bmiFrame_writeReg_single w d v s)
  | product w dhi dlo hi lo =>
    exact writesOnly_of_bmiFrame (bmiFrame_writeReg hi List.mem_cons_self
      (bmiFrame_writeReg lo (List.mem_cons_of_mem _ List.mem_cons_self) (bmiFrame_refl _ s)))
  | index c la lb r => exact writesOnly_of_bmiFrame (indexFrame_commitIndex c la lb r s)
  | mask c la lb r => exact writesOnly_of_maskFrame (maskFrame_commitMask c la lb r s)
  | vexMask c la lb r => exact writesOnly_of_maskFrame (maskFrame_vexUpper (maskFrame_commitMask c la lb r s))

/-- What every instruction writes at most. -/
theorem writesOnly_exec {i : Instr} {s t : State} (h : exec i s = .next t) : WritesOnly (destRegs i) s t := by
  obtain ⟨k, hk, rfl⟩ := exec_eq_next.mp h
  rw [← (tables_of_commitOf hk).1]
  exact writesOnly_apply k s

/-- Settles O45, as a part of `writesOnly_exec`. -/
theorem execKeepsMemoryRipMode : Obligations.ExecKeepsMemoryRipMode := by
  intro i s t h
  obtain ⟨-, -, hmem, -, hcontext⟩ := writesOnly_exec h
  exact ⟨hmem, hcontext⟩

/-- Settles O46, as a part of `writesOnly_exec`. -/
theorem execWritesOnlyItsDestinations : Obligations.ExecWritesOnlyItsDestinations := by
  intro i s t h
  obtain ⟨hregs, hvecs, -⟩ := writesOnly_exec h
  exact ⟨hregs, fun r hr => hvecs r (.inl hr), fun hds => hvecs 0 (.inr hds)⟩

/-! ### Writes at width 32 -/

theorem toNat_writeReg_w32_lt (d : Reg) (v : BitVec Width.w32.bits) (s : State) :
    ((writeReg .w32 d v s).x[d]).toNat < 2 ^ 32 :=
  (toNat_writeReg_same .w32 d v s).trans_lt v.isLt

theorem toNat_apply_lt {k : Commit} (hk : k.narrow = true) (s : State) :
    ∀ r ∈ k.dests, ((k.apply s).x[r]).toNat < 2 ^ 32 := by
  cases k with
  | flagged w d v cf zf =>
    obtain rfl : w = .w32 := beq_iff_eq.mp hk
    exact List.forall_mem_singleton.mpr (toNat_writeReg_w32_lt d v s)
  | written w d v =>
    obtain rfl : w = .w32 := beq_iff_eq.mp hk
    exact List.forall_mem_singleton.mpr (toNat_writeReg_w32_lt d v s)
  | product w dhi dlo hi lo =>
    obtain rfl : w = .w32 := beq_iff_eq.mp hk
    refine List.forall_mem_cons.mpr ⟨toNat_writeReg_w32_lt dhi hi _, List.forall_mem_singleton.mpr ?_⟩
    by_cases h : dlo = dhi
    · rw [h]
      exact toNat_writeReg_w32_lt dhi hi _
    · simp only [Commit.apply]
      rw [writeReg_other .w32 hi _ h]
      exact toNat_writeReg_w32_lt dlo lo s
  | index c la lb r => exact List.forall_mem_singleton.mpr (toNat_writeReg_w32_lt Reg.rcx _ s)
  | mask | vexMask => nofun

/-- Settles O9: a narrow commit leaves its registers below 2^32. -/
theorem narrowWritesZeroExtend : Obligations.NarrowWritesZeroExtend := by
  intro i s t h hnarrow
  obtain ⟨k, hk, rfl⟩ := exec_eq_next.mp h
  obtain ⟨hdests, -, hwidth, -⟩ := tables_of_commitOf hk
  rw [← hdests]
  exact toNat_apply_lt (hwidth.trans hnarrow) s

/-! ### The half above xmm[0] -/

theorem isVexMaskForm_iff (i : Instr) :
    isVexMaskForm i = true ↔ ∃ a b imm, i = .vpcmpestrm a b imm ∨ i = .vpcmpistrm a b imm := by
  cases i <;> simp [isVexMaskForm]

theorem apply_ymm0Upper {k : Commit} (hk : k.isVexMask = false) (s : State) :
    (k.apply s).ymm0Upper = s.ymm0Upper := by
  cases k with
  | vexMask => cases hk
  | _ => rfl

theorem vexUpper_follows (s : State) :
    (Config.ymmUpperEffect = .zeroed → (vexUpper s).ymm0Upper = 0) ∧
      (Config.ymmUpperEffect = .preserved → (vexUpper s).ymm0Upper = s.ymm0Upper) ∧
      (Config.ymmUpperEffect = .any → ∃ n, (vexUpper s).ymm0Upper = Config.freeHalf n) := by
  refine ⟨fun h => ?_, fun h => ?_, fun h => ⟨s.draws, ?_⟩⟩ <;> simp only [vexUpper, h]

/-- Settles O39: a VEX mask form ends with `vexUpper`, and no other commit touches the half. -/
theorem upperHalfFollowsParameter : Obligations.UpperHalfFollowsParameter := by
  intro i s t h
  obtain ⟨k, hk, rfl⟩ := exec_eq_next.mp h
  obtain ⟨-, -, -, hvex⟩ := tables_of_commitOf hk
  refine ⟨fun hform => ?form, fun hother => ?other⟩
  case form =>
    rw [← isVexMaskForm_iff, ← hvex] at hform
    cases k with
    | vexMask c la lb r => exact vexUpper_follows (commitMask c la lb r s)
    | _ => cases hform
  case other =>
    refine apply_ymm0Upper (hvex.trans (Bool.eq_false_iff.mpr fun hform => ?_)) s
    obtain ⟨a, b, imm, rfl | rfl⟩ := (isVexMaskForm_iff i).mp hform
    · exact (hother a b imm).1 rfl
    · exact (hother a b imm).2 rfl

/-! ### Free draws -/

theorem vexUpper_draws_le (s : State) : s.draws ≤ (vexUpper s).draws ∧ (vexUpper s).draws ≤ s.draws + 1 := by
  unfold vexUpper
  split <;> simp

/-- Settles O55, by the group of the commit. -/
theorem freeFlagDraws : Obligations.FreeFlagDraws := by
  intro i s t h
  obtain ⟨k, hk, rfl⟩ := exec_eq_next.mp h
  rw [← (tables_of_commitOf hk).2.1]
  cases k with
  | flagged => exact ⟨fun _ => ⟨rfl, rfl, rfl⟩, nofun, nofun⟩
  | written | product => exact ⟨nofun, fun _ => rfl, nofun⟩
  | index | mask => exact ⟨nofun, nofun, fun _ => ⟨Nat.le_refl _, Nat.le_succ _⟩⟩
  | vexMask c la lb r => exact ⟨nofun, nofun, fun _ => vexUpper_draws_le (commitMask c la lb r s)⟩

/-! ### Flags -/

/-- No operand, no value and no length depends on a flag. -/
theorem commitOf_flags (i : Instr) (s : State) (f : Flags) : commitOf i { s with flags := f } = commitOf i s := by
  cases i <;> rfl

/-- Two runs of one commit that differ in the flags before it differ in the flags after it only. -/
theorem apply_flags (k : Commit) (s : State) (f : Flags) :
    k.apply { s with flags := f } = { k.apply s with flags := (k.apply { s with flags := f }).flags } := by
  cases k with
  | vexMask c la lb r =>
    simp only [Commit.apply, vexUpper]
    split <;> rfl
  | _ => rfl

/-- What the table of R28 says of the flags `g` and `g'` that two runs leave, from the flags `f` and `f'`. -/
def FlagRow (group : FlagGroup) (f f' g g' : Flags) : Prop :=
  (group = .unchanged → g = f ∧ g' = f') ∧ (group ≠ .unchanged → arithFlags g' = arithFlags g) ∧
    (group = .bmi → g.of = false) ∧ (group = .pcmp → g.af = false ∧ g.pf = false)

theorem flagRow_apply (k : Commit) (s : State) (f : Flags) :
    FlagRow k.group s.flags f (k.apply s).flags (k.apply { s with flags := f }).flags := by
  cases k with
  | flagged => exact ⟨nofun, fun _ => rfl, fun _ => rfl, nofun⟩
  | written | product => exact ⟨fun _ => ⟨rfl, rfl⟩, fun h => absurd rfl h, nofun, nofun⟩
  | index | mask => exact ⟨nofun, fun _ => rfl, nofun, fun _ => ⟨rfl, rfl⟩⟩
  | vexMask c la lb r =>
    simp only [Commit.apply, vexUpper_flags]
    exact ⟨nofun, fun _ => rfl, nofun, fun _ => ⟨rfl, rfl⟩⟩

theorem outcomesRelated_withOperand {α : Type} {P : State → State → Prop} {e : Except Fault α} {k k' : α → State}
    (h : ∀ v, e = .ok v → P (k v) (k' v)) : OutcomesRelated P (withOperand e k) (withOperand e k') := by
  cases e with
  | ok v => exact h v rfl
  | error f => exact rfl

/-- Settles O42: both runs make one commit (`commitOf_flags`), and its group fixes the flags (`flagRow_apply`). -/
theorem flagsTable : Obligations.FlagsTable := by
  intro i s f
  rw [exec_eq_commit, exec_eq_commit, commitOf_flags]
  refine outcomesRelated_withOperand fun k hk => ?_
  obtain ⟨-, -, -, hsystem, -⟩ := writesOnly_apply k s
  obtain ⟨-, -, -, ⟨htf, hifl, hdf, hrf⟩, -⟩ := writesOnly_apply k { s with flags := f }
  rw [← (tables_of_commitOf hk).2.1]
  exact ⟨apply_flags k s f, hsystem, htf, hifl, hdf, hrf, flagRow_apply k s f⟩

end Sys2Proof.Proofs
end

section
/-! PROOFS about the invocation and the step: outcomes, what runs, and what every step keeps (10_state.md sections 3
and 5, 60_exceptions.md section 1, 70_reset_and_hazards.md section 1). -/

namespace Sys2Proof.Proofs

open Sys2Proof Sys2Proof.Machine Sys2Proof.Safety

/-! ### The invocation -/

theorem emulate_of_decode_error {s : State} {e : Reject} (h : decode s.mode s.win.toList = .error e) :
    emulate s = .refused .unrecognized := by
  rw [emulate, h]

theorem invocationRuns_of_decode_ok {s : State} {i : Instr} (h : decode s.mode s.win.toList = .ok i) :
    InvocationRuns i s := by
  unfold InvocationRuns emulate
  generalize decode s.mode s.win.toList = answer at h ⊢
  subst h
  rfl

theorem exec_ne_refused (i : Instr) (s : State) (r : Refusal) : exec i s ≠ .refused r := by
  rw [exec_eq_commit]
  exact withOperand_ne_refused _ _ r

/-- An invocation that runs an instruction is not Unrecognized: no meaning refuses. -/
theorem emulate_ne_refused {s : State} {i : Instr} (h : InvocationRuns i s) (r : Refusal) : emulate s ≠ .refused r := by
  rw [h]
  cases hexec : exec i s with
  | next t => nofun
  | fault f => nofun
  | refused r' => exact absurd hexec (exec_ne_refused i s r')

/-- Settles O43: decoding decides first, then the request of the instruction (O44), whose lengths O4 bounds. -/
theorem outcomePriority : Obligations.OutcomePriority := by
  refine fun s => ⟨fun e h => ?unrecognized, fun i a n h hreq hread => ?fault, fun i h hreadable => ?emulated⟩
  case unrecognized =>
    rw [emulate_of_decode_error h]
    exact ⟨rfl, rfl⟩
  case fault => rw [invocationRuns_of_decode_ok h, (execCompletesOrAccessFaults i s).2 a n hreq hread]
  case emulated =>
    obtain ⟨t, ht⟩ := (execCompletesOrAccessFaults i s).1 hreadable
    refine ⟨t, ?_, instrLength_bounds i⟩
    rw [invocationRuns_of_decode_ok h, ht]

/-- Settles O47: window and mode fix what decoding answers, and that fixes which instruction runs. -/
theorem windowAloneIsDecoded : Obligations.WindowAloneIsDecoded := by
  intro s s' hmode hwin
  cases h : decode s.mode s.win.toList with
  | error e =>
    have hs := emulate_of_decode_error h
    have hs' : emulate s' = .refused .unrecognized := emulate_of_decode_error (by rw [hmode, hwin, h])
    refine ⟨iff_of_true hs hs', fun n t _ _ hn => ?_, fun hne => absurd hs hne⟩
    cases hs.symm.trans hn
  | ok i =>
    have hs := invocationRuns_of_decode_ok h
    have hs' : InvocationRuns i s' := invocationRuns_of_decode_ok (by rw [hmode, hwin, h])
    refine ⟨iff_of_false (emulate_ne_refused hs _) (emulate_ne_refused hs' _), fun n t n' t' hn hn' => ?_,
      fun _ => ⟨i, hs, hs'⟩⟩
    obtain ⟨j, hj, -, rfl⟩ := emulate_next hn
    obtain ⟨j', hj', -, rfl⟩ := emulate_next hn'
    rw [hmode, hwin, hj] at hj'
    cases hj'
    rfl

/-! ### The captured window -/

theorem callable_of_decode_ok {m : IpMode} {bs : List Byte} {i : Instr} (h : decode m bs = .ok i) :
    callable m bs = true := by
  obtain ⟨rest, hbytes⟩ := decode_eq_ok.mp h
  simp [callable, hbytes]

/-- Without an instruction in them the bytes must be fifteen. -/
theorem callable_of_decode_error {m : IpMode} {bs : List Byte} {e : Reject} (h : decode m bs = .error e) :
    callable m bs = decide (bs.length = 15) := by
  have hne : ∀ p, decodeBytes m bs ≠ .ok p := fun p hp => by
    rw [decode_eq_ok.mpr ⟨p.2, hp⟩] at h
    cases h
  unfold callable
  cases hbytes : decodeBytes m bs with
  | ok p => exact absurd hbytes (hne p)
  | error e => exact Bool.or_false _

theorem length_bytesAtRip (s : State) : (bytesAtRip s).length ≤ 15 := Memory.length_readable _ _ _ _

theorem decode_padWindow {s : State} {i : Instr} (h : decode s.mode (bytesAtRip s) = .ok i) :
    decode s.mode (padWindow (bytesAtRip s)).toList = .ok i := by
  rw [toList_padWindow _ (length_bytesAtRip s)]
  exact decode_append _ h

/-- The state that the block is invoked in: the window captured and the other agents' turn taken. -/
def invoked (s : State) : State := othersTurn { s with win := padWindow (bytesAtRip s) }

theorem invoked_mode (s : State) : (invoked s).mode = s.mode := othersTurn_mode _

theorem invoked_win (s : State) : (invoked s).win = padWindow (bytesAtRip s) := othersTurn_win _

theorem step_of_callable {s : State} (h : callable s.mode (bytesAtRip s) = true) :
    step s = (match emulate (invoked s) with
      | .next (n, t) => .next (othersTurn (advance n t))
      | .fault f => .fault f
      | .refused r => .refused r) := by
  rw [step, captureWindow, if_pos h]
  rfl

/-- What the caller makes of the outcome of an instruction of length `n`: the advance, and the next turn of the other
agents. -/
def callerFinish (n : Nat) (o : Host.Outcome State Fault Refusal) : Host.Outcome State Fault Refusal :=
  match o with
  | .next t => .next (othersTurn (advance n t))
  | .fault f => .fault f
  | .refused r => .refused r

/-- The bytes at the instruction pointer decode as their window does, and what decodes is what the invocation runs. -/
theorem step_of_decode_ok {s : State} {i : Instr} (h : decode s.mode (bytesAtRip s) = .ok i) :
    step s = callerFinish (instrLength i) (exec i (invoked s)) := by
  have hruns : InvocationRuns i (invoked s) := by
    apply invocationRuns_of_decode_ok
    rw [invoked_mode, invoked_win]
    exact decode_padWindow h
  rw [step_of_callable (callable_of_decode_ok h), hruns]
  cases exec i (invoked s) <;> rfl

theorem step_of_decode_error {s : State} {e : Reject} (h : decode s.mode (bytesAtRip s) = .error e) :
    step s = if (bytesAtRip s).length = 15 then .refused .unrecognized
      else .fault (.windowUnreadable (truncAddr s.mode s.rip)) := by
  have hcallable := callable_of_decode_error h
  split_ifs with hlen
  · have hwin : emulate (invoked s) = .refused .unrecognized := by
      refine emulate_of_decode_error (e := e) ?_
      rw [invoked_mode, invoked_win, toList_padWindow _ hlen.le, hlen]
      simpa using h
    rw [step_of_callable (hcallable.trans (decide_eq_true hlen)), hwin]
  · rw [step, captureWindow, if_neg (by simp [hcallable, hlen])]

/-- Settles O48, by the two lemmas above. -/
theorem stepRunsDecodedInstruction : Obligations.StepRunsDecodedInstruction :=
  fun _ => ⟨fun _ h => step_of_decode_ok h, fun _ h => step_of_decode_error h⟩

/-! ### What every step keeps -/

theorem callerFinish_eq_next {n : Nat} {o : Host.Outcome State Fault Refusal} {t : State}
    (h : callerFinish n o = .next t) : ∃ u, o = .next u ∧ t = othersTurn (advance n u) := by
  cases o with
  | next u =>
    cases h
    exact ⟨u, rfl, rfl⟩
  | fault | refused => cases h

/-- A step completes where the bytes at the instruction pointer hold an instruction that completes. -/
theorem step_eq_next {s t : State} (h : step s = .next t) :
    ∃ i u, decode s.mode (bytesAtRip s) = .ok i ∧ exec i (invoked s) = .next u ∧
      t = othersTurn (advance (instrLength i) u) := by
  cases hd : decode s.mode (bytesAtRip s) with
  | error e =>
    rw [step_of_decode_error hd] at h
    split_ifs at h
  | ok i =>
    rw [step_of_decode_ok hd] at h
    obtain ⟨u, hexec, ht⟩ := callerFinish_eq_next h
    exact ⟨i, u, rfl, hexec, ht⟩

theorem contextSame_invoked_exec {i : Instr} {s u : State} (h : exec i (invoked s) = .next u) :
    u.rip = s.rip ∧ u.mode = s.mode := by
  obtain ⟨-, -, -, -, hrip, hmode, -⟩ := writesOnly_exec h
  exact ⟨hrip.trans (othersTurn_rip _), hmode.trans (othersTurn_mode _)⟩

/-- Settles O52. -/
theorem stepKeepsMode : Obligations.StepKeepsMode := by
  intro s t h
  obtain ⟨i, u, -, hexec, rfl⟩ := step_eq_next h
  rw [othersTurn_mode, advance_mode]
  exact (contextSame_invoked_exec hexec).2

/-- Settles O49: the instruction leaves the instruction pointer, and the advance adds the length. -/
theorem stepAdvancesByLength : Obligations.StepAdvancesByLength := by
  intro s t h
  obtain ⟨i, u, hd, hexec, rfl⟩ := step_eq_next h
  obtain ⟨hrip, hmode⟩ := contextSame_invoked_exec hexec
  refine ⟨i, hd, ?_⟩
  rw [othersTurn_rip, advance_rip, hrip, hmode, toNat_truncAddr, BitVec.toNat_add, BitVec.toNat_ofNat, Nat.add_mod_mod]
  cases s.mode with
  | m64 => rfl
  | m32 => exact Nat.mod_mod_of_dvd _ (by decide)

theorem apply_mem (k : Commit) (s : State) : (k.apply s).mem = s.mem := by
  cases k with
  | vexMask c la lb r => exact vexUpper_mem _
  | _ => rfl

/-- Settles O50: an instruction does not touch memory, the turns of the other agents keep its canonical form, and the
advance narrows the instruction pointer. -/
theorem stepKeepsInvariant : Obligations.StepKeepsInvariant := by
  intro s t hinv h
  obtain ⟨hwf, -⟩ := hinv
  obtain ⟨i, u, -, hexec, rfl⟩ := step_eq_next h
  refine ⟨?memory, fun hmode => ?rip⟩
  case memory =>
    obtain ⟨k, -, rfl⟩ := exec_eq_next.mp hexec
    apply othersTurn_wf
    rw [advance_mem, apply_mem]
    exact othersTurn_wf hwf
  case rip =>
    rw [othersTurn_mode, advance_mode] at hmode
    rw [othersTurn_rip, advance_rip, hmode, toNat_truncAddr]
    exact Nat.mod_lt _ (Nat.two_pow_pos 32)

/-- Settles O51. -/
theorem resetMeetsInvariant : Obligations.ResetMeetsInvariant := ⟨reset_mem_wf, nofun⟩

end Sys2Proof.Proofs
end

section
/-! PROOFS about 32-bit mode: a step touches no register above 7 and depends on none, nor on a bit above 31 of a general
register or of the instruction pointer (10_state.md sections 1, 3 and 4, 92_eei_decisions.md D8, D9, D19). -/

namespace Sys2Proof.Proofs

open Sys2Proof Sys2Proof.Machine Sys2Proof.Safety

/-! ### Registers 8 to 15 are not written -/

theorem destRegs_wf {m : IpMode} {i : Instr} (h : i.wf m = true) : ∀ r ∈ destRegs i, r.wf m = true := by
  have hrcx : Reg.wf m Reg.rcx = true := by cases m <;> rfl
  cases i with
  | blsr | blsmsk | blsi | rorx =>
    simp only [Instr.wf, Bool.and_eq_true] at h
    exact List.forall_mem_singleton.mpr h.1.2
  | andn | bzhi | pext | pdep | bextr | shlx | sarx | shrx =>
    simp only [Instr.wf, Bool.and_eq_true] at h
    exact List.forall_mem_singleton.mpr h.1.1.2
  | mulx =>
    simp only [Instr.wf, Bool.and_eq_true] at h
    exact List.forall_mem_cons.mpr ⟨h.1.1.2, List.forall_mem_singleton.mpr h.1.2⟩
  | pcmpestri | pcmpistri | vpcmpestri | vpcmpistri => exact List.forall_mem_singleton.mpr hrcx
  | pcmpestrm | pcmpistrm | vpcmpestrm | vpcmpistrm => nofun

theorem wf_of_decode {m : IpMode} {bs : List Byte} {i : Instr} (h : decode m bs = .ok i) : i.wf m = true := by
  obtain ⟨rest, hbytes⟩ := decode_eq_ok.mp h
  exact (decodedIsWellFormed m bs rest i hbytes).1

/-- Settles O53: the destinations of a decoded instruction are registers of the mode (O3), and of the vector registers
only xmm[0] is ever written. -/
theorem mode32HighRegistersUntouched : Obligations.Mode32HighRegistersUntouched := by
  intro s t hm h r hr
  obtain ⟨i, u, hd, hexec, rfl⟩ := step_eq_next h
  rw [hm] at hd
  obtain ⟨hregs, hvecs, -⟩ := writesOnly_exec hexec
  have hnot : r ∉ destRegs i := fun hmem => by
    have hlow : r.val < 8 := of_decide_eq_true (destRegs_wf (wf_of_decode hd) r hmem)
    omega
  have hne : r ≠ 0 := by
    rintro rfl
    exact absurd hr (by decide)
  have hx : (invoked s).x = s.x := othersTurn_x _
  have hxmm : (invoked s).xmm = s.xmm := othersTurn_xmm _
  rw [othersTurn_x, advance_x, hregs r hnot, othersTurn_xmm, advance_xmm, hvecs r (.inl hne), hx, hxmm]
  exact ⟨rfl, rfl⟩

theorem width_of_wf_m32 {w : Width} (hw : w.wf .m32 = true) : w = .w32 := by
  cases w with
  | w32 => rfl
  | w64 => cases hw

/-! ### States that 32-bit code cannot tell apart: what it reads of them -/

section Reads

variable {s s' : State} (h : M32Same s s')
include h

theorem readReg_m32Same {r : Reg} (hr : r.wf .m32 = true) : readReg .w32 r s = readReg .w32 r s' := by
  obtain ⟨-, -, hregs, -⟩ := h
  exact hregs r (of_decide_eq_true hr)

theorem readXmm_m32Same {r : Reg} (hr : r.wf .m32 = true) : readXmm r s = readXmm r s' := by
  obtain ⟨-, -, -, hvecs, -⟩ := h
  exact hvecs r (of_decide_eq_true hr)

theorem memRead_m32Same (a : Word) (n : Nat) : memRead a n s = memRead a n s' := by
  obtain ⟨hm, hm', -, -, -, -, -, hmem, -⟩ := h
  rw [memRead, memRead, hm, hm', hmem]

theorem addrReg_m32Same {r : Reg} (hr : r.wf .m32 = true) : addrReg r s = addrReg r s' := by
  obtain ⟨hm, hm', hregs, -⟩ := h
  rw [addrReg, addrReg, hm, hm', truncAddr, truncAddr, hregs r (of_decide_eq_true hr)]

theorem scaledIndex_m32Same {i : Option Index} (hi : Index.wfOpt .m32 i = true) :
    scaledIndex i s = scaledIndex i s' := by
  cases i with
  | none => rfl
  | some i =>
    simp only [Index.wfOpt, Index.wf, Bool.and_eq_true] at hi
    rw [scaledIndex, scaledIndex, addrReg_m32Same h hi.1]

theorem effAddr_m32Same (len : Nat) {a : Addr} (ha : a.wf .m32 = true) : effAddr len a s = effAddr len a s' := by
  obtain ⟨hm, hm', -⟩ := id h
  cases a with
  | base b d =>
    simp only [Addr.wf, Bool.and_eq_true] at ha
    obtain ⟨⟨hb, -⟩, -⟩ := ha
    rw [effAddr, effAddr, hm, hm', addrReg_m32Same h hb]
  | sib b i d =>
    simp only [Addr.wf, Bool.and_eq_true] at ha
    obtain ⟨⟨hb, hi⟩, -⟩ := ha
    rw [effAddr, effAddr, hm, hm', addrReg_m32Same h hb, scaledIndex_m32Same h hi]
  | sibNoBase i d => rw [effAddr, effAddr, hm, hm', scaledIndex_m32Same h ha]
  | ripRel d => cases ha
  | abs d => rfl

theorem readOperand_m32Same (len : Nat) {o : Operand} (ho : o.wf .m32 = true) :
    readOperand .w32 len o s = readOperand .w32 len o s' := by
  cases o with
  | reg r => rw [readOperand, readOperand, readReg_m32Same h ho]
  | mem a => simp only [readOperand, loadBytes, effAddr_m32Same h len ho, memRead_m32Same h]

theorem readVecOperand_m32Same (len : Nat) {o : Operand} (ho : o.wf .m32 = true) :
    readVecOperand len o s = readVecOperand len o s' := by
  cases o with
  | reg r => rw [readVecOperand, readVecOperand, readXmm_m32Same h ho]
  | mem a => simp only [readVecOperand, loadBytes, effAddr_m32Same h len ho, memRead_m32Same h]

theorem explicitCommit_m32Same (form : ∀ c : PcmpControl, Nat → Nat → BitVec c.count → Commit) (imm : Byte) {a : Reg}
    (ha : a.wf .m32 = true) : explicitCommit form imm s a = explicitCommit form imm s' a := by
  funext b
  simp only [explicitCommit, explicitLength, readReg_m32Same h (r := Reg.rax) rfl, readReg_m32Same h (r := Reg.rdx) rfl,
    readXmm_m32Same h ha]

theorem implicitCommit_m32Same (form : ∀ c : PcmpControl, Nat → Nat → BitVec c.count → Commit) (imm : Byte) {a : Reg}
    (ha : a.wf .m32 = true) : implicitCommit form imm s a = implicitCommit form imm s' a := by
  funext b
  simp only [implicitCommit, readXmm_m32Same h ha]

/-- An instruction of the mode commits the same in both states, or ends with the same fault. -/
theorem commitOf_m32Same {i : Instr} (hi : i.wf .m32 = true) : commitOf i s = commitOf i s' := by
  cases i with
  | blsr w d src | blsmsk w d src | blsi w d src | rorx w d src imm =>
    simp only [Instr.wf, Bool.and_eq_true] at hi
    obtain ⟨⟨hw, -⟩, hsrc⟩ := hi
    obtain rfl := width_of_wf_m32 hw
    simp only [commitOf, readOperand_m32Same h _ hsrc]
  | andn w d v src | bzhi w d src v | pext w d v src | pdep w d v src | bextr w d src v | shlx w d src v
  | sarx w d src v | shrx w d src v =>
    simp only [Instr.wf, Bool.and_eq_true] at hi
    obtain ⟨⟨⟨hw, -⟩, hv⟩, hsrc⟩ := hi
    obtain rfl := width_of_wf_m32 hw
    simp only [commitOf, readOperand_m32Same h _ hsrc, readReg_m32Same h hv]
  | mulx w dhi dlo src =>
    simp only [Instr.wf, Bool.and_eq_true] at hi
    obtain ⟨⟨⟨hw, -⟩, -⟩, hsrc⟩ := hi
    obtain rfl := width_of_wf_m32 hw
    simp only [commitOf, readOperand_m32Same h _ hsrc, readReg_m32Same h (r := Reg.rdx) rfl]
  | pcmpestrm rex a b imm | pcmpestri rex a b imm =>
    simp only [Instr.wf, legacyWf, Bool.and_eq_true] at hi
    obtain ⟨⟨ha, hb⟩, -⟩ := hi
    simp only [commitOf, readVecOperand_m32Same h _ hb, explicitCommit_m32Same h _ imm ha]
  | pcmpistrm rex a b imm | pcmpistri rex a b imm =>
    simp only [Instr.wf, legacyWf, Bool.and_eq_true] at hi
    obtain ⟨⟨ha, hb⟩, -⟩ := hi
    simp only [commitOf, readVecOperand_m32Same h _ hb, implicitCommit_m32Same h _ imm ha]
  | vpcmpestrm a b imm | vpcmpestri a b imm =>
    simp only [Instr.wf, Bool.and_eq_true] at hi
    simp only [commitOf, readVecOperand_m32Same h _ hi.2, explicitCommit_m32Same h _ imm hi.1]
  | vpcmpistrm a b imm | vpcmpistri a b imm =>
    simp only [Instr.wf, Bool.and_eq_true] at hi
    simp only [commitOf, readVecOperand_m32Same h _ hi.2, implicitCommit_m32Same h _ imm hi.1]

end Reads

/-! ### What it makes of them stays alike -/

/-- The low half of a sum depends on the low halves. -/
theorem setWidth_add_congr {a a' : Word} (h : a.setWidth 32 = a'.setWidth 32) (k : Word) :
    (a + k).setWidth 32 = (a' + k).setWidth 32 := by
  rw [BitVec.setWidth_add _ _ (by decide), BitVec.setWidth_add _ _ (by decide), h]

section Writes

variable {s s' : State} (h : M32Same s s')
include h

theorem m32Same_writeReg (w : Width) (d : Reg) (v : BitVec w.bits) :
    M32Same (writeReg w d v s) (writeReg w d v s') := by
  obtain ⟨hm, hm', hregs, hrest⟩ := h
  refine ⟨hm, hm', fun r hr => ?_, hrest⟩
  by_cases hd : r = d
  · rw [hd, writeReg_same, writeReg_same]
  · rw [writeReg_other w v s hd, writeReg_other w v s' hd, hregs r hr]

theorem m32Same_writeXmm (d : Reg) (v : Vec) : M32Same (writeXmm d v s) (writeXmm d v s') := by
  obtain ⟨hm, hm', hregs, hvecs, hrest⟩ := h
  refine ⟨hm, hm', hregs, fun r hr => ?_, hrest⟩
  by_cases hd : r = d
  · rw [hd, writeXmm_same, writeXmm_same]
  · rw [writeXmm_other v s hd, writeXmm_other v s' hd, hvecs r hr]

/-- The free values are the same in both, since the counters agree. -/
theorem m32Same_writeBmiFlags (cf zf sf : Bool) : M32Same (writeBmiFlags cf zf sf s) (writeBmiFlags cf zf sf s') := by
  obtain ⟨hm, hm', hregs, hvecs, hrip, hflags, hupper, hmem, hothers, hdraws⟩ := h
  exact ⟨hm, hm', hregs, hvecs, hrip, by simp [hflags, hdraws], hupper, hmem, hothers, by simp [hdraws]⟩

theorem m32Same_writePcmpFlags (cf zf sf of : Bool) :
    M32Same (writePcmpFlags cf zf sf of s) (writePcmpFlags cf zf sf of s') := by
  obtain ⟨hm, hm', hregs, hvecs, hrip, hflags, hrest⟩ := h
  exact ⟨hm, hm', hregs, hvecs, hrip, by simp [hflags], hrest⟩

theorem m32Same_vexUpper : M32Same (vexUpper s) (vexUpper s') := by
  obtain ⟨hm, hm', hregs, hvecs, hrip, hflags, hupper, hmem, hothers, hdraws⟩ := h
  unfold vexUpper
  split
  · exact ⟨hm, hm', hregs, hvecs, hrip, hflags, rfl, hmem, hothers, hdraws⟩
  · exact ⟨hm, hm', hregs, hvecs, hrip, hflags, hupper, hmem, hothers, hdraws⟩
  · exact ⟨hm, hm', hregs, hvecs, hrip, hflags, congrArg Config.freeHalf hdraws, hmem, hothers,
      congrArg (· + 1) hdraws⟩

theorem m32Same_apply (k : Commit) : M32Same (k.apply s) (k.apply s') := by
  cases k with
  | flagged w d v cf zf => exact m32Same_writeBmiFlags (m32Same_writeReg h w d v) cf zf v.msb
  | written w d v => exact m32Same_writeReg h w d v
  | product w dhi dlo hi lo => exact m32Same_writeReg (m32Same_writeReg h w dlo lo) w dhi hi
  | index c la lb r => exact m32Same_writePcmpFlags (m32Same_writeReg h .w32 Reg.rcx _) _ _ _ _
  | mask c la lb r => exact m32Same_writePcmpFlags (m32Same_writeXmm h 0 _) _ _ _ _
  | vexMask c la lb r => exact m32Same_vexUpper (m32Same_writePcmpFlags (m32Same_writeXmm h 0 _) _ _ _ _)

theorem m32Same_othersTurn : M32Same (othersTurn s) (othersTurn s') := by
  obtain ⟨hm, hm', hregs, hvecs, hrip, hflags, hupper, hmem, hothers, hdraws⟩ := h
  unfold othersTurn
  rw [← hothers, ← hmem]
  split
  · exact ⟨hm, hm', hregs, hvecs, hrip, hflags, hupper, hmem, hothers, hdraws⟩
  · exact ⟨hm, hm', hregs, hvecs, hrip, hflags, hupper, rfl, rfl, hdraws⟩

theorem m32Same_advance (n : Nat) : M32Same (advance n s) (advance n s') := by
  obtain ⟨hm, hm', hregs, hvecs, hrip, hrest⟩ := h
  refine ⟨hm, hm', hregs, hvecs, ?_, hrest⟩
  rw [advance_rip, advance_rip, hm, hm', truncAddr, truncAddr, setWidth_add_congr hrip]

theorem m32Same_win (win : Vector Byte 15) : M32Same { s with win := win } { s' with win := win } := h

/-- The instruction has the same outcome in both states, in the sense of the relation. -/
theorem outcomesRelated_exec {i : Instr} (hi : i.wf .m32 = true) : OutcomesRelated M32Same (exec i s) (exec i s') := by
  rw [exec_eq_commit, exec_eq_commit, commitOf_m32Same h hi]
  exact outcomesRelated_withOperand fun k _ => m32Same_apply h k

end Writes

/-! ### The window -/

/-- In M32 the readable bytes depend on the low half of the address. -/
theorem readable_m32 (mem : Memory) {a a' : Word} (h : a.setWidth 32 = a'.setWidth 32) (n : Nat) :
    Memory.readable .m32 mem a n = Memory.readable .m32 mem a' n := by
  induction n generalizing a a' with
  | zero => rfl
  | succ n ih =>
    rw [Memory.readable, Memory.readable, truncAddr, truncAddr, h, ih (setWidth_add_congr h 1)]

theorem bytesAtRip_m32Same {s s' : State} (h : M32Same s s') : bytesAtRip s = bytesAtRip s' := by
  obtain ⟨hm, hm', -, -, hrip, -, -, hmem, -⟩ := h
  rw [bytesAtRip, bytesAtRip, hm, hm', hmem, readable_m32 _ hrip]

theorem m32Same_invoked {s s' : State} (h : M32Same s s') : M32Same (invoked s) (invoked s') := by
  rw [invoked, invoked, bytesAtRip_m32Same h]
  exact m32Same_othersTurn (m32Same_win h _)

theorem outcomesRelated_callerFinish (n : Nat) {o o' : Host.Outcome State Fault Refusal}
    (h : OutcomesRelated M32Same o o') : OutcomesRelated M32Same (callerFinish n o) (callerFinish n o') := by
  cases o with
  | next u =>
    cases o' with
    | next u' => exact m32Same_othersTurn (m32Same_advance h n)
    | fault | refused => cases h
  | fault | refused => cases o' <;> exact h

/-- Settles O54, a simulation: both states hold the same bytes at the instruction pointer, the instruction in them has
related outcomes, and the advance and the turn of the other agents keep the relation. -/
theorem mode32ReadsLowHalvesOnly : Obligations.Mode32ReadsLowHalvesOnly := by
  intro s s' h
  obtain ⟨hm, hm', -, -, hrip, -⟩ := id h
  have hbytes := bytesAtRip_m32Same h
  cases hd : decode .m32 (bytesAtRip s) with
  | error e =>
    rw [step_of_decode_error (hm ▸ hd), step_of_decode_error (hm' ▸ hbytes ▸ hd), ← hbytes, hm, hm', truncAddr,
      truncAddr, hrip]
    split_ifs <;> rfl
  | ok i =>
    rw [step_of_decode_ok (hm ▸ hd), step_of_decode_ok (hm' ▸ hbytes ▸ hd)]
    exact outcomesRelated_callerFinish _ (outcomesRelated_exec (m32Same_invoked h) (wf_of_decode hd))

end Sys2Proof.Proofs
end

section
/-! PROOFS about memory and addresses (20_memory.md sections 2 and 3, 30_encoding.md section 5). -/

namespace Sys2Proof.Proofs

open Sys2Proof Sys2Proof.Machine Sys2Proof.Safety

/-! ### Addresses modulo the address width -/

theorem truncAddr_eq (m : IpMode) (a : Word) : (truncAddr m a).toNat = a.toNat % 2 ^ addrBits m := by
  rw [toNat_truncAddr]
  cases m with
  | m64 => exact (Nat.mod_eq_of_lt a.isLt).symm
  | m32 => rfl

theorem addrBits_le (m : IpMode) : addrBits m ≤ 64 := by cases m <;> decide

/-- A sum that wrapped at 2^64 is the same modulo the address width. -/
theorem mod_two_pow_addrBits (m : IpMode) (n : Nat) : n % 2 ^ 64 % 2 ^ addrBits m = n % 2 ^ addrBits m :=
  Nat.mod_mod_of_dvd _ (Nat.pow_dvd_pow 2 (addrBits_le m))

/-- The address of byte `k` after the next one. -/
theorem succ_addr (m : IpMode) (a : Word) (k : Nat) :
    ((a + 1).toNat + k) % 2 ^ addrBits m = (a.toNat + (k + 1)) % 2 ^ addrBits m := by
  rw [BitVec.toNat_add, ← Nat.mod_add_mod, mod_two_pow_addrBits, Nat.mod_add_mod, Nat.add_assoc, Nat.add_comm k]
  rfl

/-! ### Reads -/

variable {m : IpMode} {mem : Memory}

theorem read_succ_eq_some {a : Word} {n : Nat} {bs : List Byte} :
    Memory.read m mem a (n + 1) = some bs ↔
      ∃ b tail, bs = b :: tail ∧ Memory.get mem (a.toNat % 2 ^ addrBits m) = some b ∧
        Memory.read m mem (a + 1) n = some tail := by
  rw [Memory.read, truncAddr_eq]
  cases Memory.get mem (a.toNat % 2 ^ addrBits m) <;> cases Memory.read m mem (a + 1) n <;> simp [eq_comm]

theorem read_eq_some (a : Word) (n : Nat) (bs : List Byte) :
    Memory.read m mem a n = some bs ↔
      bs.length = n ∧ ∀ k, k < n → Memory.get mem ((a.toNat + k) % 2 ^ addrBits m) = bs[k]? := by
  induction n generalizing a bs with
  | zero => simp [Memory.read, eq_comm (a := ([] : List Byte))]
  | succ n ih =>
    rw [read_succ_eq_some]
    constructor
    · rintro ⟨b, tail, rfl, hb, htail⟩
      obtain ⟨hlen, hget⟩ := (ih _ _).mp htail
      refine ⟨congrArg (· + 1) hlen, fun k hk => ?_⟩
      cases k with
      | zero => exact hb
      | succ k =>
        rw [← succ_addr]
        exact hget k (Nat.lt_of_succ_lt_succ hk)
    · rintro ⟨hlen, hget⟩
      cases bs with
      | nil => cases hlen
      | cons b tail =>
        refine ⟨b, tail, rfl, hget 0 (Nat.succ_pos n), (ih _ _).mpr ⟨Nat.succ.inj hlen, fun k hk => ?_⟩⟩
        rw [succ_addr]
        exact hget (k + 1) (Nat.succ_lt_succ hk)

theorem read_eq_none (a : Word) (n : Nat) :
    Memory.read m mem a n = none ↔ ∃ k, k < n ∧ Memory.get mem ((a.toNat + k) % 2 ^ addrBits m) = none := by
  induction n generalizing a with
  | zero => simp [Memory.read]
  | succ n ih =>
    rw [Nat.exists_lt_succ_left]
    simp only [← succ_addr, ← ih, Nat.add_zero]
    rw [Memory.read, truncAddr_eq]
    cases Memory.get mem (a.toNat % 2 ^ addrBits m) <;> cases Memory.read m mem (a + 1) n <;> simp

/-- Settles O10: the two outcomes of a read by induction on the number of bytes; the fault and the value as in O56. -/
theorem memoryReadRule : Obligations.MemoryReadRule :=
  fun _ a n => ⟨read_eq_some a n, read_eq_none a n, loadBytes_of_none, leNat_eq_littleEndianSum⟩

/-! ### Reads after stores -/

theorem get_store_of_ne {a : Word} {bs : List Byte} {x : Nat}
    (hx : ∀ k, k < bs.length → (a.toNat + k) % 2 ^ addrBits m ≠ x) :
    Memory.get (Memory.store m mem a bs) x = Memory.get mem x := by
  induction bs generalizing a mem with
  | nil => rfl
  | cons b bs ih =>
    have htail : ∀ k, k < bs.length → ((a + 1).toNat + k) % 2 ^ addrBits m ≠ x := fun k hk => by
      rw [succ_addr]
      exact hx (k + 1) (Nat.succ_lt_succ hk)
    rw [Memory.store, ih htail, Memory.get_put, truncAddr_eq]
    exact if_neg (hx 0 (Nat.succ_pos _))

/-- Fewer places than the address space has do not meet. -/
theorem addr_ne {a k : Nat} (hpos : 0 < k) (hk : k < 2 ^ addrBits m) :
    (a + k) % 2 ^ addrBits m ≠ a % 2 ^ addrBits m := by
  intro h
  have hzero : k ≡ 0 [MOD 2 ^ addrBits m] := Nat.ModEq.add_left_cancel' a h
  exact hpos.ne' (hzero.eq_of_lt_of_lt hk (hpos.trans hk))

theorem get_store {a : Word} {bs : List Byte} (hlen : bs.length ≤ 2 ^ addrBits m) {k : Nat} (hk : k < bs.length) :
    Memory.get (Memory.store m mem a bs) ((a.toNat + k) % 2 ^ addrBits m) = bs[k]? := by
  induction bs generalizing a mem k with
  | nil => cases hk
  | cons b bs ih =>
    rw [Memory.store]
    cases k with
    | zero =>
      rw [get_store_of_ne, Memory.get_put, truncAddr_eq]
      · simp
      · intro k hk
        rw [succ_addr]
        exact addr_ne (Nat.succ_pos k) (by simp at hlen; omega)
    | succ k =>
      rw [← succ_addr]
      exact ih (Nat.le_of_succ_le hlen) (Nat.lt_of_succ_lt_succ hk)

theorem read_store {a : Word} {bs : List Byte} (hlen : bs.length ≤ 2 ^ addrBits m) :
    Memory.read m (Memory.store m mem a bs) a bs.length = some bs :=
  (read_eq_some a _ bs).mpr ⟨rfl, fun _ hk => get_store hlen hk⟩

/-- The events of an agent that stores bytes at `a, a+1, …`. -/
def storeEvents (m : IpMode) (a : Word) : List Byte → List MemEvent
  | [] => []
  | b :: bs => .store (truncAddr m a) b :: storeEvents m (a + 1) bs

theorem foldl_storeEvents (a : Word) (bs : List Byte) :
    (storeEvents m a bs).foldl applyEvent mem = Memory.store m mem a bs := by
  induction bs generalizing a mem with
  | nil => rfl
  | cons b bs ih => exact ih (a + 1)

theorem memRead_othersTurn (s : State) (es : List MemEvent) (a : Word) (n : Nat) :
    memRead a n (othersTurn { s with others := [es] }) = Memory.read s.mode (es.foldl applyEvent s.mem) a n := rfl

/-- Settles O12: an agent that stores the bytes wanted makes the read answer them, and one that unmaps the first makes
it fail. -/
theorem racingReadIsFree : Obligations.RacingReadIsFree := by
  intro s a bs hlen
  refine ⟨⟨storeEvents s.mode a bs, ?answer⟩, fun hne => ⟨[.unmap (truncAddr s.mode a)], ?fail⟩⟩
  case answer =>
    have hspace : 16 ≤ 2 ^ addrBits s.mode := by cases s.mode <;> decide
    rw [memRead_othersTurn, foldl_storeEvents, read_store (hlen.trans hspace)]
  case fail =>
    rw [memRead_othersTurn, read_eq_none]
    refine ⟨0, List.length_pos_iff.mpr hne, ?_⟩
    change Memory.get (Memory.remove s.mem (truncAddr s.mode a).toNat) _ = none
    rw [Memory.get_remove, truncAddr_eq]
    exact if_pos rfl

/-! ### Effective addresses -/

theorem toNat_addrReg (r : Reg) (s : State) : (addrReg r s).toNat = addrRegNat r s := truncAddr_eq _ _

section Sums

variable {u v : Word} {y z : Int}

theorem natCast_mod_two_pow (n k : Nat) : ((n % 2 ^ k : Nat) : Int) = n % 2 ^ k := by
  push_cast
  rfl

theorem toNat_add_modEq (hu : (u.toNat : Int) ≡ y [ZMOD 2 ^ 64]) (hv : (v.toNat : Int) ≡ z [ZMOD 2 ^ 64]) :
    ((u + v).toNat : Int) ≡ y + z [ZMOD 2 ^ 64] := by
  rw [BitVec.toNat_add, natCast_mod_two_pow, Nat.cast_add]
  exact (Int.mod_modEq _ _).trans (hu.add hv)

theorem toNat_ofNat_modEq (n : Nat) : ((BitVec.ofNat 64 n).toNat : Int) ≡ n [ZMOD 2 ^ 64] := by
  rw [BitVec.toNat_ofNat, natCast_mod_two_pow]
  exact Int.mod_modEq _ _

theorem toNat_signExtend_modEq {n : Nat} (d : BitVec n) (hn : n ≤ 64) :
    ((d.signExtend 64).toNat : Int) ≡ d.toInt [ZMOD 2 ^ 64] := by
  rw [toNat_eq_toInt_emod, BitVec.toInt_signExtend_of_le hn]
  exact Int.mod_modEq _ _

theorem toNat_dispValue_modEq (d : Disp) : ((dispValue d).toNat : Int) ≡ dispInt d [ZMOD 2 ^ 64] := by
  cases d with
  | none => exact Int.ModEq.refl _
  | d8 d | d32 d => exact toNat_signExtend_modEq d (by decide)

theorem toNat_scaledIndex_modEq (i : Option Index) (s : State) :
    ((scaledIndex i s).toNat : Int) ≡ scaledIndexNat i s [ZMOD 2 ^ 64] := by
  cases i with
  | none => exact Int.ModEq.refl _
  | some i =>
    rw [scaledIndex, scaledIndexNat, BitVec.toNat_shiftLeft, toNat_addrReg, Nat.shiftLeft_eq, natCast_mod_two_pow]
    exact Int.mod_modEq _ _

/-- A sum that is right modulo 2^64 is, narrowed, right modulo the address width. -/
theorem toNat_truncAddr_of_modEq (m : IpMode) (hu : (u.toNat : Int) ≡ z [ZMOD 2 ^ 64]) :
    ((truncAddr m u).toNat : Int) = z % 2 ^ addrBits m := by
  have hnarrow : (u.toNat : Int) ≡ z [ZMOD 2 ^ addrBits m] := hu.of_dvd (pow_dvd_pow 2 (addrBits_le m))
  rw [truncAddr_eq, natCast_mod_two_pow]
  exact hnarrow

end Sums

/-- Settles O11: each address is a sum of parts that are right modulo 2^64, narrowed once. -/
theorem effectiveAddressRule : Obligations.EffectiveAddressRule := by
  intro len s b i d e
  have hbase : ((addrReg b s).toNat : Int) ≡ addrRegNat b s [ZMOD 2 ^ 64] := by rw [toNat_addrReg]
  have hindex := toNat_scaledIndex_modEq i s
  have hdisp := toNat_dispValue_modEq d
  have hdisp32 := toNat_signExtend_modEq e (by decide)
  refine ⟨toNat_truncAddr_of_modEq _ (toNat_add_modEq hbase hdisp),
    toNat_truncAddr_of_modEq _ (toNat_add_modEq (toNat_add_modEq hbase hindex) hdisp),
    toNat_truncAddr_of_modEq _ (toNat_add_modEq hindex hdisp32), fun hm => ?ripRel, fun _ => ?abs⟩
  case ripRel =>
    have hrip := toNat_add_modEq (Int.ModEq.refl (s.rip.toNat : Int)) (toNat_ofNat_modEq len)
    have h := toNat_truncAddr_of_modEq s.mode (toNat_add_modEq hrip hdisp32)
    rw [effAddr]
    rwa [hm] at h ⊢
  case abs => exact BitVec.toNat_setWidth_of_le (by decide)

end Sys2Proof.Proofs
end

section
/-! PROOFS of the laws of MULX and of the string compares: control byte, elements, lengths, equal strings and the
further laws (40_bmi.md section 3, 45_pcmpstr.md sections 1 and 4). -/

namespace Sys2Proof.Proofs

open Sys2Proof Sys2Proof.Machine Sys2Proof.Safety

/-! ### MULX -/

/-- Settles O26: the halves are quotient and remainder of the product, which is below (2^W - 1) * 2^W. -/
theorem mulxExact : Obligations.MulxExact := by
  intro w a b
  rw [toNat_mulxHigh, toNat_mulxLow]
  refine ⟨Nat.div_add_mod' _ _, ?_⟩
  have hpos : 1 < 2 ^ w.bits := Nat.one_lt_two_pow (bits_pos w).ne'
  have hprod : a.toNat * b.toNat < (2 ^ w.bits - 1) * 2 ^ w.bits :=
    calc a.toNat * b.toNat
        ≤ (2 ^ w.bits - 1) * (2 ^ w.bits - 1) := Nat.mul_le_mul (Nat.le_pred_of_lt a.isLt) (Nat.le_pred_of_lt b.isLt)
      _ < (2 ^ w.bits - 1) * 2 ^ w.bits := Nat.mul_lt_mul_of_pos_left (by omega) (by omega)
  have hhigh : a.toNat * b.toNat / 2 ^ w.bits < 2 ^ w.bits - 1 :=
    (Nat.div_lt_iff_lt_mul (Nat.two_pow_pos _)).mpr hprod
  omega

/-! ### The control byte -/

theorem getLsbD_eq_decide (imm : Byte) (k : Nat) : imm.getLsbD k = decide (imm.toNat / 2 ^ k % 2 = 1) :=
  Nat.testBit_eq_decide_div_mod_eq

theorem pcmpControl_words (imm : Byte) : (pcmpControl imm).words = decide (imm.toNat % 2 = 1) :=
  (getLsbD_eq_decide imm 0).trans (by rw [pow_zero, Nat.div_one])

theorem pcmpControl_signed (imm : Byte) : (pcmpControl imm).signed = decide (imm.toNat / 2 % 2 = 1) :=
  getLsbD_eq_decide imm 1

theorem pcmpControl_out (imm : Byte) : (pcmpControl imm).out = decide (imm.toNat / 64 % 2 = 1) :=
  getLsbD_eq_decide imm 6

theorem pcmpControl_agg (imm : Byte) :
    (pcmpControl imm).agg =
      if imm.toNat / 4 % 4 = 0 then .equalAny else if imm.toNat / 4 % 4 = 1 then .ranges
      else if imm.toNat / 4 % 4 = 2 then .equalEach else .equalOrdered := by
  have hcode : (imm.extractLsb' 2 2).toNat = imm.toNat / 4 % 4 := by
    rw [BitVec.extractLsb'_toNat, Nat.shiftRight_eq_div_pow]
  rw [← hcode]
  simp only [pcmpControl, aggregationOf, BitVec.toNat_eq]
  rfl

/-- Bit 7 stands in no field (D31). -/
theorem pcmpControl_xor_bit7 (imm : Byte) : pcmpControl (imm ^^^ 0x80) = pcmpControl imm := by
  revert imm
  decide

theorem pcmpControl_count (imm : Byte) : (pcmpControl imm).count = if imm.toNat % 2 = 0 then 16 else 8 := by
  rw [PcmpControl.count, pcmpControl_words]
  obtain h | h := Nat.mod_two_eq_zero_or_one imm.toNat <;> simp [h]

/-! ### Elements -/

section Elements

variable (c : PcmpControl) (v : Vec) (k : Nat)

theorem toNat_pcmpElemBits :
    (pcmpElemBits c v k).toNat = v.toNat / 2 ^ (c.elemBits * k) % 2 ^ c.elemBits := by
  rw [pcmpElemBits, BitVec.extractLsb'_toNat, Nat.shiftRight_eq_div_pow]

variable {c}

theorem pcmpElem_unsigned (h : c.signed = false) : pcmpElem c v k = (pcmpElemBits c v k).toNat := by
  simp [pcmpElem, h]

theorem pcmpElem_signed (h : c.signed = true) : pcmpElem c v k = (pcmpElemBits c v k).toInt := by
  simp [pcmpElem, h]

/-- Signed or not, an element is congruent to its bits. -/
theorem pcmpElem_emod : pcmpElem c v k % 2 ^ c.elemBits = (pcmpElemBits c v k).toNat := by
  cases h : c.signed with
  | false =>
    rw [pcmpElem_unsigned v k h]
    exact_mod_cast Nat.mod_eq_of_lt (pcmpElemBits c v k).isLt
  | true => rw [pcmpElem_signed v k h, toNat_eq_toInt_emod]

theorem pcmpElem_unsigned_range (h : c.signed = false) : 0 ≤ pcmpElem c v k ∧ pcmpElem c v k < 2 ^ c.elemBits := by
  rw [pcmpElem_unsigned v k h]
  exact ⟨Int.natCast_nonneg _, by exact_mod_cast (pcmpElemBits c v k).isLt⟩

theorem pcmpElem_signed_range (h : c.signed = true) :
    -(2 ^ (c.elemBits - 1)) ≤ pcmpElem c v k ∧ pcmpElem c v k < 2 ^ (c.elemBits - 1) := by
  rw [pcmpElem_signed v k h]
  exact ⟨BitVec.le_toInt _, BitVec.toInt_lt⟩

end Elements

/-- Settles O30, a lemma for each field and for each range. -/
theorem controlAndElements : Obligations.ControlAndElements := by
  intro imm v k _
  refine ⟨pcmpControl_count imm, ?width, ?congruent, fun h => pcmpElem_unsigned_range v k ?unsigned,
    fun h => pcmpElem_signed_range v k ?signed, pcmpControl_agg imm, pcmpControl_pol imm, pcmpControl_out imm,
    pcmpControl_xor_bit7 imm⟩
  case width =>
    exact (Nat.div_eq_of_eq_mul_left (PcmpControl.count_pos _) (PcmpControl.elemBits_mul_count _).symm).symm
  case congruent => rw [pcmpElem_emod, toNat_pcmpElemBits]
  case unsigned => simp [pcmpControl_signed, h]
  case signed => simp [pcmpControl_signed, h]

/-! ### Explicit lengths -/

theorem natAbs_toInt (u : BitVec 32) :
    u.toInt.natAbs = if u.toNat < 2 ^ 31 then u.toNat else 2 ^ 32 - u.toNat := by
  rw [BitVec.toInt_eq_toNat_cond]
  split_ifs <;> omega

/-- Settles O31: the magnitude of the low 32 bits by `natAbs_toInt`. -/
theorem explicitLengthRule : Obligations.ExplicitLengthRule := by
  intro c r s
  have hlow : s.x[r].toNat % 2 ^ 32 = (readReg .w32 r s).toNat := (toNat_readReg .w32 r s).symm
  rw [hlow, explicitLength, natAbs_toInt]
  exact ⟨fun h => by rw [if_pos h], fun h => by rw [if_neg (Nat.not_lt.mpr h)]⟩

/-! ### IntRes1 and IntRes2 -/

section Results

theorem getLsbD_allOnes_of_lt {n k : Nat} (h : k < n) : (BitVec.allOnes n).getLsbD k = true := by
  rw [BitVec.getLsbD_allOnes, decide_eq_true h]

theorem allOnes_ne_zero {n : Nat} (h : 0 < n) : BitVec.allOnes n ≠ 0 := fun heq => by
  have hbit := getLsbD_allOnes_of_lt h
  simp [heq] at hbit

theorem eq_allOnes_of_getLsbD {n : Nat} {r : BitVec n} (h : ∀ i, i < n → r.getLsbD i = true) :
    r = BitVec.allOnes n := by
  apply BitVec.eq_of_getLsbD_eq
  intro i hi
  rw [h i hi, getLsbD_allOnes_of_lt hi]

variable {c : PcmpControl} (a b : Vec) {la lb : Nat}

theorem getLsbD_pcmpIntRes1_of_lt {i : Nat} (hi : i < c.count) :
    (pcmpIntRes1 c a b la lb).getLsbD i = pcmpAggregate c a b la lb i := by
  rw [getLsbD_pcmpIntRes1, decide_eq_true hi, Bool.true_and]

/-- A vector compared with itself under EqualEach: places below the length are equal, the others both invalid. -/
theorem pcmpIntRes1_equalEach_self (h : c.agg = .equalEach) (l : Nat) :
    pcmpIntRes1 c a a l l = BitVec.allOnes c.count := by
  refine eq_allOnes_of_getLsbD fun i hi => ?_
  rw [getLsbD_pcmpIntRes1_of_lt a a hi, pcmpAggregate_equalEach h]
  obtain hl | hl := Nat.lt_or_ge i l
  · exact .inl ⟨hl, hl, rfl⟩
  · exact .inr ⟨hl, hl⟩

/-- EqualOrdered with an empty A holds everywhere. -/
theorem pcmpIntRes1_equalOrdered_zero (h : c.agg = .equalOrdered) :
    pcmpIntRes1 c a b 0 lb = BitVec.allOnes c.count := by
  refine eq_allOnes_of_getLsbD fun i hi => ?_
  rw [getLsbD_pcmpIntRes1_of_lt a b hi, pcmpAggregate_equalOrdered h]
  exact fun _ _ hj => absurd hj (Nat.not_lt_zero _)

/-- EqualAny with an empty A holds nowhere. -/
theorem pcmpIntRes1_equalAny_zero (h : c.agg = .equalAny) : pcmpIntRes1 c a b 0 lb = 0 := by
  refine BitVec.eq_of_getLsbD_eq fun i hi => ?_
  have hzero : (0 : BitVec c.count).getLsbD i = false := BitVec.getLsbD_zero
  rw [getLsbD_pcmpIntRes1_of_lt a b hi, hzero, Bool.eq_false_iff, Ne,
    pcmpAggregate_equalAny h (Nat.zero_le _)]
  rintro ⟨-, j, hj, -⟩
  exact Nat.not_lt_zero j hj

/-- Under EqualAny and Ranges only valid elements of B count. -/
theorem toNat_pcmpIntRes1_lt (h : c.agg = .equalAny ∨ c.agg = .ranges) (hla : la ≤ c.count) :
    (pcmpIntRes1 c a b la lb).toNat < 2 ^ lb := by
  apply Nat.lt_pow_two_of_testBit
  intro i hi
  rw [BitVec.testBit_toNat, getLsbD_pcmpIntRes1, Bool.and_eq_false_imp]
  intro _
  rw [Bool.eq_false_iff, Ne]
  obtain h | h := h
  · rw [pcmpAggregate_equalAny h hla]
    exact fun hvalid => absurd hvalid.1 (Nat.not_lt.mpr hi)
  · rw [pcmpAggregate_ranges h hla]
    exact fun hvalid => absurd hvalid.1 (Nat.not_lt.mpr hi)

/-- Under EqualEach a place with b[i] invalid holds where a[i] is invalid too. -/
theorem getLsbD_pcmpIntRes1_equalEach_invalid (h : c.agg = .equalEach) {i : Nat} (hb : lb ≤ i) (hi : i < c.count) :
    (pcmpIntRes1 c a b la lb).getLsbD i = decide (la ≤ i) := by
  rw [getLsbD_pcmpIntRes1_of_lt a b hi, Bool.eq_iff_iff, pcmpAggregate_equalEach h, decide_eq_true_eq]
  omega

theorem toNat_pcmpIntRes2_negate (h : c.pol = .negate) :
    (pcmpIntRes2 c a b la lb).toNat = (pcmpIntRes1 c a b la lb).toNat ^^^ (2 ^ c.count - 1) := by
  rw [pcmpIntRes2, pcmpPolarity, h]
  simp only [BitVec.toNat_xor, toNat_maskBits _ _ (Nat.le_refl _)]

theorem toNat_pcmpIntRes2_maskNegate (h : c.pol = .maskNegate) (hlb : lb ≤ c.count) :
    (pcmpIntRes2 c a b la lb).toNat = (pcmpIntRes1 c a b la lb).toNat ^^^ (2 ^ lb - 1) := by
  rw [pcmpIntRes2, pcmpPolarity, h]
  simp only [BitVec.toNat_xor, toNat_maskBits _ _ hlb]

end Results

theorem pcmpIndex_eq_count {c : PcmpControl} {r : BitVec c.count} : pcmpIndex c r = c.count ↔ r = 0 := by
  constructor
  · intro h
    by_contra hr
    exact (BitVec.lt_of_getLsbD (getLsbD_pcmpIndex hr)).ne h
  · rintro rfl
    exact pcmpIndex_zero c

theorem pcmpIndex_allOnes (c : PcmpControl) :
    pcmpIndex c (BitVec.allOnes c.count) = if c.out then c.count - 1 else 0 := by
  have hpos := c.count_pos
  have hne := allOnes_ne_zero hpos
  split_ifs with hout
  · have hgreatest := (isGreatest_pcmpIndex hout hne).2
      (getLsbD_allOnes_of_lt (by omega : c.count - 1 < c.count))
    have hlt := BitVec.lt_of_getLsbD (getLsbD_pcmpIndex hne)
    omega
  · exact Nat.le_zero.mp ((isLeast_pcmpIndex (Bool.eq_false_iff.mpr hout) hne).2
      (getLsbD_allOnes_of_lt hpos))

/-! ### Equal strings -/

theorem exec_pcmpistri_reg (rex : Bool) (a b : Reg) (imm : Byte) (s : State) :
    exec (.pcmpistri rex a (.reg b) imm) s = .next (pcmpIstri (pcmpControl imm) s.xmm[a] s.xmm[b] s) := rfl

/-- Settles O40: IntRes1 is all ones, so IntRes2 is all ones or 0, and the commit of the index form follows. -/
theorem equalStringsUnderEqualEach : Obligations.EqualStringsUnderEqualEach := by
  intro rex a b imm s c hagg heq hlen
  rw [← heq]
  set v := s.xmm[a]
  set l := implicitLength c v
  have hones := pcmpIntRes1_equalEach_self v hagg l
  have hplain : c.pol = .noNegate → pcmpIntRes2 c v v l l = BitVec.allOnes c.count := fun h => by
    rw [pcmpIntRes2_noNegate v v l l h, hones]
  have hnegated : c.pol = .negate → pcmpIntRes2 c v v l l = 0 := fun h => by
    apply BitVec.eq_of_toNat_eq
    rw [toNat_pcmpIntRes2_negate v v h, hones, BitVec.toNat_allOnes, Nat.xor_self]
    rfl
  refine ⟨by rw [hones, BitVec.toNat_allOnes], fun h => by rw [hplain h, BitVec.toNat_allOnes],
    fun h => by rw [hnegated h]; rfl, commitIndex c l l (pcmpIntRes2 c v v l l) s, ?run, decide_eq_true hlen,
    decide_eq_true hlen, fun h => ?plain, fun h => ?negated⟩
  case run =>
    rw [exec_pcmpistri_reg, ← heq]
    rfl
  case plain =>
    rw [hplain h, toNat_commitIndex_rcx, pcmpIndex_allOnes]
    exact ⟨rfl, (bne_zero_eq _).trans (decide_eq_true (allOnes_ne_zero c.count_pos)),
      getLsbD_allOnes_of_lt c.count_pos⟩
  case negated =>
    rw [hnegated h, toNat_commitIndex_rcx, pcmpIndex_zero]
    exact ⟨rfl, (bne_zero_eq (0 : BitVec c.count)).trans (decide_eq_false (not_not_intro rfl)),
      BitVec.getLsbD_zero⟩

/-! ### The further laws -/

/-- Bit 4 of the control byte switches between no negation and negation, and stands in no other field. -/
theorem pcmpControl_xor_bit4 (imm : Byte) (h : imm.toNat / 16 % 4 ≤ 1) :
    ((pcmpControl imm).pol = .noNegate ∧
        pcmpControl (imm ^^^ 0x10) = { pcmpControl imm with pol := .negate }) ∨
      ((pcmpControl imm).pol = .negate ∧
        pcmpControl (imm ^^^ 0x10) = { pcmpControl imm with pol := .noNegate }) := by
  revert imm
  decide

/-- Settles O41, a lemma for each law. -/
theorem compareLaws : Obligations.CompareLaws := by
  intro imm a b la lb c hla hlb
  refine ⟨fun h => ?flip, ?full, ?empty, fun h => ?anyEmpty, fun h => ?orderedEmpty,
    fun h => toNat_pcmpIntRes1_lt a b h hla, fun h i hb hi => getLsbD_pcmpIntRes1_equalEach_invalid a b h hb hi,
    pcmpIndex_le c _, pcmpIndex_eq_count⟩
  case flip =>
    obtain ⟨hpol, hflip⟩ | ⟨hpol, hflip⟩ := pcmpControl_xor_bit4 imm h
    · rw [hflip, toNat_pcmpIntRes2_negate a b rfl, pcmpIntRes2_noNegate a b la lb hpol]
      rfl
    · rw [hflip, toNat_pcmpIntRes2_negate a b hpol, Nat.xor_assoc, Nat.xor_self, Nat.xor_zero]
      rfl
  case full =>
    have hmask := toNat_pcmpIntRes2_maskNegate (c := { c with pol := .maskNegate }) (la := la) a b rfl
      (Nat.le_refl c.count)
    exact hmask.trans (toNat_pcmpIntRes2_negate (c := { c with pol := .negate }) a b rfl).symm
  case empty =>
    rw [toNat_pcmpIntRes2_maskNegate a b rfl (Nat.zero_le _), pow_zero, Nat.sub_self, Nat.xor_zero]
    rfl
  case anyEmpty => rw [pcmpIntRes1_equalAny_zero a b h]; rfl
  case orderedEmpty => rw [pcmpIntRes1_equalOrdered_zero a b h, BitVec.toNat_allOnes]

end Sys2Proof.Proofs
end
